-- ==== Sys2Proof/Word.lean ====
section
/-! DEFINITION. The word types of EPD-CORE (10_state.md R20, 30_encoding.md R90). Everything is unsigned; bit 0 is the
least significant bit (00_scope.md R9). -/

namespace Sys2Proof

/-- The 48-bit command word (R90). -/
abbrev CmdWord := BitVec 48

/-- An 8-bit quantity: the configuration word, a pin identifier, an opcode. -/
abbrev Byte := BitVec 8

/-- A 16-bit quantity: an operand, a duration in ticks of 0.1 µs (92_eei_decisions.md D5). -/
abbrev Half := BitVec 16

end Sys2Proof
end

