-- ==== Sys2Proof/Config.lean ====
section
/-! DEFINITION. The parameters of 00_scope.md R8 that the spec leaves OPEN or decides with a default. "OPEN means the
model must take it as an argument": `Params` is that argument; `State.params` holds it, no step changes it, and a
statement about every state is a statement about every choice of it (log 7). The quantities R8 marks "source" are
constants of `Machine/Operands.lean`. -/

namespace Sys2Proof.Config

/-- The (high, low) durations of one pulse, in ticks. -/
structure Pair where
  high : Half
  low  : Half
deriving DecidableEq, Repr

/-- The parameters of R8 whose status is OPEN or decided. -/
structure Params where
  /-- MAX_TICKS: the largest duration one phase can hold. -/
  maxTicks  : Half
  /-- CKV_PIN: the pin identifier the PSM passes to the generator at INIT. -/
  ckvPin    : Byte
  skipShort : Pair
  skipLong  : Pair
  sfA : Pair
  sfB : Pair
  sfC : Pair
  sfD : Pair
  efP : Pair
  /-- OR_WAIT: the wait flag of the output-row pulse. -/
  orWait    : Bool
  /-- PTR_W: the width of the buffer pointer (92_eei_decisions.md D34, log 13). -/
  ptrW      : Nat
  /-- BUS_PINS: the bus engine's `pin_assignment`, a list of pin identifiers. Fixed wiring: it goes with BusInit and no
  port or event carries it, so no rule reads it (20_memory.md R67, D35, log 13). -/
  busPins   : List Byte
deriving DecidableEq, Repr

/-- The defaults of R8. CKV_PIN and BUS_PINS have none there: 0 and no pin are the model's choice
(log 7). -/
def Params.default : Params where
  maxTicks  := 65535
  ckvPin    := 0
  skipShort := ⟨2, 2⟩
  skipLong  := ⟨45, 5⟩
  sfA := ⟨1, 1⟩
  sfB := ⟨10, 10⟩
  sfC := ⟨0, 10⟩
  sfD := ⟨1, 1⟩
  efP := ⟨10, 10⟩
  orWait := false
  ptrW := 32
  busPins := []

/-- The precondition of `Emit` on one internal pulse (R122): not both durations zero, neither above MAX_TICKS. -/
def Pair.ok (maxTicks : Half) (p : Pair) : Bool :=
  !(p.high == 0 && p.low == 0) && p.high.toNat ≤ maxTicks.toNat && p.low.toNat ≤ maxTicks.toNat

/-- What R8, R122 and D19 require of the parameters, and that the pointer fits the response (R100). -/
def Params.ok (p : Params) : Bool :=
  p.skipShort.ok p.maxTicks && p.skipLong.ok p.maxTicks && p.sfA.ok p.maxTicks && p.sfB.ok p.maxTicks &&
  p.sfC.ok p.maxTicks && p.sfD.ok p.maxTicks && p.efP.ok p.maxTicks &&
  p.skipShort.high == p.skipShort.low && p.skipLong.high != p.skipLong.low &&
  p.skipShort.high.toNat + p.skipShort.low.toNat < p.skipLong.high.toNat + p.skipLong.low.toNat && p.ptrW ≤ 32

/-- What HOST presents turn by turn in an infinite stream of commands (00_scope.md R17): uninterpreted, so that every
statement holds for every stream (log 1). `none` is a turn in which it presents nothing. -/
opaque hostTurn : Nat → Option CmdWord

end Sys2Proof.Config
end

