-- ==== Sys2Proof/Machine/State.lean ====
section
/-! DEFINITION. The state of EPD-CORE (10_state.md R20), grouped by the agent that owns it (the "owner" column there),
with the inputs of the other agents as plain data. A register of one bit is a Bool (1 = true); PSM, PG_ST and PG_PH are
inductive types with the codes of R24, R28, R36 (log 16). -/

namespace Sys2Proof.Machine

/-- The protocol state PSM (R24); codes 6 and 7 never occur. -/
inductive Psm
  | uninit | powerOff | poweringOn | poweredOn | frameActive | poweringOff
deriving DecidableEq, Repr

/-- The generator status PG_ST (R28); code 3 never occurs. -/
inductive PgSt
  | uninit | ready | failed
deriving DecidableEq, Repr

/-- The engine phase PG_PH (R36). -/
inductive PgPh
  | idle | ph0 | ph1 | notify
deriving DecidableEq, Repr

/-- The five pins (20_memory.md R62 to R64, R76). -/
inductive Pin
  | cfgData | cfgClk | cfgStr | spl | ckv
deriving DecidableEq, Repr

/-- The events of the observable trace (00_scope.md R13). -/
inductive Event
  /-- PIN(p, v): SEQ wrote the output latch of pin p. -/
  | pin (p : Pin) (v : Bool)
  /-- DIR(p): pin p became an output. -/
  | dir (p : Pin)
  /-- DELAY(n): SEQ began to wait n ticks. -/
  | delay (n : Half)
  /-- PULSE(d0, d1, p1p): a pulse was started with these programmed values. -/
  | pulse (d0 d1 : Half) (p1p : Bool)
  /-- CKV(v): the timing pin changed level. -/
  | ckv (v : Bool)
  /-- NOTIFY: the completion flag was set. -/
  | notify
  /-- BUS_INIT(w). -/
  | busInit (w : BitVec 17)
  /-- BUS_START. -/
  | busStart
  /-- BUS_SWITCH. -/
  | busSwitch
  /-- PG_ALLOC(pin). -/
  | pgAlloc (pin : Byte)
  /-- RSP(status, data). -/
  | rsp (status : BitVec 2) (data : BitVec 32)
deriving DecidableEq, Repr

/-- An event with the tick in which it happened. -/
structure Stamped where
  time : Nat
  ev   : Event
deriving DecidableEq, Repr

/-- What an input presents at its successive samples: the listed values, then `rest` for ever (log 5). -/
structure Feed (α : Type) where
  next : List α
  rest : α
deriving DecidableEq, Repr

/-- The state owned by SEQ (R20), except DLY_CNT. -/
structure SeqRegs where
  /-- CFG, the configuration word (R21). -/
  cfg : Byte
  /-- PSM (R24). -/
  psm : Psm
  /-- SEQ_OP: opcode in execution, 0x00 = idle (R25). -/
  seqOp : Byte
  /-- SEQ_STEP: number of the micro-step, from 1 (R25). -/
  seqStep : Nat
  /-- The sub-index: how many actions of the micro-step are done (R25, log 11). -/
  seqSub : Nat
  /-- A, B, W: the operand latch (R26). -/
  a : Half
  b : Half
  w : Bool
  /-- PG_ST (R28). -/
  pgSt : PgSt
  /-- PG_PIN (R29). -/
  pgPin : Byte
  /-- PG_D0, PG_D1, PG_P1P: the programmed symbol (R35). -/
  pgD0 : Half
  pgD1 : Half
  pgP1p : Bool
  /-- Pin output latches (R30, R31, R32). -/
  cfgData : Bool
  cfgClk : Bool
  cfgStr : Bool
  spl : Bool
  /-- Direction bits, true = output (R33). -/
  dirCfgData : Bool
  dirCfgClk : Bool
  dirCfgStr : Bool
  dirSpl : Bool
  dirCkv : Bool
  /-- MISUSE, ILLEGAL, BUS_FAIL: the sticky flags (R37). -/
  misuse : Bool
  illegal : Bool
  busFail : Bool
  /-- VARIANT_L: the latched panel variant, true = LONG_ASYM (R38). -/
  variantL : Bool
deriving DecidableEq, Repr

/-- The state written by PGE (R20); PG_DONE is the one flag SEQ also writes (R34). -/
structure PgeRegs where
  /-- PG_PH (R36). -/
  pgPh : PgPh
  /-- PG_CNT: ticks left in the current phase (R36). -/
  pgCnt : Half
  /-- PG_DONE: the completion flag (R34). -/
  pgDone : Bool
  /-- CKV: the level of the timing pin (R33). -/
  ckv : Bool
deriving DecidableEq, Repr

/-- The inputs of the block: what HOST, BUS, RESET and the allocator present (20_memory.md R60, R65 to R71; 10_state.md
R40). Plain data; nothing constrains it. -/
structure Env where
  /-- `rst` at each step of the model (70_reset_and_hazards.md R230). -/
  rst : Feed Bool
  /-- The words HOST presents next, in order; `none` is a turn in which it presents nothing (R60, log 1). -/
  cmds : List (Option CmdWord)
  /-- What HOST presents after those: `none` = nothing for ever; `some n` = the infinite stream `Config.hostTurn` from its
  turn `n` on (00_scope.md R17, log 1). -/
  cmdsLater : Option Nat
  /-- The samples of `variant`, one for each INIT that runs, true = LONG_ASYM (R65, log 5). -/
  variant : Feed Bool
  /-- The samples of `bus_busy` (R66). -/
  busBusy : Feed Bool
  /-- The engine's state at each poll for the answer to BusInit: `none` = no answer yet (R67). -/
  busInitOk : Feed (Option Bool)
  /-- The allocator's state at each poll for the answer to PgAlloc: `none` = no answer yet (R71). -/
  pgAllocOk : Feed (Option Bool)
  /-- The samples of `bus_curbuf`, each the number on its PTR_W wires (R70, log 13). -/
  busCurbuf : Feed Nat
  /-- T_STEP of the successive sequencer actions, in ticks (00_scope.md R8, log 3). -/
  tStep : Feed Nat
  /-- How many ticks the turns that accept a word take (log 26): the listed numbers, then one tick more than `rest` for
  ever, so that time goes on in every stream of words (40_pulse_generator.md R129). -/
  tAccept : Feed Nat
  /-- T_NOTIFY of the successive notifications, in ticks; `none` = withheld for ever (R8, log 4). -/
  tNotify : Feed (Option Nat)
deriving DecidableEq, Repr

/-- The whole state. -/
structure State where
  seq : SeqRegs
  pge : PgeRegs
  /-- DLY_CNT: ticks left in the current Delay (R27). -/
  dlyCnt : Half
  env : Env
  params : Config.Params
  /-- The tick counter of a timed model (00_scope.md R14); no rule reads it. -/
  now : Nat
  /-- The observable trace, oldest first (00_scope.md R13). -/
  trace : List Stamped
  /-- How many sequencer actions, or ticks of waiting, one step covers, at least one; `none` = no limit (log 2). -/
  grain : Option Nat
  /-- What is left of the grain inside a step; `none` = no limit (log 2). -/
  budget : Option Nat
deriving DecidableEq, Repr

/-- Why the machine stops. -/
inductive Fault
  /-- (SEQ_OP, SEQ_STEP) names no micro-step of the fifteen commands: SEQ_OP is neither 0 nor the opcode of a legal
  latched command, or SEQ_STEP is past its last micro-step. Raised by `step` on a busy state only. Safe: R25 gives such
  a position no meaning and no run reaches one (log 14). -/
  | noSequencerPosition
deriving DecidableEq, Repr

/-- Why an instruction is refused. -/
inductive Refusal
  /-- The instruction has no meaning in this model. Raised by `exec` only, for an arm not yet modelled; no arm is. Safe. -/
  | notModelled (mnemonic : String)
deriving DecidableEq, Repr

/-- SEQ's registers after reset (R41). A, B, W, PG_PIN, PG_D0, PG_D1, PG_P1P: DESIGN CHOICE zero, unsafe (log 6). -/
def SeqRegs.reset : SeqRegs where
  cfg := 0
  psm := .uninit
  seqOp := 0
  seqStep := 0
  seqSub := 0
  a := 0
  b := 0
  w := false
  pgSt := .uninit
  pgPin := 0
  pgD0 := 0
  pgD1 := 0
  pgP1p := false
  cfgData := false
  cfgClk := false
  cfgStr := false
  spl := false
  dirCfgData := false
  dirCfgClk := false
  dirCfgStr := false
  dirSpl := false
  dirCkv := false
  misuse := false
  illegal := false
  busFail := false
  variantL := false

/-- PGE's registers after reset (R41): PG_DONE = 1, PG_PH = PG_IDLE, CKV = 0. -/
def PgeRegs.reset : PgeRegs where
  pgPh := .idle
  pgCnt := 0
  pgDone := true
  ckv := false

/-- The inputs at `State.reset`: DESIGN CHOICE, the environment of 95_test_vectors.md's conventions (answers ok, bus
idle, no latency) with nothing presented (log 5). Of the statements only `ResetStateValues` rests on it: on `rst` being low. -/
def Env.reset : Env where
  rst := ⟨[], false⟩
  cmds := []
  cmdsLater := none
  variant := ⟨[], false⟩
  busBusy := ⟨[], false⟩
  busInitOk := ⟨[], some true⟩
  pgAllocOk := ⟨[], some true⟩
  busCurbuf := ⟨[], 0⟩
  tStep := ⟨[], 0⟩
  tAccept := ⟨[], 0⟩
  tNotify := ⟨[], some 0⟩

/-- The machine right after reset (R41, R230). -/
def State.reset : State where
  seq := SeqRegs.reset
  pge := PgeRegs.reset
  dlyCnt := 0
  env := Env.reset
  params := Config.Params.default
  now := 0
  trace := []
  grain := none
  budget := none

end Sys2Proof.Machine
end

