-- ==== Sys2Proof/Syntax.lean ====
section
/-! DEFINITION. The fifteen commands of EPD-CORE (30_encoding.md R92, spec/opcode_table.json), one constructor a row,
with the operands of the row. -/

namespace Sys2Proof

/-- The fifteen opcodes of R92, by mnemonic. -/
inductive Opcode
  | pginit | emit | emitus | pgbusy | push | init | pon | poff | poffa | sfrm | skip | orow | efrm | swbuf | curbuf
deriving DecidableEq, Repr

/-- A command with its operands. -/
inductive Instr
  /-- PGINIT pin (R121). -/
  | pginit (pin : Byte)
  /-- EMIT high, low, wait: ticks of 0.1 µs (R123). -/
  | emit (high low : Half) (wait : Bool)
  /-- EMITUS high_us, low_us, wait: whole microseconds (R124). -/
  | emitus (highUs lowUs : Half) (wait : Bool)
  /-- PGBUSY (R125). -/
  | pgbusy
  /-- PUSH word (R151). -/
  | push (word : Byte)
  /-- INIT row_width (R170). -/
  | init (rowWidth : Half)
  /-- PON (R171). -/
  | pon
  /-- POFF (R172). -/
  | poff
  /-- POFFA (R173). -/
  | poffa
  /-- SFRM (R174). -/
  | sfrm
  /-- SKIP (R175). -/
  | skip
  /-- OROW output_time: ticks (R176). -/
  | orow (outputTime : Half)
  /-- EFRM (R177). -/
  | efrm
  /-- SWBUF (R178). -/
  | swbuf
  /-- CURBUF (R179). -/
  | curbuf
deriving DecidableEq, Repr

/-- The row of the opcode map a command belongs to. -/
def Instr.opcode : Instr → Opcode
  | .pginit _ => .pginit
  | .emit _ _ _ => .emit
  | .emitus _ _ _ => .emitus
  | .pgbusy => .pgbusy
  | .push _ => .push
  | .init _ => .init
  | .pon => .pon
  | .poff => .poff
  | .poffa => .poffa
  | .sfrm => .sfrm
  | .skip => .skip
  | .orow _ => .orow
  | .efrm => .efrm
  | .swbuf => .swbuf
  | .curbuf => .curbuf

end Sys2Proof
end

