-- ==== Sys2Proof/Machine/Flags.lean ====
section
/-! DEFINITION. The flags: the eight flags of the configuration word (10_state.md R21, 30_encoding.md R97, R105 e), the
protocol-state table (42_panel_protocol.md R161) and what sets MISUSE (60_exceptions.md R202). -/

namespace Sys2Proof.Machine

/-- The masks of R97. -/
def maskLe : Byte := 0x01
def maskPwrdis : Byte := 0x02
def maskPos : Byte := 0x04
def maskNeg : Byte := 0x08
def maskSof : Byte := 0x10
def maskDir : Byte := 0x20
def maskMode : Byte := 0x40
def maskOe : Byte := 0x80

/-- CFG_INIT (R97): PWRDIS | SOF | DIR. -/
def cfgInit : Byte := maskPwrdis ||| maskSof ||| maskDir

/-- `CFG.F <- 1` (R105 e). -/
def flagSet (mask cfg : Byte) : Byte := cfg ||| mask

/-- `CFG.F <- 0` (R105 e). -/
def flagClear (mask cfg : Byte) : Byte := cfg &&& ~~~mask

/-- R161, legal set: the values of PSM at acceptance for which the command is not misuse. -/
def legalSet (o : Opcode) (p : Psm) : Bool :=
  match o with
  | .init => p == .uninit
  | .pon => p == .powerOff
  | .poff => p == .poweredOn || p == .frameActive
  | .poffa => p == .powerOff || p == .poweredOn || p == .frameActive
  | .sfrm => p == .poweredOn
  | .skip => p == .frameActive
  | .orow => p == .frameActive
  | .efrm => p == .frameActive
  | .swbuf => p == .powerOff || p == .poweredOn || p == .frameActive
  | .curbuf => p == .powerOff || p == .poweredOn || p == .frameActive
  | .pginit => true
  | .emit => true
  | .emitus => true
  | .pgbusy => true
  | .push => true

/-- R161, during: the value PSM takes at acceptance. R162 (c): UNINIT stays. -/
def psmDuring (o : Opcode) (p : Psm) : Psm :=
  if p = .uninit then .uninit
  else
    match o with
    | .pon => .poweringOn
    | .poff => .poweringOff
    | .pginit => p
    | .emit => p
    | .emitus => p
    | .pgbusy => p
    | .push => p
    | .init => p
    | .poffa => p
    | .sfrm => p
    | .skip => p
    | .orow => p
    | .efrm => p
    | .swbuf => p
    | .curbuf => p

/-- R161, after: the value PSM takes at `done`, from the value `p` it held during the command. R162 (c): for every
command but INIT, UNINIT stays. -/
def psmAfter (o : Opcode) (p : Psm) : Psm :=
  if o ≠ .init ∧ p = .uninit then .uninit
  else
    match o with
    | .init => .powerOff
    | .pon => .poweredOn
    | .poff => .powerOff
    | .poffa => .powerOff
    | .sfrm => .frameActive
    | .efrm => .poweredOn
    | .pginit => p
    | .emit => p
    | .emitus => p
    | .pgbusy => p
    | .push => p
    | .skip => p
    | .orow => p
    | .swbuf => p
    | .curbuf => p

/-- `flag MISUSE`: sticky (R37). -/
def flagMisuse (s : State) : State := { s with seq := { s.seq with misuse := true } }

/-- `flag ILLEGAL`: sticky (R37). -/
def flagIllegal (s : State) : State := { s with seq := { s.seq with illegal := true } }

/-- MISUSE when a command is accepted outside its legal set (R162 b, R202 item 1). -/
def checkLegal (o : Opcode) (s : State) : State :=
  if legalSet o s.seq.psm then s else flagMisuse s

end Sys2Proof.Machine
end

