-- ==== Sys2Proof/WellFormed.lean ====
section
/-! DEFINITION. Which operand values make a legal command (30_encoding.md R93, R94). MAX_TICKS is an argument, since
R8 leaves it open. Every other operand value of every command is legal. -/

namespace Sys2Proof

/-- R93: a pulse of `h` and `l` ticks is legal when neither exceeds MAX_TICKS and not both are zero. The durations are
exact natural numbers, so that R94's products do not wrap. -/
def legalPulse (maxTicks : Half) (h l : Nat) : Bool :=
  !(h == 0 && l == 0) && decide (h ≤ maxTicks.toNat) && decide (l ≤ maxTicks.toNat)

/-- The operand-value checks: R93 for EMIT, R94 for EMITUS (10 ticks a microsecond). -/
def Instr.wf (maxTicks : Half) : Instr → Bool
  | .emit h l _ => legalPulse maxTicks h.toNat l.toNat
  | .emitus h l _ => legalPulse maxTicks (10 * h.toNat) (10 * l.toNat)
  | .pginit _ => true
  | .pgbusy => true
  | .push _ => true
  | .init _ => true
  | .pon => true
  | .poff => true
  | .poffa => true
  | .sfrm => true
  | .skip => true
  | .orow _ => true
  | .efrm => true
  | .swbuf => true
  | .curbuf => true

end Sys2Proof
end

