-- ==== Sys2Proof/Decode.lean ====
section
/-! DEFINITION. Decoding (30_encoding.md R90 to R94, R104), total on all 2^48 words, and the encoder written from the
same tables. The command word is one parallel 48-bit value: no byte order applies to it (20_memory.md R73). -/

namespace Sys2Proof

/-- The opcode byte of each row (R92). -/
def Opcode.code : Opcode → Byte
  | .pginit => 0x10
  | .emit => 0x11
  | .emitus => 0x12
  | .pgbusy => 0x13
  | .push => 0x20
  | .init => 0x30
  | .pon => 0x31
  | .poff => 0x32
  | .poffa => 0x33
  | .sfrm => 0x34
  | .skip => 0x35
  | .orow => 0x36
  | .efrm => 0x37
  | .swbuf => 0x38
  | .curbuf => 0x39

/-- The row with a given opcode byte; the other 241 bytes are reserved (R101). -/
def Opcode.ofCode (c : Byte) : Option Opcode :=
  match c.toNat with
  | 0x10 => some .pginit
  | 0x11 => some .emit
  | 0x12 => some .emitus
  | 0x13 => some .pgbusy
  | 0x20 => some .push
  | 0x30 => some .init
  | 0x31 => some .pon
  | 0x32 => some .poff
  | 0x33 => some .poffa
  | 0x34 => some .sfrm
  | 0x35 => some .skip
  | 0x36 => some .orow
  | 0x37 => some .efrm
  | 0x38 => some .swbuf
  | 0x39 => some .curbuf
  | _ => none

/-- The four formats of R91. -/
inductive Format
  | n | p | a16 | a8
deriving DecidableEq, Repr

/-- The format of each row (R92). -/
def Opcode.format : Opcode → Format
  | .pginit => .a8
  | .emit => .p
  | .emitus => .p
  | .pgbusy => .n
  | .push => .a8
  | .init => .a16
  | .pon => .n
  | .poff => .n
  | .poffa => .n
  | .sfrm => .n
  | .skip => .n
  | .orow => .a16
  | .efrm => .n
  | .swbuf => .n
  | .curbuf => .n

/-- The fields of a command word (R90). -/
structure Fields where
  opc : Byte
  a   : Half
  b   : Half
  z   : BitVec 7
  w   : BitVec 1
deriving DecidableEq, Repr

/-- Pulling the fields out: OPC [47:40], A [39:24], B [23:8], Z [7:1], W [0]. -/
def fieldsOf (c : CmdWord) : Fields where
  opc := c.extractLsb' 40 8
  a   := c.extractLsb' 24 16
  b   := c.extractLsb' 8 16
  z   := c.extractLsb' 1 7
  w   := c.extractLsb' 0 1

/-- R104 (3): the must-be-zero fields of the row's format are zero. -/
def mustBeZeroOk (f : Format) (x : Fields) : Bool :=
  x.z == 0 &&
  match f with
  | .n   => x.a == 0 && x.b == 0 && x.w == 0
  | .p   => true
  | .a16 => x.b == 0 && x.w == 0
  | .a8  => x.a.extractLsb' 8 8 == 0 && x.b == 0 && x.w == 0

/-- R104 (5): the command of a row with the operands of the word. -/
def buildInstr (o : Opcode) (x : Fields) : Instr :=
  match o with
  | .pginit => .pginit (x.a.extractLsb' 0 8)
  | .emit => .emit x.a x.b (x.w == 1)
  | .emitus => .emitus x.a x.b (x.w == 1)
  | .pgbusy => .pgbusy
  | .push => .push (x.a.extractLsb' 0 8)
  | .init => .init x.a
  | .pon => .pon
  | .poff => .poff
  | .poffa => .poffa
  | .sfrm => .sfrm
  | .skip => .skip
  | .orow => .orow x.a
  | .efrm => .efrm
  | .swbuf => .swbuf
  | .curbuf => .curbuf

/-- Why a word is illegal (R104 steps 2, 3, 4). -/
inductive Reject
  /-- OPC is not one of the fifteen values. -/
  | undefinedOpcode
  /-- A must-be-zero field of the row's format is not zero. -/
  | nonZeroField
  /-- An operand value excluded by R93 or R94. -/
  | operandValue
deriving DecidableEq, Repr

/-- R104, with MAX_TICKS as an argument. -/
def decode (maxTicks : Half) (c : CmdWord) : Except Reject Instr :=
  match Opcode.ofCode (fieldsOf c).opc with
  | none => .error .undefinedOpcode
  | some o =>
    if mustBeZeroOk o.format (fieldsOf c) then
      if (buildInstr o (fieldsOf c)).wf maxTicks then .ok (buildInstr o (fieldsOf c))
      else .error .operandValue
    else .error .nonZeroField

/-- The A field of a command: what the operand latch A takes at acceptance (10_state.md R26). -/
def Instr.fieldA : Instr → Half
  | .pginit pin => 0#8 ++ pin
  | .emit h _ _ => h
  | .emitus h _ _ => h
  | .push word => 0#8 ++ word
  | .init n => n
  | .orow t => t
  | .pgbusy => 0
  | .pon => 0
  | .poff => 0
  | .poffa => 0
  | .sfrm => 0
  | .skip => 0
  | .efrm => 0
  | .swbuf => 0
  | .curbuf => 0

/-- The B field of a command. -/
def Instr.fieldB : Instr → Half
  | .emit _ l _ => l
  | .emitus _ l _ => l
  | .pginit _ => 0
  | .pgbusy => 0
  | .push _ => 0
  | .init _ => 0
  | .pon => 0
  | .poff => 0
  | .poffa => 0
  | .sfrm => 0
  | .skip => 0
  | .orow _ => 0
  | .efrm => 0
  | .swbuf => 0
  | .curbuf => 0

/-- The W field of a command. -/
def Instr.fieldW : Instr → Bool
  | .emit _ _ w => w
  | .emitus _ _ w => w
  | .pginit _ => false
  | .pgbusy => false
  | .push _ => false
  | .init _ => false
  | .pon => false
  | .poff => false
  | .poffa => false
  | .sfrm => false
  | .skip => false
  | .orow _ => false
  | .efrm => false
  | .swbuf => false
  | .curbuf => false

/-- The word of given fields with Z = 0 (R90). -/
def wordOf (opc : Byte) (a b : Half) (w : Bool) : CmdWord :=
  opc ++ a ++ b ++ 0#7 ++ BitVec.ofBool w

/-- The word of a command (R90, R91, R92). -/
def encode (i : Instr) : CmdWord :=
  wordOf i.opcode.code i.fieldA i.fieldB i.fieldW

/-- One row of the opcode map as R92 writes it: `c` selects the row when `c & mask = pattern`. -/
structure Row where
  op      : Opcode
  mask    : CmdWord
  pattern : CmdWord
deriving DecidableEq, Repr

/-- The fifteen rows of R92. -/
def rows : List Row :=
  [ ⟨.pginit, 0xFFFF00FFFFFF, 0x100000000000⟩,
    ⟨.emit,   0xFF00000000FE, 0x110000000000⟩,
    ⟨.emitus, 0xFF00000000FE, 0x120000000000⟩,
    ⟨.pgbusy, 0xFFFFFFFFFFFF, 0x130000000000⟩,
    ⟨.push,   0xFFFF00FFFFFF, 0x200000000000⟩,
    ⟨.init,   0xFF0000FFFFFF, 0x300000000000⟩,
    ⟨.pon,    0xFFFFFFFFFFFF, 0x310000000000⟩,
    ⟨.poff,   0xFFFFFFFFFFFF, 0x320000000000⟩,
    ⟨.poffa,  0xFFFFFFFFFFFF, 0x330000000000⟩,
    ⟨.sfrm,   0xFFFFFFFFFFFF, 0x340000000000⟩,
    ⟨.skip,   0xFFFFFFFFFFFF, 0x350000000000⟩,
    ⟨.orow,   0xFF0000FFFFFF, 0x360000000000⟩,
    ⟨.efrm,   0xFFFFFFFFFFFF, 0x370000000000⟩,
    ⟨.swbuf,  0xFFFFFFFFFFFF, 0x380000000000⟩,
    ⟨.curbuf, 0xFFFFFFFFFFFF, 0x390000000000⟩ ]

/-- R92's selection of a row by mask and match. -/
def Row.selects (r : Row) (c : CmdWord) : Bool :=
  c &&& r.mask == r.pattern

/-- The instruction the decoder reads from the low `nbits` bits of `w`, MAX_TICKS at its default of R8. Every command is
48 bits long, so bits above `nbits` are zero, and a value that does not fit 48 bits is no command word. -/
def decodeTableWord (nbits w : Nat) : Option Instr :=
  if w % 2 ^ nbits < 2 ^ 48 then
    match decode Config.Params.default.maxTicks (BitVec.ofNat 48 (w % 2 ^ nbits)) with
    | .ok i => some i
    | .error _ => none
  else none

end Sys2Proof
end

