-- ==== Sys2Proof/Machine/Operands.lean ====
section
/-! DEFINITION. Operand assembly and the arithmetic of the block (30_encoding.md R93 to R96, R105), and the quantities
00_scope.md R8 marks "source". -/

namespace Sys2Proof.Machine

/-- US_TO_TICKS (R8): a microsecond is ten ticks; EMITUS multiplies by it before delegating (R94). A legal word's
product fits 16 bits. -/
def usToTicks (us : Half) : Half := BitVec.ofNat 16 (10 * us.toNat)

/-- R95: the width handed to the bus engine, `zext_17(A) + 32`, in 17 bits. -/
def paddedWidth (a : Half) : BitVec 17 := a.setWidth 17 + 32

/-- OR_LOW (R8): low duration of the output-row pulse. -/
def orLow : Half := 50

/-- DLY_PON_1, DLY_PON_2, DLY_PON_3 (R8). -/
def dlyPon1 : Half := 1000
def dlyPon2 : Half := 5000
def dlyPon3 : Half := 1000

/-- DLY_POFF_1, DLY_POFF_2 (R8). -/
def dlyPoff1 : Half := 100
def dlyPoff2 : Half := 1000

/-- DLY_SF (R8): the delay inside start-frame. -/
def dlySf : Half := 10

/-- R96: PG_D0 of the symbol of (h, l). -/
def symbolD0 (h l : Half) : Half := if h = 0 then l else h

/-- R96: PG_D1 of the symbol of (h, l). -/
def symbolD1 (h l : Half) : Half := if h = 0 then 0 else l

/-- R96: PG_P1P of the symbol of (h, l): 0 exactly in the zero-high case. -/
def symbolP1p (h : Half) : Bool := !(h == 0)

/-- R175 micro-step 1: the profile of the latched variant. -/
def skipPair (p : Config.Params) (variantL : Bool) : Config.Pair :=
  if variantL then p.skipLong else p.skipShort

/-- R179, R70: the pointer of a sample, `zext_32` of the PTR_W bits. PTR_W is at most 32 by `Params.ok`; of a wider
pointer the response carries the low 32 bits (log 13). -/
def pointer (ptrW n : Nat) : BitVec 32 := BitVec.ofNat 32 (n % 2 ^ ptrW)

/-- The command the operand latch and SEQ_OP stand for (R25, R26): what SEQ is executing. -/
def latchedInstr (maxTicks : Half) (r : SeqRegs) : Option Instr :=
  match decode maxTicks (wordOf r.seqOp r.a r.b r.w) with
  | .ok i => some i
  | .error _ => none

end Sys2Proof.Machine
end

