-- ==== Sys2Proof/Machine/Ops.lean ====
section
/-! DEFINITION. The named operations every command is made of: the trace and the inputs, the pulse engine and the
passing of time (40_pulse_generator.md R126 to R129), the pins (10_state.md R30 to R33), and the primitive actions of
00_scope.md R11 with the sequencer that runs them (R12, 10_state.md R25). EPD-CORE has no traps (60_exceptions.md R209,
R210): there is no exception entry and no return. -/

namespace Sys2Proof.Machine

/-! ### Inputs and trace -/

/-- What the input presents at the next sample. -/
def Feed.head {α : Type} (f : Feed α) : α :=
  match f.next with
  | [] => f.rest
  | x :: _ => x

/-- The input after one sample. -/
def Feed.pop {α : Type} (f : Feed α) : Feed α := { f with next := f.next.tail }

/-- The input with its next sample replaced. -/
def Feed.setHead {α : Type} (f : Feed α) (x : α) : Feed α := { f with next := x :: f.next.tail }

/-- What HOST presents in this turn (20_memory.md R60, log 1). -/
def Env.turn (e : Env) : Option CmdWord :=
  match e.cmds with
  | [] =>
    match e.cmdsLater with
    | none => none
    | some n => Config.hostTurn n
  | c :: _ => c

/-- The inputs after HOST's turn is used up. -/
def Env.nextTurn (e : Env) : Env :=
  match e.cmds with
  | [] =>
    match e.cmdsLater with
    | none => e
    | some n => { e with cmdsLater := some (n + 1) }
  | _ :: later => { e with cmds := later }

/-- How many ticks the turn that accepts the next word takes (log 26). -/
def Env.acceptTicks (e : Env) : Nat :=
  match e.tAccept.next with
  | [] => e.tAccept.rest + 1
  | n :: _ => n

/-- Appending one event to the observable trace (R13). -/
def emitEvent (e : Event) (s : State) : State := { s with trace := s.trace ++ [⟨s.now, e⟩] }

/-! ### The pulse engine -/

/-- Notify step (R129): PG_DONE <- 1, PG_PH <- PG_IDLE, event NOTIFY. -/
def notifyStep (s : State) : State :=
  emitEvent .notify
    { s with
      pge := { s.pge with pgDone := true, pgPh := .idle }
      env := { s.env with tNotify := s.env.tNotify.pop } }

/-- The notify step, if its latency T_NOTIFY is over. -/
def notifyIfDue (s : State) : State :=
  match s.env.tNotify.head with
  | some 0 => notifyStep s
  | some (_ + 1) => s
  | none => s

/-- The waveform is over: PG_PH <- PG_NOTIFY, and T_NOTIFY begins (R127, R128). -/
def enterNotify (s : State) : State :=
  notifyIfDue { s with pge := { s.pge with pgCnt := 0, pgPh := .notify } }

/-- The end of phase 0 (R127). -/
def endPhase0 (s : State) : State :=
  if s.seq.pgP1p = true ∧ s.seq.pgD1 ≠ 0 then
    emitEvent (.ckv false) { s with pge := { s.pge with ckv := false, pgPh := .ph1, pgCnt := s.seq.pgD1 } }
  else
    enterNotify (emitEvent (.ckv false) { s with pge := { s.pge with ckv := false } })

/-- Start step (R126): PG_PH <- PG_PH0, PG_CNT <- PG_D0, CKV <- 1, event CKV(1). DESIGN CHOICE (log 28): it is one with
`PgStart()`, so no later SEQ event precedes CKV(1), which 20_memory.md R78 and vector V5 allow. -/
def startPulse (s : State) : State :=
  emitEvent (.ckv true) { s with pge := { s.pge with pgPh := .ph0, pgCnt := s.seq.pgD0, ckv := true } }

/-- PGE in one tick (R127, R128, R129). PG_CNT counts down and never below 0 (R105 d). -/
def pgeTick (s : State) : State :=
  match s.pge.pgPh with
  | .idle => s
  | .ph0 =>
    if s.pge.pgCnt.toNat ≤ 1 then endPhase0 s
    else { s with pge := { s.pge with pgCnt := s.pge.pgCnt - 1 } }
  | .ph1 =>
    if s.pge.pgCnt.toNat ≤ 1 then enterNotify s
    else { s with pge := { s.pge with pgCnt := s.pge.pgCnt - 1 } }
  | .notify =>
    match s.env.tNotify.head with
    | none => s
    | some k => notifyIfDue { s with env := { s.env with tNotify := s.env.tNotify.setHead (some (k - 1)) } }

/-- One tick of 0.1 µs: the clock, DLY_CNT (R27) and PGE. -/
def tick (s : State) : State :=
  pgeTick { s with now := s.now + 1, dlyCnt := if s.dlyCnt = 0 then 0 else s.dlyCnt - 1 }

/-- `n` ticks while PGE is idle, at once: only the two counters move. -/
def idleTicks (n : Nat) (s : State) : State :=
  { s with now := s.now + n, dlyCnt := BitVec.ofNat 16 (s.dlyCnt.toNat - n) }

/-- `n` ticks. Once PGE is idle the rest pass at once (`elapse_succ` in Laws says this is `tick` `n` times). -/
def elapse : Nat → State → State
  | 0, s => s
  | n + 1, s =>
    match s.pge.pgPh with
    | .idle => idleTicks (n + 1) s
    | .ph0 => elapse n (tick s)
    | .ph1 => elapse n (tick s)
    | .notify => elapse n (tick s)

/-- How many ticks the pulse in flight still needs until its NOTIFY; for a withheld notification, until PG_NOTIFY. -/
def ticksToDone (s : State) : Nat :=
  let latency := match s.env.tNotify.head with
    | some k => k
    | none => 0
  match s.pge.pgPh with
  | .idle => 0
  | .ph0 => max 1 s.pge.pgCnt.toNat + (if s.seq.pgP1p then s.seq.pgD1.toNat else 0) + latency
  | .ph1 => max 1 s.pge.pgCnt.toNat + latency
  | .notify => latency

/-! ### Pins -/

/-- `Pin(p) <- v` on the latches (R11). CKV is not among the pins SEQ writes (20_memory.md R63). -/
def setLatch (p : Pin) (v : Bool) (r : SeqRegs) : SeqRegs :=
  match p with
  | .cfgData => { r with cfgData := v }
  | .cfgClk => { r with cfgClk := v }
  | .cfgStr => { r with cfgStr := v }
  | .spl => { r with spl := v }
  | .ckv => r

/-- `Dir(p) <- out` on the direction bits (R11, R33). -/
def setDir (p : Pin) (r : SeqRegs) : SeqRegs :=
  match p with
  | .cfgData => { r with dirCfgData := true }
  | .cfgClk => { r with dirCfgClk := true }
  | .cfgStr => { r with dirCfgStr := true }
  | .spl => { r with dirSpl := true }
  | .ckv => { r with dirCkv := true }

/-- `Pin(p) <- v`: the latch and the event, whether or not the level changes (R150). -/
def writePin (p : Pin) (v : Bool) (s : State) : State :=
  emitEvent (.pin p v) { s with seq := setLatch p v s.seq }

/-! ### Actions -/

/-- Where a `Push` takes its word from: the shadow word (panel protocol) or the operand A[7:0] (PUSH). -/
inductive WordSource
  | cfg | operand
deriving DecidableEq, Repr

/-- What the response of a command carries (30_encoding.md R100). -/
inductive Response
  /-- OK, data 0. -/
  | plain
  /-- PGINIT: bit 1 = generator initialisation failed. -/
  | pgInit
  /-- INIT: bit 1 = generator, bit 0 = bus engine initialisation failed. -/
  | init
  /-- PGBUSY: bit 0 = busy. -/
  | busy
  /-- CURBUF: the pointer. -/
  | curBuf
deriving DecidableEq, Repr

/-- One indivisible action of SEQ: a micro-step, or one numbered line of a sub-sequence inside it. -/
inductive Action
  /-- A micro-step that only picks a local value (SKIP 1, CURBUF 1): the value is taken where it is used (log 11). -/
  | pick
  /-- INIT 1: VARIANT_L <- variant. -/
  | latchVariant
  /-- CFG <- w. -/
  | cfgPut (w : Byte)
  /-- CFG.F <- 1. -/
  | cfgSet (mask : Byte)
  /-- CFG.F <- 0. -/
  | cfgClear (mask : Byte)
  /-- Dir(p) <- out. -/
  | dirOut (p : Pin)
  /-- Pin(p) <- v. -/
  | pinOut (p : Pin) (v : Bool)
  /-- Pin(CFG_DATA) <- word[i] (R150). -/
  | dataBit (src : WordSource) (i : Nat)
  /-- Delay(n): load DLY_CNT, event DELAY(n) (R166). -/
  | delayLoad (n : Half)
  /-- Delay: hold until DLY_CNT = 0 (R27). -/
  | delayWait
  /-- WaitIdle (R160). -/
  | waitIdle
  /-- Emit 1 (R122): return at once unless PG_READY. -/
  | emitGuard
  /-- Emit 2 and 6: spin until PG_DONE = 1. -/
  | awaitDone
  /-- Emit 3: program the symbol (R96). -/
  | program (h l : Half)
  /-- Emit 4: PG_DONE <- 0. -/
  | clearDone
  /-- Emit 5: PgStart(). -/
  | start
  /-- BusInit(w): the request (R67). -/
  | busInitReq (w : BitVec 17)
  /-- BusInit: the answer. -/
  | busInitAns
  /-- PgInit 1 (R120): a second initialisation is ignored. -/
  | pgInitGuard
  /-- PgInit 2: PG_PIN <- pin. -/
  | pgSetPin (pin : Byte)
  /-- PgInit 3: PgAlloc(pin), the request (R71). -/
  | pgAllocReq (pin : Byte)
  /-- PgInit 3 and 4: the answer and what it sets. -/
  | pgAllocAns
  /-- BusStart() (R68). -/
  | busStart
  /-- BusSwitch() (R69). -/
  | busSwitch
  /-- PSM <- p (INIT 6). -/
  | psmPut (p : Psm)
  /-- done(status, data): PSM takes its after value, the response is emitted, SEQ is idle. -/
  | done (o : Opcode) (r : Response)
deriving DecidableEq, Repr

/-- How an action ends: it is done and the next one follows; it is done and the rest of its line is skipped (the
`return` of a sub-sequence); or SEQ stays where it is (a spin whose condition is false, the end of the command, the
end of the budget). -/
inductive Flow
  | go (s : State)
  | skip (s : State)
  | stop (s : State)
deriving DecidableEq, Repr

/-- `n` ticks of waiting, cut to what the budget still allows. -/
def waitTicks (n : Nat) (s : State) : State :=
  match s.budget with
  | none => elapse n s
  | some b => { elapse (min n b) s with budget := some (b - min n b) }

/-- Whether the budget allows another action. -/
def hasBudget (s : State) : Bool :=
  match s.budget with
  | none => true
  | some b => b != 0

/-- One unit of the budget is used. -/
def spend (s : State) : State :=
  match s.budget with
  | none => s
  | some b => { s with budget := some (b - 1) }

/-- T_STEP passes (00_scope.md R14, log 3). -/
def passStep (s : State) : State :=
  elapse s.env.tStep.head { s with env := { s.env with tStep := s.env.tStep.pop } }

/-- The ticks of the turn in which SEQ accepts a word pass (log 26): PGE plays on meanwhile, so that in an unbroken stream
of words, whatever they are, the notify step is taken at last (R129). -/
def passAccept (s : State) : State :=
  elapse s.env.acceptTicks { s with env := { s.env with tAccept := s.env.tAccept.pop } }

/-- An unsuccessful turn of a spin: one tick and the micro-step's T_STEP pass (log 8). -/
def spinTurn (s : State) : State :=
  spend (elapse (1 + s.env.tStep.head) { s with env := { s.env with tStep := s.env.tStep.pop } })

/-- Emit 2 and 6: spin until PG_DONE = 1, no timeout (R122). PGE plays on meanwhile; if the notification is withheld
SEQ stays here. -/
def awaitDone (s : State) : Flow :=
  if s.pge.pgDone then .go s
  else
    let t := waitTicks (max 1 (ticksToDone s)) s
    if t.pge.pgDone then .go t else .stop t

/-- WaitIdle (R160): both conditions are sampled in the same turn; the first argument lists the coming samples of
`bus_busy`, after which the level holds. -/
def waitIdleTurns : List Bool → State → Flow
  | [], s =>
    if s.env.busBusy.rest then .stop (waitTicks 1 s) else awaitDone s
  | busy :: later, s =>
    if hasBudget s then
      let t := { s with env := { s.env with busBusy := s.env.busBusy.pop } }
      if !busy && s.pge.pgDone then .go t else waitIdleTurns later (spinTurn t)
    else .stop s

/-- The wait for an external answer (R67, R71): `none` is a turn without an answer. `pop` moves the input on, `got` is
what the answer does. -/
def answerTurns (pop : State → State) (got : Bool → State → State) (rest : Option Bool) :
    List (Option Bool) → State → Flow
  | [], s =>
    match rest with
    | some ok => .go (got ok s)
    | none => .stop (waitTicks 1 s)
  | ans :: later, s =>
    if hasBudget s then
      match ans with
      | some ok => .go (got ok (pop s))
      | none => answerTurns pop got rest later (spinTurn (pop s))
    else .stop s

/-- INIT 4: BUS_FAIL is set when the engine answers not ok (R170). -/
def busInitDone (ok : Bool) (s : State) : State :=
  if ok then s else { s with seq := { s.seq with busFail := true } }

/-- PgInit 4 (R120). -/
def pgAllocDone (ok : Bool) (s : State) : State :=
  if ok then
    emitEvent (.dir .ckv)
      { s with seq := { setDir .ckv s.seq with pgSt := .ready }, pge := { s.pge with ckv := false } }
  else { s with seq := { s.seq with pgSt := .failed } }

/-- `status` and `data` of a response (R100, R121, R125, R170, R179). INIT's two bits and PGINIT's bit are read from
BUS_FAIL and PG_ST, where the micro-steps before have recorded them (log 9). -/
def responseOf (r : Response) (s : State) : BitVec 2 × BitVec 32 :=
  match r with
  | .plain => (0, 0)
  | .pgInit => if s.seq.pgSt = .failed then (1, 2) else (0, 0)
  | .init =>
    (if s.seq.pgSt = .failed ∨ s.seq.busFail = true then 1 else 0,
     (if s.seq.pgSt = .failed then 2 else 0) ||| (if s.seq.busFail then 1 else 0))
  | .busy => (0, if s.pge.pgDone then 0 else 1)
  | .curBuf => (0, pointer s.params.ptrW s.env.busCurbuf.head)

/-- The response of a command (R61, R100); CURBUF's sample is used up by it. -/
def respond (r : Response) (s : State) : State :=
  let t := emitEvent (.rsp (responseOf r s).1 (responseOf r s).2) s
  match r with
  | .curBuf => { t with env := { t.env with busCurbuf := t.env.busCurbuf.pop } }
  | .plain => t
  | .pgInit => t
  | .init => t
  | .busy => t

/-- `done(status, data)` (R10, R25): response, PSM's after value (R161), SEQ idle; like every micro-step that is neither
a delay nor a spin it takes T_STEP (00_scope.md R8, R14). DESIGN CHOICE (log 11): SEQ_STEP and the sub-index are 0 while
SEQ is idle, where R25 says of `done` only that SEQ_OP is 0x00. -/
def finish (o : Opcode) (r : Response) (s : State) : State :=
  let t := respond r s
  passStep { t with seq := { t.seq with psm := psmAfter o t.seq.psm, seqOp := 0, seqStep := 0, seqSub := 0 } }

/-- The word a `Push` shifts out. -/
def pushWord (src : WordSource) (r : SeqRegs) : Byte :=
  match src with
  | .cfg => r.cfg
  | .operand => r.a.extractLsb' 0 8

/-- One action. DESIGN CHOICE (log 28): `start` is `PgStart()` with PGE's start step, PULSE and CKV(1) side by side in the
trace, where R78 lets later SEQ events of that tick come before CKV(1). -/
def doAction (x : Action) (s : State) : Flow :=
  match x with
  | .pick => .go s
  | .latchVariant =>
    .go { s with
      seq := { s.seq with variantL := s.env.variant.head }
      env := { s.env with variant := s.env.variant.pop } }
  | .cfgPut w => .go { s with seq := { s.seq with cfg := w } }
  | .cfgSet m => .go { s with seq := { s.seq with cfg := flagSet m s.seq.cfg } }
  | .cfgClear m => .go { s with seq := { s.seq with cfg := flagClear m s.seq.cfg } }
  | .dirOut p => .go (emitEvent (.dir p) { s with seq := setDir p s.seq })
  | .pinOut p v => .go (writePin p v s)
  | .dataBit src i => .go (writePin .cfgData ((pushWord src s.seq).getLsbD i) s)
  | .delayLoad n => .go (emitEvent (.delay n) { s with dlyCnt := n })
  | .delayWait =>
    let t := waitTicks s.dlyCnt.toNat s
    if t.dlyCnt = 0 then .go t else .stop t
  | .waitIdle => waitIdleTurns s.env.busBusy.next s
  | .emitGuard =>
    match s.seq.pgSt with
    | .ready => .go s
    | .failed => .skip s
    | .uninit => .skip (flagMisuse s)
  | .awaitDone => awaitDone s
  | .program h l =>
    .go { s with seq := { s.seq with pgD0 := symbolD0 h l, pgD1 := symbolD1 h l, pgP1p := symbolP1p h } }
  | .clearDone => .go { s with pge := { s.pge with pgDone := false } }
  | .start => .go (startPulse (emitEvent (.pulse s.seq.pgD0 s.seq.pgD1 s.seq.pgP1p) s))
  | .busInitReq w => .go (emitEvent (.busInit w) s)
  | .busInitAns =>
    answerTurns (fun t => { t with env := { t.env with busInitOk := t.env.busInitOk.pop } }) busInitDone
      s.env.busInitOk.rest s.env.busInitOk.next s
  | .pgInitGuard =>
    match s.seq.pgSt with
    | .uninit => .go s
    | .ready => .skip (flagMisuse s)
    | .failed => .skip (flagMisuse s)
  | .pgSetPin pin => .go { s with seq := { s.seq with pgPin := pin } }
  | .pgAllocReq pin => .go (emitEvent (.pgAlloc pin) s)
  | .pgAllocAns =>
    answerTurns (fun t => { t with env := { t.env with pgAllocOk := t.env.pgAllocOk.pop } }) pgAllocDone
      s.env.pgAllocOk.rest s.env.pgAllocOk.next s
  | .busStart => .go (emitEvent .busStart s)
  | .busSwitch => .go (emitEvent .busSwitch s)
  | .psmPut p => .go { s with seq := { s.seq with psm := p } }
  | .done o r => .stop (finish o r s)

/-! ### The sequencer -/

/-- A micro-step: its actions in order. -/
abbrev Line := List Action

/-- A command's micro-steps in order (R12). -/
abbrev Program := List Line

/-- After an action: the sub-index moves on and the action's T_STEP passes (R14). DESIGN CHOICE (log 25): PGE's steps of a
tick come before what SEQ does at that tick, so a sample of PG_DONE at the tick of a notify step sees 1, where
60_exceptions.md R208 (a) lets it see either value. -/
def afterAction (s : State) : State :=
  spend (passStep { s with seq := { s.seq with seqSub := s.seq.seqSub + 1 } })

/-- The actions of one micro-step, strictly in order (R12). -/
def runLine : Line → State → Flow
  | [], s => .go s
  | x :: xs, s =>
    if hasBudget s then
      match doAction x s with
      | .go t => runLine xs (afterAction t)
      | .skip t => .go (afterAction t)
      | .stop t => .stop t
    else .stop s

/-- A completed micro-step adds 1 to SEQ_STEP (R25). -/
def nextStep (s : State) : State :=
  { s with seq := { s.seq with seqStep := s.seq.seqStep + 1, seqSub := 0 } }

/-- The micro-steps of a command from the one SEQ stands at. -/
def runProgram : Program → State → State
  | [], s => s
  | line :: lines, s =>
    match runLine line s with
    | .go t => runProgram lines (nextStep t)
    | .skip t => t
    | .stop t => t

/-- A step of the model begins: the budget is the grain, at least one. -/
def openStep (s : State) : State := { s with budget := s.grain.map (max 1) }

/-- A step of the model ends. -/
def closeStep (s : State) : State := { s with budget := none }

/-- Acceptance of a command (R26, R161, R162): operand latch, MISUSE, PSM's during value, SEQ at micro-step 1. -/
def accept (i : Instr) (s : State) : State :=
  let t := checkLegal i.opcode s
  { t with
    seq := { t.seq with
      psm := psmDuring i.opcode t.seq.psm
      seqOp := i.opcode.code, seqStep := 1, seqSub := 0
      a := i.fieldA, b := i.fieldB, w := i.fieldW } }

/-- A command: accepted, then its micro-steps as far as they run. DESIGN CHOICE (log 29): acceptance and the first action
of micro-step 1 are one, at every grain, so no `rst` falls between them, which R231 does not rule out. -/
def startCommand (i : Instr) (p : Program) (s : State) : Host.Outcome State Fault Refusal :=
  .next (closeStep (runProgram p (accept i (openStep s))))

/-- R162 (a), a second INIT: MISUSE, no micro-step, and the recorded outcome as the response. The latch is loaded as at
every acceptance (R26); PSM is not touched (log 20). Acceptance and response are one (DESIGN CHOICE, log 29). -/
def ignoreSecondInit (i : Instr) (s : State) : State :=
  let t := respond .init (flagMisuse s)
  { t with seq := { t.seq with a := i.fieldA, b := i.fieldB, w := i.fieldW } }

/-- An illegal word (R101, R204): ILLEGAL, RSP(2, 0), nothing else, in one (DESIGN CHOICE, log 29). -/
def illegalWord (s : State) : State := emitEvent (.rsp 2 0) (flagIllegal s)

/-- What an asserted `rst` does (R230, R231): every register takes its reset value, whatever SEQ and PGE were doing; no
response, no NOTIFY. CKV falling is an event of the timing pin (log 10). The notification of a pulse that is cut never
comes, so its T_NOTIFY is used up (log 4). One tick passes. -/
def applyReset (s : State) : State :=
  let t := if s.pge.ckv then emitEvent (.ckv false) s else s
  { t with
    seq := SeqRegs.reset, pge := PgeRegs.reset, dlyCnt := 0, now := t.now + 1
    env := if t.pge.pgPh = .idle then t.env else { t.env with tNotify := t.env.tNotify.pop } }

/-! ### The sub-sequences as lines -/

/-- Push(w), R150: strobe low, eight times clock low, bit, clock high, strobe high: 26 pin writes. -/
def pushLine (src : WordSource) : Line :=
  .pinOut .cfgStr false ::
    ([7, 6, 5, 4, 3, 2, 1, 0].flatMap fun i =>
      [.pinOut .cfgClk false, .dataBit src i, .pinOut .cfgClk true]) ++
    [.pinOut .cfgStr true]

/-- Emit(h, l, w), R122. -/
def emitLine (h l : Half) (w : Bool) : Line :=
  [.emitGuard, .awaitDone, .program h l, .clearDone, .start] ++ (if w then [.awaitDone] else [])

/-- PgInit(pin), R120. -/
def pgInitLine (pin : Byte) : Line :=
  [.pgInitGuard, .pgSetPin pin, .pgAllocReq pin, .pgAllocAns]

/-- Delay(n), R166. -/
def delayLine (n : Half) : Line := [.delayLoad n, .delayWait]

/-- BusInit(w), R67. -/
def busInitLine (w : BitVec 17) : Line := [.busInitReq w, .busInitAns]

end Sys2Proof.Machine
end

