-- ==== Sys2Proof/Machine/PanelProtocol.lean ====
section
/-! DEFINITION. The commands of the panel protocol state machine (42_panel_protocol.md): INIT, PON, POFF, POFFA, SFRM,
SKIP, OROW, EFRM, SWBUF, CURBUF. Each line of a program is the micro-step of the same number in the spec. -/

namespace Sys2Proof.Machine

/-- INIT's micro-steps (R170). -/
def initProgram (ckvPin : Byte) (rowWidth : Half) : Program :=
  [ [.latchVariant, .cfgPut cfgInit],
    [.dirOut .cfgData, .dirOut .cfgClk, .dirOut .cfgStr, .dirOut .spl],
    pushLine .cfg,
    busInitLine (paddedWidth rowWidth),
    pgInitLine ckvPin,
    [.psmPut .powerOff],
    [.done .init .init] ]

/-- INIT row_width (R170); a second one is ignored (R162 a). -/
def execInit (rowWidth : Half) (s : State) : Host.Outcome State Fault Refusal :=
  if s.seq.psm = .uninit then
    startCommand (.init rowWidth) (initProgram s.params.ckvPin rowWidth) s
  else
    .next (closeStep (ignoreSecondInit (.init rowWidth) s))

/-- PON's micro-steps (R171). -/
def ponProgram : Program :=
  [ [.cfgSet maskDir],
    [.cfgClear maskPwrdis],
    pushLine .cfg,
    delayLine dlyPon1,
    [.cfgSet maskNeg],
    pushLine .cfg,
    delayLine dlyPon2,
    [.cfgSet maskPos],
    pushLine .cfg,
    delayLine dlyPon3,
    [.cfgSet maskSof],
    pushLine .cfg,
    [.pinOut .spl true],
    [.done .pon .plain] ]

/-- PON (R171). -/
def execPon (s : State) : Host.Outcome State Fault Refusal :=
  startCommand .pon ponProgram s

/-- POFF's micro-steps (R172). -/
def poffProgram : Program :=
  [ [.cfgClear maskPos],
    pushLine .cfg,
    delayLine dlyPoff1,
    [.cfgClear maskNeg],
    pushLine .cfg,
    delayLine dlyPoff2,
    [.cfgSet maskPwrdis],
    pushLine .cfg,
    [.cfgClear maskSof],
    pushLine .cfg,
    [.done .poff .plain] ]

/-- POFF (R172). -/
def execPoff (s : State) : Host.Outcome State Fault Refusal :=
  startCommand .poff poffProgram s

/-- POFFA's micro-steps (R173). -/
def poffaProgram : Program :=
  [ [.cfgPut 0],
    pushLine .cfg,
    [.done .poffa .plain] ]

/-- POFFA (R173). -/
def execPoffa (s : State) : Host.Outcome State Fault Refusal :=
  startCommand .poffa poffaProgram s

/-- SFRM's micro-steps (R174). -/
def sfrmProgram (p : Config.Params) : Program :=
  [ [.waitIdle],
    [.cfgSet maskMode],
    pushLine .cfg,
    emitLine p.sfA.high p.sfA.low true,
    [.cfgClear maskSof],
    pushLine .cfg,
    delayLine dlySf,
    emitLine p.sfB.high p.sfB.low false,
    [.cfgSet maskSof],
    pushLine .cfg,
    emitLine p.sfC.high p.sfC.low true,
    [.cfgSet maskOe],
    pushLine .cfg,
    emitLine p.sfD.high p.sfD.low true,
    [.done .sfrm .plain] ]

/-- SFRM (R174). -/
def execSfrm (s : State) : Host.Outcome State Fault Refusal :=
  startCommand .sfrm (sfrmProgram s.params) s

/-- SKIP's micro-steps (R175). -/
def skipProgram (pr : Config.Pair) : Program :=
  [ [.pick],
    emitLine pr.high pr.low false,
    [.done .skip .plain] ]

/-- SKIP (R175): the profile of the latched variant, never waited for. -/
def execSkip (s : State) : Host.Outcome State Fault Refusal :=
  startCommand .skip (skipProgram (skipPair s.params s.seq.variantL)) s

/-- OROW's micro-steps (R176). -/
def orowProgram (orWait : Bool) (outputTime : Half) : Program :=
  [ [.waitIdle],
    [.cfgSet maskLe],
    pushLine .cfg,
    [.cfgClear maskLe],
    pushLine .cfg,
    emitLine outputTime orLow orWait,
    [.busStart],
    [.busSwitch],
    [.done .orow .plain] ]

/-- OROW output_time (R176). -/
def execOrow (outputTime : Half) (s : State) : Host.Outcome State Fault Refusal :=
  startCommand (.orow outputTime) (orowProgram s.params.orWait outputTime) s

/-- EFRM's micro-steps (R177). -/
def efrmProgram (p : Config.Params) : Program :=
  [ [.cfgClear maskOe],
    pushLine .cfg,
    [.cfgClear maskMode],
    pushLine .cfg,
    emitLine p.efP.high p.efP.low true,
    emitLine p.efP.high p.efP.low true,
    [.done .efrm .plain] ]

/-- EFRM (R177). -/
def execEfrm (s : State) : Host.Outcome State Fault Refusal :=
  startCommand .efrm (efrmProgram s.params) s

/-- SWBUF's micro-steps (R178). -/
def swbufProgram : Program :=
  [ [.busSwitch],
    [.done .swbuf .plain] ]

/-- SWBUF (R178). -/
def execSwbuf (s : State) : Host.Outcome State Fault Refusal :=
  startCommand .swbuf swbufProgram s

/-- CURBUF's micro-steps (R179). -/
def curbufProgram : Program :=
  [ [.pick],
    [.done .curbuf .curBuf] ]

/-- CURBUF (R179). -/
def execCurbuf (s : State) : Host.Outcome State Fault Refusal :=
  startCommand .curbuf curbufProgram s

end Sys2Proof.Machine
end

