-- ==== Sys2Proof/Machine/PulseGenerator.lean ====
section
/-! DEFINITION. The commands of the pulse generator (40_pulse_generator.md): PGINIT, EMIT, EMITUS, PGBUSY. -/

namespace Sys2Proof.Machine

/-- PGINIT's micro-steps (R121). -/
def pginitProgram (pin : Byte) : Program :=
  [ pgInitLine pin,
    [.done .pginit .pgInit] ]

/-- PGINIT pin (R121). -/
def execPginit (pin : Byte) (s : State) : Host.Outcome State Fault Refusal :=
  startCommand (.pginit pin) (pginitProgram pin) s

/-- EMIT's micro-steps (R123). -/
def emitProgram (high low : Half) (wait : Bool) : Program :=
  [ emitLine high low wait,
    [.done .emit .plain] ]

/-- EMIT high, low, wait (R123). -/
def execEmit (high low : Half) (wait : Bool) (s : State) : Host.Outcome State Fault Refusal :=
  startCommand (.emit high low wait) (emitProgram high low wait) s

/-- EMITUS's micro-steps (R124): "multiplies by 10 before delegating to the tick-based entry point". -/
def emitusProgram (highUs lowUs : Half) (wait : Bool) : Program :=
  [ emitLine (usToTicks highUs) (usToTicks lowUs) wait,
    [.done .emitus .plain] ]

/-- EMITUS high_us, low_us, wait (R124). -/
def execEmitus (highUs lowUs : Half) (wait : Bool) (s : State) : Host.Outcome State Fault Refusal :=
  startCommand (.emitus highUs lowUs wait) (emitusProgram highUs lowUs wait) s

/-- PGBUSY's one micro-step (R125). -/
def pgbusyProgram : Program :=
  [ [.done .pgbusy .busy] ]

/-- PGBUSY (R125). -/
def execPgbusy (s : State) : Host.Outcome State Fault Refusal :=
  startCommand .pgbusy pgbusyProgram s

end Sys2Proof.Machine
end

