-- ==== Sys2Proof/Machine/ShiftRegister.lean ====
section
/-! DEFINITION. The command of the shift-register driver (41_shift_register.md): PUSH. -/

namespace Sys2Proof.Machine

/-- PUSH's micro-steps (R151): the operand, not CFG, is shifted out, and CFG is not written. -/
def pushProgram : Program :=
  [ pushLine .operand,
    [.done .push .plain] ]

/-- PUSH word (R151). -/
def execPush (word : Byte) (s : State) : Host.Outcome State Fault Refusal :=
  startCommand (.push word) pushProgram s

end Sys2Proof.Machine
end

