-- ==== Sys2Proof/Machine/Dispatch.lean ====
section
/-! DEFINITION. One arm per command, each a direct call of its meaning. -/

namespace Sys2Proof.Machine

def exec (i : Instr) (s : State) : Host.Outcome State Fault Refusal :=
  match i with
  | .pginit pin => Sys2Proof.Machine.execPginit pin s
  | .emit high low wait => Sys2Proof.Machine.execEmit high low wait s
  | .emitus highUs lowUs wait => Sys2Proof.Machine.execEmitus highUs lowUs wait s
  | .pgbusy => Sys2Proof.Machine.execPgbusy s
  | .push word => Sys2Proof.Machine.execPush word s
  | .init rowWidth => Sys2Proof.Machine.execInit rowWidth s
  | .pon => Sys2Proof.Machine.execPon s
  | .poff => Sys2Proof.Machine.execPoff s
  | .poffa => Sys2Proof.Machine.execPoffa s
  | .sfrm => Sys2Proof.Machine.execSfrm s
  | .skip => Sys2Proof.Machine.execSkip s
  | .orow outputTime => Sys2Proof.Machine.execOrow outputTime s
  | .efrm => Sys2Proof.Machine.execEfrm s
  | .swbuf => Sys2Proof.Machine.execSwbuf s
  | .curbuf => Sys2Proof.Machine.execCurbuf s

end Sys2Proof.Machine
end

