-- ==== Sys2Proof/Machine/Resume.lean ====
section
/-! DEFINITION. Accepting the word HOST presents, and going on with a command that a step left at a spin, in a delay or at
the end of its budget: SEQ_OP and the operand latch say which command (10_state.md R25, R26), SEQ_STEP and the sub-index
where in it. The same programs as in the commands' meanings. -/

namespace Sys2Proof.Machine

/-- The micro-steps of the command in execution. -/
def programOf (i : Instr) (s : State) : Program :=
  match i with
  | .pginit pin => pginitProgram pin
  | .emit high low wait => emitProgram high low wait
  | .emitus highUs lowUs wait => emitusProgram highUs lowUs wait
  | .pgbusy => pgbusyProgram
  | .push _ => pushProgram
  | .init rowWidth => initProgram s.params.ckvPin rowWidth
  | .pon => ponProgram
  | .poff => poffProgram
  | .poffa => poffaProgram
  | .sfrm => sfrmProgram s.params
  | .skip => skipProgram (skipPair s.params s.seq.variantL)
  | .orow outputTime => orowProgram s.params.orWait outputTime
  | .efrm => efrmProgram s.params
  | .swbuf => swbufProgram
  | .curbuf => curbufProgram

/-- What is left of the command in execution: the rest of the micro-step SEQ stands at, then the later micro-steps; no
lines where the position (SEQ_STEP, sub-index) names no action of the command (log 14). -/
def remaining (s : State) : Program :=
  match latchedInstr s.params.maxTicks s.seq, s.seq.seqStep with
  | none, _ => []
  | some _, 0 => []
  | some i, k + 1 =>
    match (programOf i s).drop k with
    | [] => []
    | line :: lines =>
      match line.drop s.seq.seqSub with
      | [] => []
      | x :: xs => (x :: xs) :: lines

/-- Going on with the command in execution; a position that names no micro-step is a fault (log 14). -/
def resume (s : State) : Host.Outcome State Fault Refusal :=
  match remaining s with
  | [] => .fault .noSequencerPosition
  | line :: lines => .next (closeStep (runProgram (line :: lines) (openStep s)))

/-- A sample of `rst`, and HOST's turn, as the step uses them up. -/
def State.takeRst (s : State) : State := { s with env := { s.env with rst := s.env.rst.pop } }

def State.dropCmd (s : State) : State := { s with env := s.env.nextTurn }

/-- The word at the command port: decoded and run, or answered as illegal (30_encoding.md R101, R104). The ticks
of the accepting turn have passed before (log 26). -/
def acceptWord (c : CmdWord) (s : State) : Host.Outcome State Fault Refusal :=
  match decode s.params.maxTicks c with
  | .ok i => exec i s
  | .error _ => .next (illegalWord s)

end Sys2Proof.Machine
end

