-- ==== Sys2Proof/Machine/Step.lean ====
section
/-! DEFINITION. One step of the machine (00_scope.md R7, R17): reset dominates (R230); an idle SEQ accepts the word HOST
presents (20_memory.md R60), else lets a tick pass; a busy SEQ goes on with its command while a presented word waits. -/

namespace Sys2Proof.Machine

/-- One step. DESIGN CHOICE (log 26): the ticks of the turn in which a word is accepted, an input, pass before the word has
its effect. DESIGN CHOICE (log 27): `rst` is sampled once, at the start of the step, and one sample of 1 is a
full reset; R230 leaves to the platform whether `rst` is synchronous, and its minimum width. -/
def step (s : State) : Host.Outcome State Fault Refusal :=
  if s.env.rst.head then .next (applyReset s.takeRst)
  else if s.seq.seqOp = 0 then
    match s.env.turn with
    | none => .next (elapse 1 s.takeRst.dropCmd)
    | some c => acceptWord c (passAccept s.takeRst.dropCmd)
  else resume s.takeRst

/-- The word `w` of `nbits` bits presented at the command port, next in line, with `rst` low at the next step and SEQ
idle, which is what accepting it takes (R60, log 1). -/
def State.withFetchWord (s : State) (nbits w : Nat) : State :=
  { s with
    seq := { s.seq with seqOp := 0, seqStep := 0, seqSub := 0 }
    env := { s.env with
      rst := { s.env.rst with next := false :: s.env.rst.next }
      cmds := some (BitVec.ofNat 48 (w % 2 ^ nbits)) :: s.env.cmds } }

end Sys2Proof.Machine
end

