-- ==== Sys2Proof/Machine/Ports.lean ====
section
/-! DEFINITION. What the outside sees: the status output ports (10_state.md R42), the command port's ready output
(20_memory.md R60), the pads (10_state.md R33) and the projections of the trace (00_scope.md R13, 20_memory.md R77, R78). -/

namespace Sys2Proof.Machine

/-- The code of PSM (R24). -/
def Psm.code : Psm → BitVec 3
  | .uninit => 0
  | .powerOff => 1
  | .poweringOn => 2
  | .poweredOn => 3
  | .frameActive => 4
  | .poweringOff => 5

/-- The code of PG_ST (R28). -/
def PgSt.code : PgSt → BitVec 2
  | .uninit => 0
  | .ready => 1
  | .failed => 2

/-- The code of PG_PH (R36). -/
def PgPh.code : PgPh → BitVec 2
  | .idle => 0
  | .ph0 => 1
  | .ph1 => 2
  | .notify => 3

/-- The status output ports of R42. -/
structure StatusPorts where
  stCfg     : Byte
  stPsm     : BitVec 3
  stPg      : BitVec 2
  stPgDone  : Bool
  stMisuse  : Bool
  stIllegal : Bool
  stBusFail : Bool
  stBusy    : Bool
deriving DecidableEq, Repr

/-- The status ports show the named state continuously (R42). -/
def State.ports (s : State) : StatusPorts where
  stCfg := s.seq.cfg
  stPsm := s.seq.psm.code
  stPg := s.seq.pgSt.code
  stPgDone := s.pge.pgDone
  stMisuse := s.seq.misuse
  stIllegal := s.seq.illegal
  stBusFail := s.seq.busFail
  stBusy := s.seq.seqOp != 0

/-- `cmd_ready` (R60): SEQ is idle; 0 while `rst` is 1 (R230). -/
def State.cmdReady (s : State) : Bool := s.seq.seqOp == 0 && !s.env.rst.head

/-- What a pad drives: its latch when the direction bit is 1, else nothing (R33). -/
def State.pad (s : State) : Pin → Option Bool
  | .cfgData => if s.seq.dirCfgData then some s.seq.cfgData else none
  | .cfgClk => if s.seq.dirCfgClk then some s.seq.cfgClk else none
  | .cfgStr => if s.seq.dirCfgStr then some s.seq.cfgStr else none
  | .spl => if s.seq.dirSpl then some s.seq.spl else none
  | .ckv => if s.seq.dirCkv then some s.pge.ckv else none

/-- Whether an event is PGE's (`CKV`, `NOTIFY`); every other event is SEQ's (R77, R78). -/
def Event.byPge : Event → Bool
  | .ckv _ => true
  | .notify => true
  | .pin _ _ => false
  | .dir _ => false
  | .delay _ => false
  | .pulse _ _ _ => false
  | .busInit _ => false
  | .busStart => false
  | .busSwitch => false
  | .pgAlloc _ => false
  | .rsp _ _ => false

/-- The observable trace without its time stamps (R13). -/
def State.events (s : State) : List Event := s.trace.map (·.ev)

/-- SEQ's events, in program order (R77). -/
def State.seqEvents (s : State) : List Event := s.events.filter (fun e => !e.byPge)

/-- PGE's events, in their own order (R78). -/
def State.pgeEvents (s : State) : List Event := s.events.filter (fun e => e.byPge)

/-- A run is quiescent (00_scope.md R17): SEQ idle, nothing presented, no pulse in flight. -/
def State.quiescent (s : State) : Bool :=
  s.seq.seqOp == 0 && s.env.turn == none && s.pge.pgPh == .idle

end Sys2Proof.Machine
end

