-- ==== Sys2Proof/Machine/Receiver.lean ====
section
/-! DEFINITION. Observers of the trace outside the block: the reference receiver of 41_shift_register.md R155 and the
words that appear on the three wires (R152, 95_test_vectors.md V2). They are no state of the machine (10_state.md R39 c). -/

namespace Sys2Proof.Machine

/-- R155: the receiver's shift register and latch, and the levels of the three wires it last saw. -/
structure Receiver where
  sr    : Byte
  latch : Byte
  data  : Bool
  clk   : Bool
  str   : Bool
deriving DecidableEq, Repr

/-- R155: on a rising CFG_CLK, `P_SR <- (P_SR[6:0], CFG_DATA)`; on a rising CFG_STR, `P_LATCH <- P_SR`. -/
def Receiver.see (r : Receiver) : Event → Receiver
  | .pin .cfgData v => { r with data := v }
  | .pin .cfgClk v =>
    if v && !r.clk then { r with sr := r.sr.extractLsb' 0 7 ++ BitVec.ofBool r.data, clk := v } else { r with clk := v }
  | .pin .cfgStr v => if v && !r.str then { r with latch := r.sr, str := v } else { r with str := v }
  | .pin .spl _ => r
  | .pin .ckv _ => r
  | .dir _ => r
  | .delay _ => r
  | .pulse _ _ _ => r
  | .ckv _ => r
  | .notify => r
  | .busInit _ => r
  | .busStart => r
  | .busSwitch => r
  | .pgAlloc _ => r
  | .rsp _ _ => r

/-- The receiver after a list of events. -/
def Receiver.after (r : Receiver) (es : List Event) : Receiver := es.foldl Receiver.see r

/-- The bits written to CFG_DATA since the last falling strobe, and the completed words so far. -/
structure WireLog where
  bits  : List Bool
  words : List (List Bool)
deriving DecidableEq, Repr

/-- V2: the CFG_DATA values between a `PIN(CFG_STR, 0)` and the next `PIN(CFG_STR, 1)`. -/
def WireLog.see (l : WireLog) : Event → WireLog
  | .pin .cfgStr false => { l with bits := [] }
  | .pin .cfgStr true => { bits := [], words := l.words ++ [l.bits] }
  | .pin .cfgData v => { l with bits := l.bits ++ [v] }
  | .pin .cfgClk _ => l
  | .pin .spl _ => l
  | .pin .ckv _ => l
  | .dir _ => l
  | .delay _ => l
  | .pulse _ _ _ => l
  | .ckv _ => l
  | .notify => l
  | .busInit _ => l
  | .busStart => l
  | .busSwitch => l
  | .pgAlloc _ => l
  | .rsp _ _ => l

/-- The bit sequences pushed in a list of events, in order (V2). -/
def pushedBits (es : List Event) : List (List Bool) := (es.foldl WireLog.see ⟨[], []⟩).words

end Sys2Proof.Machine
end

