-- ==== Sys2Proof/Safety.lean ====
section
/-! DEFINITION. The terms claims are stated in: fair environments (70_reset_and_hazards.md R250), whole-command steps,
runs that keep the contract (00_scope.md R17), rail safety (42_panel_protocol.md R180), and the expected event lists of
the spec's worked examples, written from its tables and not from the model's programs. -/

namespace Sys2Proof.Machine

/-- A step covers a whole command (log 2). -/
def State.whole (s : State) : Bool := s.grain == none

/-- A pulse is in flight exactly while PG_DONE = 0, and CKV is high exactly in phase 0 (10_state.md R33, R34, R36). -/
def PgeRegs.consistent (p : PgeRegs) : Bool :=
  (p.pgDone == (p.pgPh == .idle)) && (p.ckv == (p.pgPh == .ph0))

/-- Every completion notification comes (R129, R250). -/
def Env.notifies (e : Env) : Bool := e.tNotify.rest.isSome && e.tNotify.next.all (·.isSome)

/-- The bus engine eventually reports idle for good (R250). -/
def Env.busSettles (e : Env) : Bool := !e.busBusy.rest

/-- The two initialisation calls eventually answer (R250). -/
def Env.answers (e : Env) : Bool := e.busInitOk.rest.isSome && e.pgAllocOk.rest.isSome

/-- The fairness assumptions of R250 together. -/
def Env.fair (e : Env) : Bool := e.notifies && e.busSettles && e.answers

/-- The caller has kept the contract (R17, R202). -/
def State.contractKept (s : State) : Bool := !s.seq.misuse && !s.seq.illegal

/-- R180: POS = 1 implies NEG = 1, and either rail on implies PWRDIS = 0. -/
def railSafe (w : Byte) : Bool :=
  (!w.getLsbD 2 || w.getLsbD 3) && (!(w.getLsbD 2 || w.getLsbD 3) || !w.getLsbD 1)

/-- The bits of a word in wire order: OE, MODE, DIR, SOF, NEG, POS, PWRDIS, LE (30_encoding.md R98). -/
def wireBits (w : Byte) : List Bool :=
  [w.getLsbD 7, w.getLsbD 6, w.getLsbD 5, w.getLsbD 4, w.getLsbD 3, w.getLsbD 2, w.getLsbD 1, w.getLsbD 0]

/-- The 26 pin events of `Push(w)`: strobe low, eight clock cycles, strobe high (41_shift_register.md R150, vector V3). -/
def pushEvents (w : Byte) : List Event :=
  [.pin .cfgStr false] ++
  [.pin .cfgClk false, .pin .cfgData (w.getLsbD 7), .pin .cfgClk true] ++
  [.pin .cfgClk false, .pin .cfgData (w.getLsbD 6), .pin .cfgClk true] ++
  [.pin .cfgClk false, .pin .cfgData (w.getLsbD 5), .pin .cfgClk true] ++
  [.pin .cfgClk false, .pin .cfgData (w.getLsbD 4), .pin .cfgClk true] ++
  [.pin .cfgClk false, .pin .cfgData (w.getLsbD 3), .pin .cfgClk true] ++
  [.pin .cfgClk false, .pin .cfgData (w.getLsbD 2), .pin .cfgClk true] ++
  [.pin .cfgClk false, .pin .cfgData (w.getLsbD 1), .pin .cfgClk true] ++
  [.pin .cfgClk false, .pin .cfgData (w.getLsbD 0), .pin .cfgClk true] ++
  [.pin .cfgStr true]

/-- The pulse of (h, l) that `Emit` starts on a ready generator, and nothing on any other (40_pulse_generator.md R122,
30_encoding.md R96). -/
def pulseEvents (st : PgSt) (h l : Half) : List Event :=
  if st = .ready then [if h = 0 then .pulse l 0 false else .pulse h l true] else []

/-- What `Emit(h, l, _)` leaves in SEQ's registers: the symbol on a ready generator, MISUSE on one never initialised,
nothing on a failed one (R122). -/
def afterEmit (h l : Half) (r : SeqRegs) : SeqRegs :=
  match r.pgSt with
  | .ready => if h = 0 then { r with pgD0 := l, pgD1 := 0, pgP1p := false } else { r with pgD0 := h, pgD1 := l, pgP1p := true }
  | .failed => r
  | .uninit => { r with misuse := true }

/-- What `Push(w)` leaves on the latches (41_shift_register.md R156). -/
def afterPush (w : Byte) (r : SeqRegs) : SeqRegs := { r with cfgData := w.getLsbD 0, cfgClk := true, cfgStr := true }

/-- The legal set of each command, row by row of the table of 42_panel_protocol.md R161. -/
def legalStates : Opcode → List Psm
  | .init => [.uninit]
  | .pon => [.powerOff]
  | .poff => [.poweredOn, .frameActive]
  | .poffa => [.powerOff, .poweredOn, .frameActive]
  | .sfrm => [.poweredOn]
  | .skip => [.frameActive]
  | .orow => [.frameActive]
  | .efrm => [.frameActive]
  | .swbuf => [.powerOff, .poweredOn, .frameActive]
  | .curbuf => [.powerOff, .poweredOn, .frameActive]
  | .pginit => [.uninit, .powerOff, .poweringOn, .poweredOn, .frameActive, .poweringOff]
  | .emit => [.uninit, .powerOff, .poweringOn, .poweredOn, .frameActive, .poweringOff]
  | .emitus => [.uninit, .powerOff, .poweringOn, .poweredOn, .frameActive, .poweringOff]
  | .pgbusy => [.uninit, .powerOff, .poweringOn, .poweredOn, .frameActive, .poweringOff]
  | .push => [.uninit, .powerOff, .poweringOn, .poweredOn, .frameActive, .poweringOff]

/-- SEQ's registers while command `i` is in execution, before its micro-steps: the operand latch, MISUSE outside the
legal set, PSM's during value (10_state.md R26, 42_panel_protocol.md R161, R162). SEQ_OP and the position are given by
`idleAfter`. -/
def acceptedRegs (i : Instr) (r : SeqRegs) : SeqRegs :=
  { r with a := i.fieldA, b := i.fieldB, w := i.fieldW, misuse := r.misuse || !(legalStates i.opcode).contains r.psm }

/-- SEQ idle with PSM at `p` (10_state.md R25); that SEQ_STEP and the sub-index are 0 then is the model's choice (log
11). -/
def idleAfter (p : Psm) (r : SeqRegs) : SeqRegs := { r with psm := p, seqOp := 0, seqStep := 0, seqSub := 0 }

/-- What is still to come of the pulse in flight: its events after the ones already in the trace
(40_pulse_generator.md R126 to R129). -/
def PgPh.ahead : PgPh → List Event
  | .idle => []
  | .ph0 => [.ckv false, .notify]
  | .ph1 => [.notify]
  | .notify => [.notify]

/-- PGE's events so far, and those of the pulse in flight that are still to come. No step of PGE changes it. -/
def State.pgeTale (s : State) : List Event := s.pgeEvents ++ s.pge.pgPh.ahead

/-- The events of one whole pulse, in order (20_memory.md R78). -/
def pulseTale (st : PgSt) : List Event := if st = .ready then [.ckv true, .ckv false, .notify] else []

/-- The answer an answered call gets: the first turn with an answer (20_memory.md R67, R71). -/
def answerOf (rest : Option Bool) : List (Option Bool) → Option Bool
  | [] => rest
  | some ok :: _ => some ok
  | none :: later => answerOf rest later

/-- The inputs without the samples that have been used up: what no command changes. -/
def Env.held (e : Env) : Env :=
  { e with
    busBusy := ⟨[], e.busBusy.rest⟩, busInitOk := ⟨[], e.busInitOk.rest⟩, pgAllocOk := ⟨[], e.pgAllocOk.rest⟩
    busCurbuf := ⟨[], e.busCurbuf.rest⟩, variant := ⟨[], e.variant.rest⟩
    tStep := ⟨[], e.tStep.rest⟩, tNotify := ⟨[], e.tNotify.rest⟩ }

/-- What a completed command leaves as it was, whichever it is: the parameters, the grain, the inputs but for the
samples used up, a consistent engine, an expired DLY_CNT; and PGE's events grow by `pulses` only. With PGE idle and no
pulse started, PGE's registers do not change. -/
structure Completed (pulses : List Event) (s t : State) : Prop where
  params : t.params = s.params
  grain : t.grain = s.grain
  budget : t.budget = none
  held : t.env.held = s.env.held
  tale : s.pge.consistent = true → t.pgeTale = s.pgeTale ++ pulses
  consistent : s.pge.consistent = true → t.pge.consistent = true
  idle : s.pge.pgPh = .idle → pulses = [] → t.pge = s.pge
  dly : s.dlyCnt = 0 → t.dlyCnt = 0
  now : s.now ≤ t.now

/-- The action SEQ does next; none when it is idle (10_state.md R25). -/
def State.nextAction (s : State) : Option Action := (remaining s).flatten.head?

/-- What the single-in-flight contract comes to in every state, including those inside `Emit` and `PgInit`: CKV is high
exactly in phase 0; a pulse is in flight only on a ready generator; and PG_DONE = 1 exactly when PG_PH = PG_IDLE, but
for the moment between `Emit` micro-steps 4 and 5, when the flag is cleared and the pulse not yet started (10_state.md
R33, R34, R36; log 24). -/
def State.engineOk (s : State) : Bool :=
  (s.pge.ckv == (s.pge.pgPh == .ph0)) && (s.pge.pgDone || s.seq.pgSt == .ready) &&
  match s.nextAction with
  | some .start => s.pge.pgPh == .idle && !s.pge.pgDone
  | some (.program _ _) => s.pge.pgPh == .idle && s.pge.pgDone && s.seq.pgSt == .ready
  | some .clearDone => s.pge.pgPh == .idle && s.pge.pgDone && s.seq.pgSt == .ready
  | some .awaitDone => (s.pge.pgDone == (s.pge.pgPh == .idle)) && s.seq.pgSt == .ready
  | some (.pgSetPin _) => s.pge.pgPh == .idle && s.pge.pgDone && s.seq.pgSt == .uninit
  | some (.pgAllocReq _) => s.pge.pgPh == .idle && s.pge.pgDone && s.seq.pgSt == .uninit
  | some .pgAllocAns => s.pge.pgPh == .idle && s.pge.pgDone && s.seq.pgSt == .uninit
  | _ => s.pge.pgDone == (s.pge.pgPh == .idle)

/-- The value CFG takes by an action. -/
def Action.cfgAfter (x : Action) (c : Byte) : Byte :=
  match x with
  | .cfgPut w => w
  | .cfgSet m => flagSet m c
  | .cfgClear m => flagClear m c
  | _ => c

/-- Every value CFG takes in a list of actions is rail-safe. -/
def railsAhead : List Action → Byte → Bool
  | [], _ => true
  | x :: xs, c => railSafe (x.cfgAfter c) && railsAhead xs (x.cfgAfter c)

/-- R180 in every state: CFG is rail-safe now and at every micro-step still to come of the command in execution. -/
def State.railOk (s : State) : Bool := railSafe s.seq.cfg && railsAhead (remaining s).flatten s.seq.cfg

/-- BUS_FAIL is set by INIT only, so before a completed INIT it is clear unless INIT is in execution (R37, R170). -/
def State.sessionOk (s : State) : Bool := !s.seq.busFail || s.seq.psm != .uninit || s.seq.seqOp == Opcode.code .init

/-- The premises of a claim that a command completes: a step covers the whole command, the engine is as its invariant
says between commands, and the environment is fair (R250). -/
def State.fairRun (s : State) : Bool :=
  s.whole && s.pge.consistent && (s.pge.pgDone || s.seq.pgSt == .ready) && s.env.fair

/-- Whether an event is a response. -/
def Event.isRsp : Event → Bool
  | .rsp _ _ => true
  | _ => false

/-- Whether an event is the start of a pulse. -/
def Event.isPulse : Event → Bool
  | .pulse _ _ _ => true
  | _ => false

/-- The words a command pushes, in order, from the value CFG has at acceptance: the "pushed words" of 42_panel_protocol.md
R170 to R177 and 41_shift_register.md R151. A second INIT pushes nothing (R162). -/
def wordsPushed (i : Instr) (r : SeqRegs) : List Byte :=
  let c := r.cfg
  match i with
  | .push w => [w]
  | .init _ => if r.psm = .uninit then [0x32] else []
  | .pon =>
    let c1 := (c ||| 0x20) &&& ~~~0x02
    [c1, c1 ||| 0x08, c1 ||| 0x0C, c1 ||| 0x1C]
  | .poff =>
    let c2 := c &&& ~~~0x0C
    [c &&& ~~~0x04, c2, c2 ||| 0x02, (c2 ||| 0x02) &&& ~~~0x10]
  | .poffa => [0]
  | .sfrm => [c ||| 0x40, (c ||| 0x40) &&& ~~~0x10, c ||| 0x50, c ||| 0xD0]
  | .orow _ => [c ||| 0x01, c &&& ~~~0x01]
  | .efrm => [c &&& ~~~0x80, c &&& ~~~0xC0]
  | .pginit _ => []
  | .emit _ _ _ => []
  | .emitus _ _ _ => []
  | .pgbusy => []
  | .skip => []
  | .swbuf => []
  | .curbuf => []

/-- Whether a command is one of the ten of the panel protocol (42_panel_protocol.md). -/
def isPanel : Opcode → Bool
  | .init => true
  | .pon => true
  | .poff => true
  | .poffa => true
  | .sfrm => true
  | .skip => true
  | .orow => true
  | .efrm => true
  | .swbuf => true
  | .curbuf => true
  | .pginit => false
  | .emit => false
  | .emitus => false
  | .pgbusy => false
  | .push => false

/-- Whether a command runs `Emit` (40_pulse_generator.md R122). -/
def usesEmit : Opcode → Bool
  | .emit => true
  | .emitus => true
  | .sfrm => true
  | .skip => true
  | .orow => true
  | .efrm => true
  | .pginit => false
  | .pgbusy => false
  | .push => false
  | .init => false
  | .pon => false
  | .poff => false
  | .poffa => false
  | .swbuf => false
  | .curbuf => false

/-- What sets MISUSE when a command runs from registers `r`: the complete list of 60_exceptions.md R202. -/
def misuseOf (i : Instr) (r : SeqRegs) : Bool :=
  !(legalStates i.opcode).contains r.psm ||
  (i.opcode == .init && (r.psm != .uninit || r.pgSt != .uninit)) ||
  (i.opcode == .pginit && r.pgSt != .uninit) ||
  (usesEmit i.opcode && r.pgSt == .uninit)

/-- The state after `n` steps, if the machine does not stop before. -/
def stepsFrom : Nat → State → Option State
  | 0, s => some s
  | n + 1, s =>
    match step s with
    | .next t => stepsFrom n t
    | .fault _ => none
    | .refused _ => none

end Sys2Proof.Machine
end

