-- ==== Sys2Proof/Certificates/Slice0/Obligations.lean ====
section
/-! DEFINITION. The statements for the provers. Sequences are written out from the spec's pseudocode with the event lists
and register changes of `Safety.lean` (`pushEvents`, `pulseEvents`, `afterPush`, `afterEmit`), never with the model's own
programs. Every statement about a completed command has its frame in the equation of `t.seq` and in `Completed`. -/

open Sys2Proof Sys2Proof.Machine

/-! ### Encoding -/

/-- 30_encoding.md R90 to R92, R104: decoding the word of a legal command gives the command back. -/
def Obligations.DecodeOfEncodeIsTheCommand : Prop :=
  ∀ (m : Half) (i : Instr), i.wf m = true → decode m (encode i) = .ok i

/-- R104: a decoded word is the word of its command, and the command is legal: no two words mean one command, and no bit
of the word is ignored. -/
def Obligations.DecodedWordIsItsEncoding : Prop :=
  ∀ (m : Half) (c : CmdWord) (i : Instr), decode m c = .ok i → encode i = c ∧ i.wf m = true

/-- R92: a word is selected by at most one of the fifteen rows; a selected word is that row's command or fails an
operand-value check; a word no row selects is illegal; and a decoded word is selected by its command's row. -/
def Obligations.RowsSelectTheDecodedCommand : Prop :=
  ∀ (m : Half) (c : CmdWord),
    (∀ r ∈ rows, ∀ q ∈ rows, r.selects c = true → q.selects c = true → r = q) ∧
    (∀ r ∈ rows, r.selects c = true →
      (∃ i, decode m c = .ok i ∧ i.opcode = r.op) ∨ decode m c = .error .operandValue) ∧
    ((∀ r ∈ rows, r.selects c = false) →
      decode m c = .error .undefinedOpcode ∨ decode m c = .error .nonZeroField) ∧
    (∀ i, decode m c = .ok i → ∃ r ∈ rows, r.op = i.opcode ∧ r.selects c = true)

/-- R93, for every MAX_TICKS. -/
def Obligations.EmitWordLegality : Prop :=
  ∀ (m a b : Half) (w : Bool),
    decode m (wordOf 0x11 a b w) =
      if a.toNat ≤ m.toNat ∧ b.toNat ≤ m.toNat ∧ ¬ (a = 0 ∧ b = 0) then .ok (.emit a b w) else .error .operandValue

/-- R94, for every MAX_TICKS: the products are exact. -/
def Obligations.EmitusWordLegality : Prop :=
  ∀ (m a b : Half) (w : Bool),
    decode m (wordOf 0x12 a b w) =
      if 10 * a.toNat ≤ m.toNat ∧ 10 * b.toNat ≤ m.toNat ∧ ¬ (a = 0 ∧ b = 0) then .ok (.emitus a b w)
      else .error .operandValue

/-- 95_test_vectors.md V26: words written out there, with their decoding. -/
def Obligations.WrittenOutWordsDecode : Prop :=
  decode 65535 0x100007000000 = .ok (.pginit 7) ∧ decode 65535 0x110064003201 = .ok (.emit 100 50 true) ∧
  decode 65535 0x120001000101 = .ok (.emitus 1 1 true) ∧ decode 65535 0x200032000000 = .ok (.push 0x32) ∧
  decode 65535 0x3003C0000000 = .ok (.init 960) ∧ decode 65535 0x360064000000 = .ok (.orow 100) ∧
  decode 65535 0x310000000002 = .error .nonZeroField ∧ decode 65535 0x12199A000000 = .error .operandValue ∧
  decode 65535 0x3A0000000000 = .error .undefinedOpcode

/-- R95: the one width INIT hands to the bus engine is its operand plus 32, in 17 bits, which never wraps. -/
def Obligations.PaddedWidthNeverWraps : Prop :=
  ∀ (pin : Byte) (a : Half) (w : BitVec 17),
    Action.busInitReq w ∈ (initProgram pin a).flatten ↔ w.toNat = a.toNat + 32

/-! ### Steps -/

/-- 20_memory.md R60: with `rst` low and SEQ idle, the word HOST presents in its turn is run if it decodes to a command,
and the turn is used up. That the turn's ticks, an input, pass before the command, and that acceptance and the command's
first action are one step, are the model's choices (log 26, 29). -/
def Obligations.StepRunsTheDecodedCommand : Prop :=
  ∀ (s : State) (c : CmdWord) (i : Instr),
    s.env.rst.head = false → s.seq.seqOp = 0 → s.env.turn = some c → decode s.params.maxTicks c = .ok i →
    step s = exec i (elapse s.env.acceptTicks
      { s with env := { s.env.nextTurn with rst := s.env.rst.pop, tAccept := s.env.tAccept.pop } })

/-- 30_encoding.md R101: an illegal word changes ILLEGAL and appends RSP(2, 0), nothing else; which opcodes are reserved.
That the ticks of the accepting turn pass first, in which only time and PGE go on, and that the word is accepted and
answered in one step, are the model's choices (log 26, 29). -/
def Obligations.IllegalWordIsOnlyReported : Prop :=
  (∀ (s : State) (c : CmdWord) (e : Reject),
    s.env.rst.head = false → s.seq.seqOp = 0 → s.env.turn = some c →
    decode s.params.maxTicks c = .error e →
    (let t := elapse s.env.acceptTicks
       { s with env := { s.env.nextTurn with rst := s.env.rst.pop, tAccept := s.env.tAccept.pop } }
     t.seq = s.seq ∧ t.seqEvents = s.seqEvents ∧
     step s = .next { t with
       seq := { t.seq with illegal := true }, trace := t.trace ++ [⟨t.now, .rsp 2 0⟩] })) ∧
  (∀ (m : Half) (c : CmdWord),
    (let opc := (c.extractLsb' 40 8).toNat
     opc ≤ 0x0F ∨ (0x14 ≤ opc ∧ opc ≤ 0x1F) ∨ (0x21 ≤ opc ∧ opc ≤ 0x2F) ∨ 0x3A ≤ opc) →
    decode m c = .error .undefinedOpcode) ∧
  (∀ m : Half, decode m 0 = .error .undefinedOpcode ∧ decode m (BitVec.allOnes 48) = .error .undefinedOpcode)

/-- R60, 10_state.md R26: while a command is in execution a presented word waits and the operand latch holds. -/
def Obligations.BusyStepLeavesWordAndLatch : Prop :=
  ∀ s t : State, s.env.rst.head = false → s.seq.seqOp ≠ 0 → step s = .next t →
    t.env.cmds = s.env.cmds ∧ t.env.cmdsLater = s.env.cmdsLater ∧ t.seq.a = s.seq.a ∧ t.seq.b = s.seq.b ∧
    t.seq.w = s.seq.w ∧ t.params = s.params ∧ s.cmdReady = false

/-- R25, R61, 42_panel_protocol.md R165: whatever the grain, a step adds at most one response; a command in execution ends
with its response and by nothing else, and until then it stays the same command. -/
def Obligations.OnlyItsResponseEndsACommand : Prop :=
  ∀ s t : State, s.env.rst.head = false → step s = .next t →
    ∃ es, t.seqEvents = s.seqEvents ++ es ∧
      (let answers := (es.filter Event.isRsp).length
       answers ≤ 1 ∧ (answers = 1 → t.seq.seqOp = 0) ∧ (s.seq.seqOp ≠ 0 → t.seq.seqOp = 0 → answers = 1) ∧
       (s.seq.seqOp ≠ 0 → t.seq.seqOp ≠ 0 → t.seq.seqOp = s.seq.seqOp))

/-- 70_reset_and_hazards.md R230, R231: an asserted `rst` wins over everything; every register with a reset value in R41
takes it, no response is emitted, and a pulse in flight is cut. That CKV falling then shows in the trace is the model's
choice (log 10). -/
def Obligations.ResetDominates : Prop :=
  ∀ s : State, s.env.rst.head = true →
    s.cmdReady = false ∧
    ∃ t, step s = .next t ∧
      t.seq.cfg = 0 ∧ t.seq.psm = .uninit ∧ t.seq.seqOp = 0 ∧ t.seq.seqStep = 0 ∧ t.seq.seqSub = 0 ∧ t.dlyCnt = 0 ∧
      t.seq.pgSt = .uninit ∧ t.pge = ⟨.idle, 0, true, false⟩ ∧
      t.seq.cfgData = false ∧ t.seq.cfgClk = false ∧ t.seq.cfgStr = false ∧ t.seq.spl = false ∧
      (∀ p, t.pad p = none) ∧
      t.seq.misuse = false ∧ t.seq.illegal = false ∧ t.seq.busFail = false ∧ t.seq.variantL = false ∧
      t.seqEvents = s.seqEvents ∧ t.pgeEvents = s.pgeEvents ++ (if s.pge.ckv then [.ckv false] else []) ∧
      t.env.cmds = s.env.cmds ∧ t.env.cmdsLater = s.env.cmdsLater ∧ t.params = s.params

/-- 10_state.md R41: the state right after reset, for every register that has a reset value there; and, with `rst` low at
`State.reset` (the model's choice, log 5), the block is ready for a command (20_memory.md R60, 70_reset_and_hazards.md
R230). -/
def Obligations.ResetStateValues : Prop :=
  State.reset.seq.cfg = 0 ∧ State.reset.seq.psm = .uninit ∧ State.reset.seq.seqOp = 0 ∧
  State.reset.seq.seqStep = 0 ∧ State.reset.seq.seqSub = 0 ∧ State.reset.dlyCnt = 0 ∧
  State.reset.seq.pgSt = .uninit ∧ State.reset.pge = ⟨.idle, 0, true, false⟩ ∧
  State.reset.seq.cfgData = false ∧ State.reset.seq.cfgClk = false ∧ State.reset.seq.cfgStr = false ∧
  State.reset.seq.spl = false ∧ (∀ p, State.reset.pad p = none) ∧
  State.reset.seq.misuse = false ∧ State.reset.seq.illegal = false ∧ State.reset.seq.busFail = false ∧
  State.reset.seq.variantL = false ∧ State.reset.cmdReady = true

/-- The state after reset meets the three invariants below. -/
def Obligations.ResetMeetsTheInvariants : Prop :=
  State.reset.engineOk = true ∧ State.reset.railOk = true ∧ State.reset.sessionOk = true

/-! ### Invariants that every step keeps, whatever the grain -/

/-- 10_state.md R33, R34, R36, 40_pulse_generator.md R130, 20_memory.md R79: the engine and its flag stay consistent. -/
def Obligations.EngineStaysConsistent : Prop :=
  ∀ s t : State, s.engineOk = true → step s = .next t → t.engineOk = true

/-- 42_panel_protocol.md R180: with CFG rail-safe now and at every coming micro-step, every step leaves it so. -/
def Obligations.RailsStaySafe : Prop :=
  ∀ s t : State, s.railOk = true → step s = .next t → t.railOk = true

/-- R37, R170: BUS_FAIL is set only by INIT, which leaves UNINIT: a step that raises it has INIT in execution or accepts
one; and before INIT is done it is 0 unless INIT is in execution. -/
def Obligations.BusFailComesFromInit : Prop :=
  (∀ s t : State, s.sessionOk = true → step s = .next t → t.sessionOk = true) ∧
  (∀ s t : State, step s = .next t → s.seq.busFail = false → t.seq.busFail = true →
    s.seq.seqOp = 0x30 ∨
    ∃ c n, s.seq.seqOp = 0 ∧ s.env.turn = some c ∧ decode s.params.maxTicks c = .ok (.init n))

/-- R129, R130, 20_memory.md R78: whatever a step does, for each PULSE it adds to the trace PGE's events grow by one whole
pulse, CKV(1), CKV(0), NOTIFY, in that order and one after the other; what is still to come of the last one is
`PgPh.ahead`. -/
def Obligations.EveryPulseIsPlayedOnce : Prop :=
  ∀ s t : State, s.engineOk = true → s.env.rst.head = false → step s = .next t →
    ∃ es, t.seqEvents = s.seqEvents ++ es ∧
      t.pgeTale = s.pgeTale ++
        (List.replicate (es.filter Event.isPulse).length [Event.ckv true, .ckv false, .notify]).flatten

/-- R37: the sticky flags are cleared only by reset. -/
def Obligations.StickyFlagsStay : Prop :=
  ∀ s t : State, s.env.rst.head = false → step s = .next t →
    (s.seq.misuse = true → t.seq.misuse = true) ∧ (s.seq.illegal = true → t.seq.illegal = true) ∧
    (s.seq.busFail = true → t.seq.busFail = true)

/-- R28, R29, R32, R33, R24: once initialised the generator's status and pin, once set a direction bit and SPL, and once
left UNINIT, stay until reset. -/
def Obligations.OneWayRegisters : Prop :=
  ∀ s t : State, s.engineOk = true → s.env.rst.head = false → step s = .next t →
    (s.seq.pgSt ≠ .uninit → t.seq.pgSt = s.seq.pgSt ∧ t.seq.pgPin = s.seq.pgPin) ∧
    (s.seq.spl = true → t.seq.spl = true) ∧ (s.seq.dirCfgData = true → t.seq.dirCfgData = true) ∧
    (s.seq.dirCfgClk = true → t.seq.dirCfgClk = true) ∧ (s.seq.dirCfgStr = true → t.seq.dirCfgStr = true) ∧
    (s.seq.dirSpl = true → t.seq.dirSpl = true) ∧ (s.seq.dirCkv = true → t.seq.dirCkv = true) ∧
    (s.seq.psm ≠ .uninit → t.seq.psm ≠ .uninit)

/-- R23: CFG is written only by the ten commands of the panel protocol, whose opcodes are 0x30 to 0x39. -/
def Obligations.CfgIsWrittenByPanelCommandsOnly : Prop :=
  ∀ s t : State, s.env.rst.head = false → step s = .next t → t.seq.cfg ≠ s.seq.cfg →
    (s.seq.seqOp ≠ 0 ∧ 0x30 ≤ s.seq.seqOp.toNat) ∨
    ∃ c i, s.seq.seqOp = 0 ∧ s.env.turn = some c ∧ decode s.params.maxTicks c = .ok i ∧
      isPanel i.opcode = true

/-- 42_panel_protocol.md R161, R162 (c): while a command but INIT is in execution, PSM holds its during value and the
status ports show it: from the accepting step on, and through every later step until the command is done. -/
def Obligations.DuringValueIsHeld : Prop :=
  (∀ (i : Instr) (s t : State), i.wf s.params.maxTicks = true → i.opcode ≠ .init → exec i s = .next t →
    t.seq.seqOp ≠ 0 →
    t.ports.stBusy = true ∧
    t.ports.stPsm =
      (if s.seq.psm = .uninit then 0 else if i = .pon then 2 else if i = .poff then 5 else s.seq.psm.code)) ∧
  (∀ s t : State, s.env.rst.head = false → s.seq.seqOp ≠ 0 → s.seq.seqOp ≠ 0x30 → step s = .next t →
    t.seq.seqOp ≠ 0 → t.ports.stBusy = true ∧ t.seq.psm = s.seq.psm ∧ t.ports.stPsm = s.ports.stPsm)

/-! ### The pulse generator -/

/-- 40_pulse_generator.md R120, R121: PGINIT, first and again. -/
def Obligations.PginitBindsTheGeneratorOnce : Prop :=
  (∀ (pin : Byte) (s : State) (ok : Bool),
    s.grain = none → s.pge.consistent = true → s.pge.pgPh = .idle → s.seq.pgSt = .uninit →
    answerOf s.env.pgAllocOk.rest s.env.pgAllocOk.next = some ok →
    ∃ t, exec (.pginit pin) s = .next t ∧
      t.seq = idleAfter s.seq.psm { acceptedRegs (.pginit pin) s.seq with
        pgPin := pin, pgSt := if ok then .ready else .failed, dirCkv := s.seq.dirCkv || ok } ∧
      t.seqEvents = s.seqEvents ++ [.pgAlloc pin] ++ (if ok then [.dir .ckv, .rsp 0 0] else [.rsp 1 2]) ∧
      t.pge = s.pge ∧ Completed [] s t) ∧
  (∀ (pin : Byte) (s : State),
    s.grain = none → s.seq.pgSt ≠ .uninit →
    ∃ t, exec (.pginit pin) s = .next t ∧
      t.seq = idleAfter s.seq.psm { acceptedRegs (.pginit pin) s.seq with misuse := true } ∧
      t.seqEvents = s.seqEvents ++ [if s.seq.pgSt = .failed then .rsp 1 2 else .rsp 0 0] ∧ Completed [] s t)

/-- R122, R123: EMIT. On a ready generator one pulse is started after the one in flight, and waited for with the wait
flag only: without it, and with no pulse in flight, EMIT completes although no notification ever comes; on a failed one nothing happens; on one never initialised MISUSE is set. -/
def Obligations.EmitStartsOnePulse : Prop :=
  ∀ (h l : Half) (w : Bool) (s : State),
    (Instr.emit h l w).wf s.params.maxTicks = true → s.grain = none → s.pge.consistent = true →
    (s.env.notifies = true ∨ (s.pge.pgDone = true ∧ w = false)) →
    ∃ t, exec (.emit h l w) s = .next t ∧
      t.seq = idleAfter s.seq.psm (afterEmit h l (acceptedRegs (.emit h l w) s.seq)) ∧
      t.seqEvents = s.seqEvents ++ pulseEvents s.seq.pgSt h l ++ [.rsp 0 0] ∧
      Completed (pulseTale s.seq.pgSt) s t ∧
      (w = true → s.seq.pgSt = .ready → t.pge.pgDone = true ∧ t.pge.pgPh = .idle ∧ t.pge.ckv = false)

/-- R124, R94: EMITUS is `Emit` of ten times its operands, exactly; the wait flag decides the wait as for EMIT. -/
def Obligations.EmitusStartsThePulseInMicroseconds : Prop :=
  ∀ (a b h l : Half) (w : Bool) (s : State),
    (Instr.emitus a b w).wf s.params.maxTicks = true → h.toNat = 10 * a.toNat → l.toNat = 10 * b.toNat →
    s.grain = none → s.pge.consistent = true →
    (s.env.notifies = true ∨ (s.pge.pgDone = true ∧ w = false)) →
    ∃ t, exec (.emitus a b w) s = .next t ∧
      t.seq = idleAfter s.seq.psm (afterEmit h l (acceptedRegs (.emitus a b w) s.seq)) ∧
      t.seqEvents = s.seqEvents ++ pulseEvents s.seq.pgSt h l ++ [.rsp 0 0] ∧
      Completed (pulseTale s.seq.pgSt) s t ∧
      (w = true → s.seq.pgSt = .ready → t.pge.pgDone = true ∧ t.pge.pgPh = .idle ∧ t.pge.ckv = false)

/-- R125: PGBUSY answers the completion flag inverted and changes nothing; its one micro-step takes T_STEP (00_scope.md
R14), in which time, and the pulse in flight, go on as they do without it. The model's choices: that the flag is sampled
before T_STEP passes (log 23), and that `exec` takes exactly T_STEP, the ticks of the accepting turn passing before it in
`step` (log 26). -/
def Obligations.PgbusyAnswersTheFlagInverted : Prop :=
  ∀ s : State, s.grain = none →
    ∃ t, exec .pgbusy s = .next t ∧
      t.seq = idleAfter s.seq.psm (acceptedRegs .pgbusy s.seq) ∧
      t.seqEvents = s.seqEvents ++ [.rsp 0 (if s.pge.pgDone = false then 1 else 0)] ∧
      t.now = s.now + s.env.tStep.head ∧ t.pge = (elapse s.env.tStep.head s).pge ∧
      t.pgeEvents = (elapse s.env.tStep.head s).pgeEvents ∧ t.dlyCnt = (elapse s.env.tStep.head s).dlyCnt ∧
      { t.env with tNotify := s.env.tNotify } = { s.env with tStep := s.env.tStep.pop } ∧ Completed [] s t

/-- R131: on a failed generator every command runs without PULSE, CKV or NOTIFY, PG_DONE stays 1 and the status stays
failed, PGBUSY answers 0, and no wait on the generator is entered: no notification has to come. -/
def Obligations.FailedGeneratorIsInert : Prop :=
  ∀ (i : Instr) (s : State),
    i.wf s.params.maxTicks = true → s.grain = none → s.seq.seqOp = 0 → s.seq.pgSt = .failed →
    s.pge.consistent = true → s.pge.pgDone = true → s.env.busSettles = true → s.env.answers = true →
    ∃ t es, exec i s = .next t ∧ t.seq.seqOp = 0 ∧ t.seqEvents = s.seqEvents ++ es ∧ (∀ e ∈ es, e.isPulse = false) ∧
      t.pgeEvents = s.pgeEvents ∧ t.pge = s.pge ∧ t.seq.pgSt = .failed ∧ (i = .pgbusy → es = [.rsp 0 0])

/-- R126 to R129, R132: the waveform of a pulse from its start step on, tick by tick: CKV is 0 before, 1 for PG_D0 ticks
from the start step, then 0; the flag returns to 1 after PG_D0, PG_D1 (if present) and T_NOTIFY; and the trace shows one
CKV(1), one CKV(0) and one NOTIFY at those ticks. That CKV(1) stands directly after PULSE in the trace is the model's
choice (log 28). -/
def Obligations.WaveformOfOnePulse : Prop :=
  ∀ (s : State) (k n : Nat),
    s.engineOk = true → s.nextAction = some .start → s.seq.pgD0 ≠ 0 → s.env.tNotify.head = some k →
    s.pge.ckv = false ∧
    ∃ u, doAction .start s = .go u ∧
      (let done := s.seq.pgD0.toNat + (if s.seq.pgP1p then s.seq.pgD1.toNat else 0) + k
       (elapse n u).pge.ckv = decide (n < s.seq.pgD0.toNat) ∧
       (elapse n u).pge.pgDone = decide (done ≤ n) ∧
       (elapse n u).trace = s.trace ++
         [⟨s.now, .pulse s.seq.pgD0 s.seq.pgD1 s.seq.pgP1p⟩, ⟨s.now, .ckv true⟩] ++
         (if s.seq.pgD0.toNat ≤ n then [⟨s.now + s.seq.pgD0.toNat, .ckv false⟩] else []) ++
         (if done ≤ n then [⟨s.now + done, .notify⟩] else []))

/-! ### The shift register -/

/-- 41_shift_register.md R150, R151: PUSH shifts its operand out and writes nothing else; CFG is not written. -/
def Obligations.PushShiftsItsOperandOut : Prop :=
  ∀ (w : Byte) (s : State), s.grain = none →
    ∃ t, exec (.push w) s = .next t ∧
      t.seq = idleAfter s.seq.psm (afterPush w (acceptedRegs (.push w) s.seq)) ∧
      t.seqEvents = s.seqEvents ++ pushEvents w ++ [.rsp 0 0] ∧ Completed [] s t

/-- R152, 30_encoding.md R98: in every command, the bits written to CFG_DATA within each strobe frame are exactly the
eight of the pushed word, OE first and LE last, whichever flags changed. -/
def Obligations.BitOrderOnTheWires : Prop :=
  ∀ (i : Instr) (s : State), i.wf s.params.maxTicks = true → s.fairRun = true →
    ∃ t es, exec i s = .next t ∧ t.seqEvents = s.seqEvents ++ es ∧
      pushedBits es = (wordsPushed i s.seq).map fun w =>
        [w.getLsbD 7, w.getLsbD 6, w.getLsbD 5, w.getLsbD 4, w.getLsbD 3, w.getLsbD 2, w.getLsbD 1, w.getLsbD 0]

/-- R155, 10_state.md R22: whatever the receiver held before, after a command its latch holds the last pushed word; after
a command of the panel protocol that pushes, that is CFG. That the panel samples on the rising edges is the spec's own
reading (log 17). -/
def Obligations.ReceiverLatchHoldsTheWord : Prop :=
  ∀ (i : Instr) (s : State) (r : Receiver), i.wf s.params.maxTicks = true → s.fairRun = true →
    ∃ t es, exec i s = .next t ∧ t.seqEvents = s.seqEvents ++ es ∧
      (r.after es).latch = (wordsPushed i s.seq).getLast?.getD r.latch ∧
      (isPanel i.opcode = true → wordsPushed i s.seq ≠ [] → (r.after es).latch = t.seq.cfg)

/-- R156, 10_state.md R30, R31: after a command that pushes, the wires rest at strobe 1, clock 1 and data bit 0 of the last
word; a command that pushes nothing leaves them alone. -/
def Obligations.RestingLevelsOfTheWires : Prop :=
  ∀ (i : Instr) (s : State), i.wf s.params.maxTicks = true → s.fairRun = true →
    ∃ t, exec i s = .next t ∧
      match (wordsPushed i s.seq).getLast? with
      | some w => t.seq.cfgStr = true ∧ t.seq.cfgClk = true ∧ t.seq.cfgData = w.getLsbD 0
      | none => t.seq.cfgStr = s.seq.cfgStr ∧ t.seq.cfgClk = s.seq.cfgClk ∧ t.seq.cfgData = s.seq.cfgData

/-! ### The panel protocol -/

/-- 42_panel_protocol.md R170, R162 (a), 40_pulse_generator.md R120: INIT, first and again. The premise on BUS_FAIL is the
invariant `BusFailComesFromInit` read for an idle SEQ. -/
def Obligations.InitSetsTheSessionUpOnce : Prop :=
  (∀ (n : Half) (s : State) (okb okp : Bool),
    s.grain = none → s.seq.psm = .uninit → s.seq.busFail = false → s.pge.consistent = true →
    (s.seq.pgSt = .uninit → s.pge.pgPh = .idle) →
    answerOf s.env.busInitOk.rest s.env.busInitOk.next = some okb →
    (s.seq.pgSt = .uninit → answerOf s.env.pgAllocOk.rest s.env.pgAllocOk.next = some okp) →
    (let first := s.seq.pgSt = .uninit
     let failp := (first ∧ okp = false) ∨ s.seq.pgSt = .failed
     ∃ t, exec (.init n) s = .next t ∧
      t.seq = idleAfter .powerOff (afterPush 0x32 { acceptedRegs (.init n) s.seq with
        variantL := s.env.variant.head, cfg := 0x32
        dirCfgData := true, dirCfgClk := true, dirCfgStr := true, dirSpl := true
        dirCkv := s.seq.dirCkv || (decide first && okp)
        busFail := !okb
        pgPin := if first then s.params.ckvPin else s.seq.pgPin
        pgSt := if first then (if okp then .ready else .failed) else s.seq.pgSt
        misuse := s.seq.misuse || !decide first }) ∧
      t.seqEvents = s.seqEvents ++ [.dir .cfgData, .dir .cfgClk, .dir .cfgStr, .dir .spl] ++ pushEvents 0x32 ++
        [.busInit (n.setWidth 17 + 32)] ++
        (if first then [.pgAlloc s.params.ckvPin] ++ (if okp then [.dir .ckv] else []) else []) ++
        [.rsp (if failp ∨ okb = false then 1 else 0) ((if failp then 2 else 0) + (if okb = false then 1 else 0))] ∧
      (first → t.pge = s.pge) ∧ Completed [] s t)) ∧
  (∀ (n : Half) (s : State), s.seq.psm ≠ .uninit →
    (let d : BitVec 32 := (if s.seq.pgSt = .failed then 2 else 0) + (if s.seq.busFail then 1 else 0)
     ∃ t, exec (.init n) s = .next t ∧
      t.seq = { s.seq with misuse := true, a := n, b := 0, w := false } ∧
      t.seqEvents = s.seqEvents ++ [.rsp (if d ≠ 0 then 1 else 0) d] ∧
      t.pge = s.pge ∧ t.pgeEvents = s.pgeEvents ∧ t.env = s.env ∧ Completed [] s t))

/-- R171: PON, from any word, with any generator: four pushes, three delays, SPL raised. -/
def Obligations.PonRaisesTheRailsInOrder : Prop :=
  ∀ s : State, s.grain = none →
    (let c1 := (s.seq.cfg ||| 0x20) &&& ~~~0x02
     let c2 := c1 ||| 0x08
     let c3 := c2 ||| 0x04
     let c4 := c3 ||| 0x10
     ∃ t, exec .pon s = .next t ∧
      t.seq = idleAfter (if s.seq.psm = .uninit then .uninit else .poweredOn)
        { afterPush c4 (acceptedRegs .pon s.seq) with cfg := c4, spl := true } ∧
      t.seqEvents = s.seqEvents ++ pushEvents c1 ++ [.delay 1000] ++ pushEvents c2 ++ [.delay 5000] ++
        pushEvents c3 ++ [.delay 1000] ++ pushEvents c4 ++ [.pin .spl true, .rsp 0 0] ∧
      t.dlyCnt = 0 ∧ s.now + 7000 ≤ t.now ∧ Completed [] s t)

/-- R172, R255: POFF, from any word: four pushes, two delays; DIR, LE, MODE, OE and SPL are not touched. -/
def Obligations.PoffDropsTheRailsInOrder : Prop :=
  ∀ s : State, s.grain = none →
    (let c1 := s.seq.cfg &&& ~~~0x04
     let c2 := c1 &&& ~~~0x08
     let c3 := c2 ||| 0x02
     let c4 := c3 &&& ~~~0x10
     ∃ t, exec .poff s = .next t ∧
      t.seq = idleAfter (if s.seq.psm = .uninit then .uninit else .powerOff)
        { afterPush c4 (acceptedRegs .poff s.seq) with cfg := c4 } ∧
      t.seqEvents = s.seqEvents ++ pushEvents c1 ++ [.delay 100] ++ pushEvents c2 ++ [.delay 1000] ++
        pushEvents c3 ++ pushEvents c4 ++ [.rsp 0 0] ∧
      t.dlyCnt = 0 ∧ s.now + 1100 ≤ t.now ∧ Completed [] s t)

/-- R173: POFFA zeroes the word and pushes it once, waiting for nothing. -/
def Obligations.PoffaZeroesTheWord : Prop :=
  ∀ s : State, s.grain = none →
    ∃ t, exec .poffa s = .next t ∧
      t.seq = idleAfter (if s.seq.psm = .uninit then .uninit else .powerOff)
        { afterPush 0 (acceptedRegs .poffa s.seq) with cfg := 0 } ∧
      t.seqEvents = s.seqEvents ++ pushEvents 0 ++ [.rsp 0 0] ∧ Completed [] s t

/-- R174: SFRM, whatever the generator's status and the four programmed pulses. Parameters that break `Emit`'s precondition
in R122 are programmed as they stand, here and in SKIP and EFRM (log 12, DEDUCED). -/
def Obligations.SfrmStartsAFrame : Prop :=
  ∀ s : State, s.grain = none → s.pge.consistent = true → s.env.notifies = true → s.env.busSettles = true →
    (let p := s.params
     let st := s.seq.pgSt
     let c1 := s.seq.cfg ||| 0x40
     let c2 := c1 &&& ~~~0x10
     let c3 := c2 ||| 0x10
     let c4 := c3 ||| 0x80
     ∃ t, exec .sfrm s = .next t ∧
      t.seq = idleAfter (if s.seq.psm = .uninit then .uninit else .frameActive)
        (afterEmit p.sfD.high p.sfD.low { afterPush c4 (acceptedRegs .sfrm s.seq) with cfg := c4 }) ∧
      t.seqEvents = s.seqEvents ++ pushEvents c1 ++ pulseEvents st p.sfA.high p.sfA.low ++ pushEvents c2 ++
        [.delay 10] ++ pulseEvents st p.sfB.high p.sfB.low ++ pushEvents c3 ++ pulseEvents st p.sfC.high p.sfC.low ++
        pushEvents c4 ++ pulseEvents st p.sfD.high p.sfD.low ++ [.rsp 0 0] ∧
      t.dlyCnt = 0 ∧ s.now + 10 ≤ t.now ∧
      t.pge.pgDone = true ∧ t.pge.pgPh = .idle ∧
      Completed (pulseTale st ++ pulseTale st ++ pulseTale st ++ pulseTale st) s t)

/-- R175: SKIP, one pulse of the latched variant's profile, not waited for: with no pulse in flight SKIP completes
although no notification ever comes. No wait for the bus engine. Parameters as in `SfrmStartsAFrame` (log 12). -/
def Obligations.SkipEmitsOneUnwaitedPulse : Prop :=
  ∀ s : State, s.grain = none → s.pge.consistent = true → (s.env.notifies = true ∨ s.pge.pgDone = true) →
    (let pr := if s.seq.variantL then s.params.skipLong else s.params.skipShort
     ∃ t, exec .skip s = .next t ∧
      t.seq = idleAfter s.seq.psm (afterEmit pr.high pr.low (acceptedRegs .skip s.seq)) ∧
      t.seqEvents = s.seqEvents ++ pulseEvents s.seq.pgSt pr.high pr.low ++ [.rsp 0 0] ∧
      Completed (pulseTale s.seq.pgSt) s t)

/-- R176: OROW. The flag LE is 1 only between the two pushes. Without OR_WAIT the row pulse is not waited for: with no
pulse in flight OROW completes although no notification ever comes. That an output time above MAX_TICKS, or OR_LOW above a
MAX_TICKS below 50, is programmed as it stands is the model's reading (log 12, DEDUCED): `Emit`'s precondition in R122 is
broken there. -/
def Obligations.OrowLatchesAndPulsesTheRow : Prop :=
  ∀ (a : Half) (s : State),
    s.grain = none → s.pge.consistent = true → s.env.busSettles = true →
    (s.env.notifies = true ∨ (s.pge.pgDone = true ∧ s.params.orWait = false)) →
    (let c1 := s.seq.cfg ||| 0x01
     let c2 := c1 &&& ~~~0x01
     ∃ t, exec (.orow a) s = .next t ∧
      t.seq = idleAfter s.seq.psm
        (afterEmit a 50 { afterPush c2 (acceptedRegs (.orow a) s.seq) with cfg := c2 }) ∧
      t.seqEvents = s.seqEvents ++ pushEvents c1 ++ pushEvents c2 ++ pulseEvents s.seq.pgSt a 50 ++
        [.busStart, .busSwitch, .rsp 0 0] ∧
      Completed (pulseTale s.seq.pgSt) s t ∧
      (s.params.orWait = true → s.seq.pgSt = .ready → t.pge.pgDone = true))

/-- R177: EFRM, two pushes, then two waited pulses. Parameters as in `SfrmStartsAFrame` (log 12). -/
def Obligations.EfrmEndsAFrame : Prop :=
  ∀ s : State, s.grain = none → s.pge.consistent = true → s.env.notifies = true →
    (let p := s.params.efP
     let st := s.seq.pgSt
     let c1 := s.seq.cfg &&& ~~~0x80
     let c2 := c1 &&& ~~~0x40
     ∃ t, exec .efrm s = .next t ∧
      t.seq = idleAfter (if s.seq.psm = .uninit then .uninit else .poweredOn)
        (afterEmit p.high p.low { afterPush c2 (acceptedRegs .efrm s.seq) with cfg := c2 }) ∧
      t.seqEvents = s.seqEvents ++ pushEvents c1 ++ pushEvents c2 ++ pulseEvents st p.high p.low ++
        pulseEvents st p.high p.low ++ [.rsp 0 0] ∧
      Completed (pulseTale st ++ pulseTale st) s t ∧
      (st = .ready → t.pge.pgDone = true ∧ t.pge.pgPh = .idle))

/-- R178: SWBUF is one BUS_SWITCH. -/
def Obligations.SwbufSwitchesTheBuffer : Prop :=
  ∀ s : State, s.grain = none →
    ∃ t, exec .swbuf s = .next t ∧
      t.seq = idleAfter s.seq.psm (acceptedRegs .swbuf s.seq) ∧
      t.seqEvents = s.seqEvents ++ [.busSwitch, .rsp 0 0] ∧ Completed [] s t

/-- R179, 20_memory.md R70: CURBUF answers the pointer the bus engine presents, its PTR_W bits zero-extended to 32. Of a
pointer wider than the response the low 32 bits are the model's reading (log 13). -/
def Obligations.CurbufAnswersThePointer : Prop :=
  ∀ s : State, s.grain = none →
    ∃ t, exec .curbuf s = .next t ∧
      t.seq = idleAfter s.seq.psm (acceptedRegs .curbuf s.seq) ∧
      t.seqEvents = s.seqEvents ++ [.rsp 0 ((BitVec.ofNat s.params.ptrW s.env.busCurbuf.head).setWidth 32)] ∧ Completed [] s t

/-! ### Properties of the whole machine -/

/-- 20_memory.md R61, 42_panel_protocol.md R165, 70_reset_and_hazards.md R250, 30_encoding.md R100: in a fair environment
every command, at its acceptance or resumed from any position, completes with exactly one response, its last event, and
SEQ is idle. The status is never 3 and is 2 for no command. -/
def Obligations.EveryCommandAnswersOnce : Prop :=
  (∀ (i : Instr) (s : State), i.wf s.params.maxTicks = true → s.fairRun = true → s.seq.seqOp = 0 →
    ∃ t es st d, exec i s = .next t ∧ t.seq.seqOp = 0 ∧ t.seqEvents = s.seqEvents ++ es ++ [.rsp st d] ∧
      (∀ e ∈ es, e.isRsp = false) ∧ (st = 0 ∨ st = 1)) ∧
  (∀ s : State, s.engineOk = true → s.whole = true → s.env.fair = true → s.env.rst.head = false →
    remaining s ≠ [] →
    ∃ t es st d, step s = .next t ∧ t.seq.seqOp = 0 ∧ t.seqEvents = s.seqEvents ++ es ++ [.rsp st d] ∧
      (∀ e ∈ es, e.isRsp = false) ∧ (st = 0 ∨ st = 1))

/-- 60_exceptions.md R202: the complete list of what sets MISUSE. -/
def Obligations.MisuseIsExactlyTheList : Prop :=
  ∀ (i : Instr) (s : State), i.wf s.params.maxTicks = true → s.fairRun = true →
    ∃ t, exec i s = .next t ∧ t.seq.misuse = (s.seq.misuse || misuseOf i s.seq) ∧ t.seq.illegal = s.seq.illegal

/-- 00_scope.md R12, R14, 20_memory.md R77: the latencies of the environment (T_STEP, T_NOTIFY, how long the bus engine
stays busy, how far the pulse in flight is) change neither SEQ's events nor its registers, PGBUSY apart. -/
def Obligations.TimingChangesNoSequence : Prop :=
  ∀ (i : Instr) (s u : State), i.wf s.params.maxTicks = true → i ≠ .pgbusy → s.fairRun = true → u.fairRun = true →
    u.seq = s.seq → u.seqEvents = s.seqEvents → u.params = s.params → u.env.variant = s.env.variant →
    u.env.busInitOk = s.env.busInitOk → u.env.pgAllocOk = s.env.pgAllocOk → u.env.busCurbuf = s.env.busCurbuf →
    ∃ t v, exec i s = .next t ∧ exec i u = .next v ∧ v.seq = t.seq ∧ v.seqEvents = t.seqEvents

/-- R180: a command that is not PUSH, from a rail-safe word, pushes rail-safe words only and leaves a rail-safe word. -/
def Obligations.PushedWordsAreRailSafe : Prop :=
  ∀ (i : Instr) (s : State), i.wf s.params.maxTicks = true → i.opcode ≠ .push → s.fairRun = true →
    railSafe s.seq.cfg = true →
    ∃ t es, exec i s = .next t ∧ t.seqEvents = s.seqEvents ++ es ∧ railSafe t.seq.cfg = true ∧
      ∀ bits ∈ pushedBits es, ∃ w, bits = wireBits w ∧ railSafe w = true

/-- R181: PON then POFF, from any word. -/
def Obligations.PonPoffIsAnIdempotentTeardown : Prop :=
  ∀ s : State, s.grain = none →
    ∃ t u, exec .pon s = .next t ∧ exec .poff t = .next u ∧
      u.seq.cfg = (((s.seq.cfg ||| maskDir) &&& ~~~(maskPos ||| maskNeg ||| maskSof)) ||| maskPwrdis) ∧
      u.seq.cfg = (s.seq.cfg &&& 0xC1) ||| 0x22

/-- 70_reset_and_hazards.md R260: the counted ticks of the waited pulses and of SFRM's delay are lower bounds on a command's
duration, whatever the latencies. The duration of a pulse is that of its symbol (30_encoding.md R96). -/
def Obligations.WaitedPulsesTakeTheirTicks : Prop :=
  ∀ s : State, s.fairRun = true → s.seq.pgSt = .ready →
    (let ticks := fun h l : Half => if h = 0 then l.toNat else h.toNat + l.toNat
     (∀ (h l : Half) (t : State), exec (.emit h l true) s = .next t → s.now + ticks h l ≤ t.now) ∧
     (∀ t : State, exec .efrm s = .next t → s.now + 2 * ticks s.params.efP.high s.params.efP.low ≤ t.now) ∧
     (∀ t : State, exec .sfrm s = .next t →
       s.now + ticks s.params.sfA.high s.params.sfA.low + 10 + ticks s.params.sfB.high s.params.sfB.low +
         ticks s.params.sfC.high s.params.sfC.low + ticks s.params.sfD.high s.params.sfD.low ≤ t.now))

/-- R160, 60_exceptions.md R203, 95_test_vectors.md V9: an OROW or SFRM accepted while the bus engine stays busy adds no
event of SEQ, however many steps are taken, and SEQ stays at micro-step 1. -/
def Obligations.BusyBusBlocksTheRow : Prop :=
  ∀ (i : Instr) (s t : State) (n : Nat),
    (i = .sfrm ∨ ∃ a, i = .orow a) → s.grain = none → s.env.rst = ⟨[], false⟩ → s.env.busBusy = ⟨[], true⟩ →
    exec i s = .next t →
    ∃ u, stepsFrom n t = some u ∧ u.seqEvents = s.seqEvents ∧ u.seq.seqOp = i.opcode.code ∧ u.seq.seqStep = 1 ∧
      u.seq.cfg = s.seq.cfg

/-- R129, R122, 95_test_vectors.md V5: an EMIT accepted with a pulse in flight whose notification is withheld starts no
pulse, however many steps are taken. -/
def Obligations.WithheldNotificationBlocksTheNextPulse : Prop :=
  ∀ (h l : Half) (w : Bool) (s t : State) (n : Nat),
    (Instr.emit h l w).wf s.params.maxTicks = true → s.grain = none → s.seq.pgSt = .ready →
    s.pge.consistent = true → s.pge.pgPh ≠ .idle → s.env.tNotify = ⟨[], none⟩ → s.env.rst = ⟨[], false⟩ →
    exec (.emit h l w) s = .next t →
    ∃ u, stepsFrom n t = some u ∧ u.seqEvents = s.seqEvents ∧ u.seq.seqOp = 0x11 ∧ u.pge.pgDone = false

/-- R160, R174, R176, 95_test_vectors.md V9: while a pulse is in flight an OROW or SFRM adds no event of SEQ before that
pulse's NOTIFY, whatever the bus engine reports and whatever the grain: in the step that accepts it, and in every later
step, with `rst` low, that finds it at micro-step 1. And if the notification is withheld and `rst` stays low, it adds none
however many steps of whatever grain are taken, and SEQ stays at micro-step 1. -/
def Obligations.PulseInFlightBlocksTheRow : Prop :=
  (∀ (i : Instr) (s t : State),
    (i = .sfrm ∨ ∃ a, i = .orow a) → s.pge.consistent = true → s.pge.pgPh ≠ .idle → exec i s = .next t →
    (∃ pre post, t.events = s.events ++ pre ++ post ∧ (∀ e ∈ pre, e.byPge = true) ∧ (post = [] ∨ Event.notify ∈ pre)) ∧
    (∀ n : Nat, s.env.rst = ⟨[], false⟩ → s.env.tNotify = ⟨[], none⟩ →
      ∃ u, stepsFrom n t = some u ∧ u.seqEvents = s.seqEvents ∧ u.seq.seqOp = i.opcode.code ∧ u.seq.seqStep = 1 ∧
        u.seq.cfg = s.seq.cfg ∧ u.pge.pgDone = false)) ∧
  (∀ s t : State, s.env.rst.head = false → (s.seq.seqOp = 0x34 ∨ s.seq.seqOp = 0x36) → s.seq.seqStep = 1 →
    s.pge.consistent = true → s.pge.pgPh ≠ .idle → step s = .next t →
    ∃ pre post, t.events = s.events ++ pre ++ post ∧ (∀ e ∈ pre, e.byPge = true) ∧ (post = [] ∨ Event.notify ∈ pre))

/-- R129, 70_reset_and_hazards.md R250: the notify step is taken at last, however HOST polls. After some number of steps
that depends on the inputs and the pulse alone, each of which accepts a PGBUSY or an illegal word, the flag is 1 and PGE's
events are those of the pulse, whatever T_STEP is and whatever the grain. That the ticks of the accepting turn are at least
one in the long run is how the model keeps R129's "eventually" (log 26); that each such word is answered in the step that
accepts it is the model's choice (log 29). -/
def Obligations.PollingSeesTheNotification : Prop :=
  ∀ s : State, s.seq.seqOp = 0 → s.pge.consistent = true → s.env.notifies = true → s.env.rst = ⟨[], false⟩ →
    ∃ n, ∀ words : List (Option CmdWord), n ≤ words.length →
      (∀ w ∈ words, ∃ c, w = some c ∧
        (decode s.params.maxTicks c = .ok .pgbusy ∨ ∃ e, decode s.params.maxTicks c = .error e)) →
      ∃ u, stepsFrom n { s with env := { s.env with cmds := words } } = some u ∧
        u.pge.pgDone = true ∧ u.pgeEvents = s.pgeEvents ++ s.pge.pgPh.ahead ∧ u.seq.seqOp = 0
end

