-- ==== Sys2Proof/Laws/State.lean ====
section
/-! SUPPORT. What each named update of the state does to each field, one lemma a field, true by rfl. -/

namespace Sys2Proof.Machine

@[simp] theorem emitEvent_seq (e : Event) (s : State) : (emitEvent e s).seq = s.seq := rfl
@[simp] theorem emitEvent_pge (e : Event) (s : State) : (emitEvent e s).pge = s.pge := rfl
@[simp] theorem emitEvent_dlyCnt (e : Event) (s : State) : (emitEvent e s).dlyCnt = s.dlyCnt := rfl
@[simp] theorem emitEvent_env (e : Event) (s : State) : (emitEvent e s).env = s.env := rfl
@[simp] theorem emitEvent_params (e : Event) (s : State) : (emitEvent e s).params = s.params := rfl
@[simp] theorem emitEvent_now (e : Event) (s : State) : (emitEvent e s).now = s.now := rfl
@[simp] theorem emitEvent_trace (e : Event) (s : State) : (emitEvent e s).trace = s.trace ++ [⟨s.now, e⟩] := rfl
@[simp] theorem emitEvent_grain (e : Event) (s : State) : (emitEvent e s).grain = s.grain := rfl
@[simp] theorem emitEvent_budget (e : Event) (s : State) : (emitEvent e s).budget = s.budget := rfl

@[simp] theorem flagMisuse_seq (s : State) : (flagMisuse s).seq = { s.seq with misuse := true } := rfl
@[simp] theorem flagMisuse_pge (s : State) : (flagMisuse s).pge = s.pge := rfl
@[simp] theorem flagMisuse_dlyCnt (s : State) : (flagMisuse s).dlyCnt = s.dlyCnt := rfl
@[simp] theorem flagMisuse_env (s : State) : (flagMisuse s).env = s.env := rfl
@[simp] theorem flagMisuse_params (s : State) : (flagMisuse s).params = s.params := rfl
@[simp] theorem flagMisuse_now (s : State) : (flagMisuse s).now = s.now := rfl
@[simp] theorem flagMisuse_trace (s : State) : (flagMisuse s).trace = s.trace := rfl
@[simp] theorem flagMisuse_grain (s : State) : (flagMisuse s).grain = s.grain := rfl
@[simp] theorem flagMisuse_budget (s : State) : (flagMisuse s).budget = s.budget := rfl

@[simp] theorem flagIllegal_seq (s : State) : (flagIllegal s).seq = { s.seq with illegal := true } := rfl
@[simp] theorem flagIllegal_pge (s : State) : (flagIllegal s).pge = s.pge := rfl
@[simp] theorem flagIllegal_dlyCnt (s : State) : (flagIllegal s).dlyCnt = s.dlyCnt := rfl
@[simp] theorem flagIllegal_env (s : State) : (flagIllegal s).env = s.env := rfl
@[simp] theorem flagIllegal_params (s : State) : (flagIllegal s).params = s.params := rfl
@[simp] theorem flagIllegal_now (s : State) : (flagIllegal s).now = s.now := rfl
@[simp] theorem flagIllegal_trace (s : State) : (flagIllegal s).trace = s.trace := rfl
@[simp] theorem flagIllegal_grain (s : State) : (flagIllegal s).grain = s.grain := rfl
@[simp] theorem flagIllegal_budget (s : State) : (flagIllegal s).budget = s.budget := rfl

@[simp] theorem writePin_seq (p : Pin) (v : Bool) (s : State) : (writePin p v s).seq = setLatch p v s.seq := rfl
@[simp] theorem writePin_pge (p : Pin) (v : Bool) (s : State) : (writePin p v s).pge = s.pge := rfl
@[simp] theorem writePin_dlyCnt (p : Pin) (v : Bool) (s : State) : (writePin p v s).dlyCnt = s.dlyCnt := rfl
@[simp] theorem writePin_env (p : Pin) (v : Bool) (s : State) : (writePin p v s).env = s.env := rfl
@[simp] theorem writePin_params (p : Pin) (v : Bool) (s : State) : (writePin p v s).params = s.params := rfl
@[simp] theorem writePin_now (p : Pin) (v : Bool) (s : State) : (writePin p v s).now = s.now := rfl
@[simp] theorem writePin_trace (p : Pin) (v : Bool) (s : State) : (writePin p v s).trace = s.trace ++ [⟨s.now, .pin p v⟩] := rfl
@[simp] theorem writePin_grain (p : Pin) (v : Bool) (s : State) : (writePin p v s).grain = s.grain := rfl
@[simp] theorem writePin_budget (p : Pin) (v : Bool) (s : State) : (writePin p v s).budget = s.budget := rfl

@[simp] theorem openStep_seq (s : State) : (openStep s).seq = s.seq := rfl
@[simp] theorem openStep_pge (s : State) : (openStep s).pge = s.pge := rfl
@[simp] theorem openStep_dlyCnt (s : State) : (openStep s).dlyCnt = s.dlyCnt := rfl
@[simp] theorem openStep_env (s : State) : (openStep s).env = s.env := rfl
@[simp] theorem openStep_params (s : State) : (openStep s).params = s.params := rfl
@[simp] theorem openStep_now (s : State) : (openStep s).now = s.now := rfl
@[simp] theorem openStep_trace (s : State) : (openStep s).trace = s.trace := rfl
@[simp] theorem openStep_grain (s : State) : (openStep s).grain = s.grain := rfl
@[simp] theorem openStep_budget (s : State) : (openStep s).budget = s.grain.map (max 1) := rfl

@[simp] theorem closeStep_seq (s : State) : (closeStep s).seq = s.seq := rfl
@[simp] theorem closeStep_pge (s : State) : (closeStep s).pge = s.pge := rfl
@[simp] theorem closeStep_dlyCnt (s : State) : (closeStep s).dlyCnt = s.dlyCnt := rfl
@[simp] theorem closeStep_env (s : State) : (closeStep s).env = s.env := rfl
@[simp] theorem closeStep_params (s : State) : (closeStep s).params = s.params := rfl
@[simp] theorem closeStep_now (s : State) : (closeStep s).now = s.now := rfl
@[simp] theorem closeStep_trace (s : State) : (closeStep s).trace = s.trace := rfl
@[simp] theorem closeStep_grain (s : State) : (closeStep s).grain = s.grain := rfl
@[simp] theorem closeStep_budget (s : State) : (closeStep s).budget = none := rfl

@[simp] theorem nextStep_seq (s : State) : (nextStep s).seq = { s.seq with seqStep := s.seq.seqStep + 1, seqSub := 0 } := rfl
@[simp] theorem nextStep_pge (s : State) : (nextStep s).pge = s.pge := rfl
@[simp] theorem nextStep_dlyCnt (s : State) : (nextStep s).dlyCnt = s.dlyCnt := rfl
@[simp] theorem nextStep_env (s : State) : (nextStep s).env = s.env := rfl
@[simp] theorem nextStep_params (s : State) : (nextStep s).params = s.params := rfl
@[simp] theorem nextStep_now (s : State) : (nextStep s).now = s.now := rfl
@[simp] theorem nextStep_trace (s : State) : (nextStep s).trace = s.trace := rfl
@[simp] theorem nextStep_grain (s : State) : (nextStep s).grain = s.grain := rfl
@[simp] theorem nextStep_budget (s : State) : (nextStep s).budget = s.budget := rfl

@[simp] theorem startPulse_seq (s : State) : (startPulse s).seq = s.seq := rfl
@[simp] theorem startPulse_pge (s : State) : (startPulse s).pge = { s.pge with pgPh := .ph0, pgCnt := s.seq.pgD0, ckv := true } := rfl
@[simp] theorem startPulse_dlyCnt (s : State) : (startPulse s).dlyCnt = s.dlyCnt := rfl
@[simp] theorem startPulse_env (s : State) : (startPulse s).env = s.env := rfl
@[simp] theorem startPulse_params (s : State) : (startPulse s).params = s.params := rfl
@[simp] theorem startPulse_now (s : State) : (startPulse s).now = s.now := rfl
@[simp] theorem startPulse_trace (s : State) : (startPulse s).trace = s.trace ++ [⟨s.now, .ckv true⟩] := rfl
@[simp] theorem startPulse_grain (s : State) : (startPulse s).grain = s.grain := rfl
@[simp] theorem startPulse_budget (s : State) : (startPulse s).budget = s.budget := rfl

@[simp] theorem notifyStep_seq (s : State) : (notifyStep s).seq = s.seq := rfl
@[simp] theorem notifyStep_pge (s : State) : (notifyStep s).pge = { s.pge with pgDone := true, pgPh := .idle } := rfl
@[simp] theorem notifyStep_dlyCnt (s : State) : (notifyStep s).dlyCnt = s.dlyCnt := rfl
@[simp] theorem notifyStep_env (s : State) : (notifyStep s).env = { s.env with tNotify := s.env.tNotify.pop } := rfl
@[simp] theorem notifyStep_params (s : State) : (notifyStep s).params = s.params := rfl
@[simp] theorem notifyStep_now (s : State) : (notifyStep s).now = s.now := rfl
@[simp] theorem notifyStep_trace (s : State) : (notifyStep s).trace = s.trace ++ [⟨s.now, .notify⟩] := rfl
@[simp] theorem notifyStep_grain (s : State) : (notifyStep s).grain = s.grain := rfl
@[simp] theorem notifyStep_budget (s : State) : (notifyStep s).budget = s.budget := rfl

@[simp] theorem takeRst_seq (s : State) : (s.takeRst).seq = s.seq := rfl
@[simp] theorem takeRst_pge (s : State) : (s.takeRst).pge = s.pge := rfl
@[simp] theorem takeRst_dlyCnt (s : State) : (s.takeRst).dlyCnt = s.dlyCnt := rfl
@[simp] theorem takeRst_env (s : State) : (s.takeRst).env = { s.env with rst := s.env.rst.pop } := rfl
@[simp] theorem takeRst_params (s : State) : (s.takeRst).params = s.params := rfl
@[simp] theorem takeRst_now (s : State) : (s.takeRst).now = s.now := rfl
@[simp] theorem takeRst_trace (s : State) : (s.takeRst).trace = s.trace := rfl
@[simp] theorem takeRst_grain (s : State) : (s.takeRst).grain = s.grain := rfl
@[simp] theorem takeRst_budget (s : State) : (s.takeRst).budget = s.budget := rfl

@[simp] theorem dropCmd_seq (s : State) : (s.dropCmd).seq = s.seq := rfl
@[simp] theorem dropCmd_pge (s : State) : (s.dropCmd).pge = s.pge := rfl
@[simp] theorem dropCmd_dlyCnt (s : State) : (s.dropCmd).dlyCnt = s.dlyCnt := rfl
@[simp] theorem dropCmd_env (s : State) : (s.dropCmd).env = s.env.nextTurn := rfl
@[simp] theorem dropCmd_params (s : State) : (s.dropCmd).params = s.params := rfl
@[simp] theorem dropCmd_now (s : State) : (s.dropCmd).now = s.now := rfl
@[simp] theorem dropCmd_trace (s : State) : (s.dropCmd).trace = s.trace := rfl
@[simp] theorem dropCmd_grain (s : State) : (s.dropCmd).grain = s.grain := rfl
@[simp] theorem dropCmd_budget (s : State) : (s.dropCmd).budget = s.budget := rfl

/-- HOST's turn moves its own input on, and no other. -/
theorem nextTurn_eq (e : Env) : ∃ cs n, e.nextTurn = { e with cmds := cs, cmdsLater := n } := by
  unfold Env.nextTurn
  split
  · split
    · exact ⟨_, _, rfl⟩
    · exact ⟨_, _, rfl⟩
  · exact ⟨_, _, rfl⟩

@[simp] theorem nextTurn_rst (e : Env) : e.nextTurn.rst = e.rst := by obtain ⟨_, _, h⟩ := nextTurn_eq e; rw [h]
@[simp] theorem nextTurn_variant (e : Env) : e.nextTurn.variant = e.variant := by obtain ⟨_, _, h⟩ := nextTurn_eq e; rw [h]
@[simp] theorem nextTurn_busBusy (e : Env) : e.nextTurn.busBusy = e.busBusy := by obtain ⟨_, _, h⟩ := nextTurn_eq e; rw [h]
@[simp] theorem nextTurn_busInitOk (e : Env) : e.nextTurn.busInitOk = e.busInitOk := by
  obtain ⟨_, _, h⟩ := nextTurn_eq e; rw [h]
@[simp] theorem nextTurn_pgAllocOk (e : Env) : e.nextTurn.pgAllocOk = e.pgAllocOk := by
  obtain ⟨_, _, h⟩ := nextTurn_eq e; rw [h]
@[simp] theorem nextTurn_busCurbuf (e : Env) : e.nextTurn.busCurbuf = e.busCurbuf := by
  obtain ⟨_, _, h⟩ := nextTurn_eq e; rw [h]
@[simp] theorem nextTurn_tStep (e : Env) : e.nextTurn.tStep = e.tStep := by obtain ⟨_, _, h⟩ := nextTurn_eq e; rw [h]
@[simp] theorem nextTurn_tAccept (e : Env) : e.nextTurn.tAccept = e.tAccept := by
  obtain ⟨_, _, h⟩ := nextTurn_eq e; rw [h]
@[simp] theorem nextTurn_tNotify (e : Env) : e.nextTurn.tNotify = e.tNotify := by obtain ⟨_, _, h⟩ := nextTurn_eq e; rw [h]

/-- The turns in the list come first. -/
@[simp] theorem turn_cons (e : Env) (c : Option CmdWord) (cs : List (Option CmdWord)) :
    ({ e with cmds := c :: cs } : Env).turn = c := rfl
@[simp] theorem nextTurn_cons (e : Env) (c : Option CmdWord) (cs : List (Option CmdWord)) :
    ({ e with cmds := c :: cs } : Env).nextTurn = { e with cmds := cs } := rfl

/-- What a step with `rst` low and SEQ idle uses up. -/
theorem takeRst_dropCmd (s : State) :
    s.takeRst.dropCmd = { s with env := { s.env.nextTurn with rst := s.env.rst.pop } } := by
  unfold State.dropCmd State.takeRst Env.nextTurn
  split
  · split <;> simp_all
  · simp_all

/-- A reset leaves every input but a cut pulse's notification (70_reset_and_hazards.md R230, log 4). -/
theorem applyReset_env (s : State) :
    (applyReset s).env = if s.pge.pgPh = .idle then s.env else { s.env with tNotify := s.env.tNotify.pop } := by
  unfold applyReset
  by_cases h : s.pge.ckv = true <;> simp [h]

@[simp] theorem applyReset_seq (s : State) : (applyReset s).seq = SeqRegs.reset := rfl
@[simp] theorem applyReset_pge (s : State) : (applyReset s).pge = PgeRegs.reset := rfl
@[simp] theorem applyReset_dlyCnt (s : State) : (applyReset s).dlyCnt = 0 := rfl
@[simp] theorem applyReset_params (s : State) : (applyReset s).params = s.params := by
  unfold applyReset; split <;> rfl
@[simp] theorem applyReset_grain (s : State) : (applyReset s).grain = s.grain := by
  unfold applyReset; split <;> rfl
@[simp] theorem applyReset_trace (s : State) :
    (applyReset s).trace = s.trace ++ (if s.pge.ckv then [⟨s.now, .ckv false⟩] else []) := by
  unfold applyReset; split <;> simp [*]

@[simp] theorem illegalWord_seq (s : State) : (illegalWord s).seq = { s.seq with illegal := true } := rfl
@[simp] theorem illegalWord_pge (s : State) : (illegalWord s).pge = s.pge := rfl
@[simp] theorem illegalWord_dlyCnt (s : State) : (illegalWord s).dlyCnt = s.dlyCnt := rfl
@[simp] theorem illegalWord_env (s : State) : (illegalWord s).env = s.env := rfl
@[simp] theorem illegalWord_params (s : State) : (illegalWord s).params = s.params := rfl
@[simp] theorem illegalWord_now (s : State) : (illegalWord s).now = s.now := rfl
@[simp] theorem illegalWord_trace (s : State) : (illegalWord s).trace = s.trace ++ [⟨s.now, .rsp 2 0⟩] := rfl
@[simp] theorem illegalWord_grain (s : State) : (illegalWord s).grain = s.grain := rfl
@[simp] theorem illegalWord_budget (s : State) : (illegalWord s).budget = s.budget := rfl

theorem checkLegal_seq (o : Opcode) (s : State) :
    (checkLegal o s).seq = { s.seq with misuse := s.seq.misuse || !legalSet o s.seq.psm } := by
  unfold checkLegal
  cases h : legalSet o s.seq.psm <;> simp

@[simp] theorem checkLegal_pge (o : Opcode) (s : State) : (checkLegal o s).pge = s.pge := by
  unfold checkLegal; split <;> rfl

@[simp] theorem checkLegal_dlyCnt (o : Opcode) (s : State) : (checkLegal o s).dlyCnt = s.dlyCnt := by
  unfold checkLegal; split <;> rfl

@[simp] theorem checkLegal_env (o : Opcode) (s : State) : (checkLegal o s).env = s.env := by
  unfold checkLegal; split <;> rfl

@[simp] theorem checkLegal_params (o : Opcode) (s : State) : (checkLegal o s).params = s.params := by
  unfold checkLegal; split <;> rfl

@[simp] theorem checkLegal_now (o : Opcode) (s : State) : (checkLegal o s).now = s.now := by
  unfold checkLegal; split <;> rfl

@[simp] theorem checkLegal_trace (o : Opcode) (s : State) : (checkLegal o s).trace = s.trace := by
  unfold checkLegal; split <;> rfl

@[simp] theorem checkLegal_grain (o : Opcode) (s : State) : (checkLegal o s).grain = s.grain := by
  unfold checkLegal; split <;> rfl

@[simp] theorem checkLegal_budget (o : Opcode) (s : State) : (checkLegal o s).budget = s.budget := by
  unfold checkLegal; split <;> rfl

@[simp] theorem accept_pge (i : Instr) (s : State) : (accept i s).pge = s.pge := by simp [accept]
@[simp] theorem accept_dlyCnt (i : Instr) (s : State) : (accept i s).dlyCnt = s.dlyCnt := by simp [accept]
@[simp] theorem accept_env (i : Instr) (s : State) : (accept i s).env = s.env := by simp [accept]
@[simp] theorem accept_params (i : Instr) (s : State) : (accept i s).params = s.params := by simp [accept]
@[simp] theorem accept_now (i : Instr) (s : State) : (accept i s).now = s.now := by simp [accept]
@[simp] theorem accept_trace (i : Instr) (s : State) : (accept i s).trace = s.trace := by simp [accept]
@[simp] theorem accept_grain (i : Instr) (s : State) : (accept i s).grain = s.grain := by simp [accept]
@[simp] theorem accept_budget (i : Instr) (s : State) : (accept i s).budget = s.budget := by simp [accept]

/-- SEQ's registers at acceptance (10_state.md R26, 42_panel_protocol.md R161, R162). -/
theorem accept_seq (i : Instr) (s : State) :
    (accept i s).seq =
      { s.seq with
        psm := psmDuring i.opcode s.seq.psm, misuse := s.seq.misuse || !legalSet i.opcode s.seq.psm
        seqOp := i.opcode.code, seqStep := 1, seqSub := 0
        a := i.fieldA, b := i.fieldB, w := i.fieldW } := by
  simp [accept, checkLegal_seq]

end Sys2Proof.Machine
end

