-- ==== Sys2Proof/Laws/Time.lean ====
section
/-! SUPPORT. What the passing of time and the pulse engine can do (40_pulse_generator.md R126 to R129). -/

namespace Sys2Proof.Machine

@[simp] theorem Feed.head_pop_nil {α : Type} (x : α) : (Feed.mk [] x).head = x := rfl
@[simp] theorem Feed.head_cons {α : Type} (x : α) (xs : List α) (r : α) : (Feed.mk (x :: xs) r).head = x := rfl
@[simp] theorem Feed.head_setHead {α : Type} (f : Feed α) (x : α) : (f.setHead x).head = x := rfl
@[simp] theorem Feed.pop_rest {α : Type} (f : Feed α) : f.pop.rest = f.rest := rfl

/-- `t` is `s` after nothing but PGE steps and time: SEQ's registers, the parameters and the other inputs are as
before, the trace has grown by events of PGE only, and an idle PGE has done nothing. -/
structure Drift (s t : State) : Prop where
  seq : t.seq = s.seq
  params : t.params = s.params
  grain : t.grain = s.grain
  budget : t.budget = s.budget
  env : { t.env with tNotify := s.env.tNotify } = s.env
  held : t.env.held = s.env.held
  trace : ∃ es, t.trace = s.trace ++ es ∧ es.all (·.ev.byPge) = true
  idle : s.pge.pgPh = .idle → t.pge = s.pge ∧ t.trace = s.trace ∧ t.env = s.env

theorem Drift.refl (s : State) : Drift s s :=
  ⟨rfl, rfl, rfl, rfl, rfl, rfl, ⟨[], by simp⟩, fun _ => ⟨rfl, rfl, rfl⟩⟩

theorem Drift.trans {s t u : State} (h : Drift s t) (k : Drift t u) : Drift s u where
  seq := k.seq.trans h.seq
  params := k.params.trans h.params
  grain := k.grain.trans h.grain
  budget := k.budget.trans h.budget
  env := by
    have h1 := h.env
    have h2 := k.env
    rw [← h2] at h1
    simpa using h1
  held := k.held.trans h.held
  trace := by
    obtain ⟨es, he, ha⟩ := h.trace
    obtain ⟨fs, hf, hb⟩ := k.trace
    exact ⟨es ++ fs, by simp [he, hf], by simp only [List.all_append, ha, hb, Bool.and_self]⟩
  idle := fun hi => by
    obtain ⟨h1, h2, h3⟩ := h.idle hi
    obtain ⟨k1, k2, k3⟩ := k.idle (by rw [h1]; exact hi)
    exact ⟨k1.trans h1, k2.trans h2, k3.trans h3⟩

/-- Events of PGE behind the trace are none of SEQ's. -/
theorem seqEvents_of_trace {s t : State} {es : List Stamped} (he : t.trace = s.trace ++ es)
    (ha : es.all (·.ev.byPge) = true) : t.seqEvents = s.seqEvents := by
  have : (es.map (·.ev)).filter (fun e => !e.byPge) = [] := by
    rw [List.filter_eq_nil_iff]
    intro e hm
    obtain ⟨x, hx, rfl⟩ := List.mem_map.mp hm
    simpa using List.all_eq_true.mp ha x hx
  simp [State.seqEvents, State.events, he, this]

/-- A drift adds no event of SEQ. -/
theorem Drift.seqEvents {s t : State} (h : Drift s t) : t.seqEvents = s.seqEvents := by
  obtain ⟨es, he, ha⟩ := h.trace
  exact seqEvents_of_trace he ha

/-- A drift only adds events of PGE. -/
theorem Drift.pgeEvents {s t : State} (h : Drift s t) : ∃ es, t.pgeEvents = s.pgeEvents ++ es := by
  obtain ⟨es, he, -⟩ := h.trace
  exact ⟨(es.map (·.ev)).filter (fun e => e.byPge), by simp [State.pgeEvents, State.events, he]⟩

/-- A change outside PG_IDLE of PGE's registers and the coming latency, with some events of PGE. -/
theorem Drift.of_busy {s t : State} (hi : s.pge.pgPh ≠ .idle) (seq : t.seq = s.seq) (params : t.params = s.params)
    (grain : t.grain = s.grain) (budget : t.budget = s.budget) (env : { t.env with tNotify := s.env.tNotify } = s.env)
    (held : t.env.held = s.env.held)
    (trace : ∃ es, t.trace = s.trace ++ es ∧ es.all (·.ev.byPge) = true) : Drift s t :=
  ⟨seq, params, grain, budget, env, held, trace, fun h => absurd h hi⟩

theorem notifyIfDue_drift (s : State) (h : s.pge.pgPh ≠ .idle) : Drift s (notifyIfDue s) := by
  unfold notifyIfDue
  split
  · exact .of_busy h rfl rfl rfl rfl rfl rfl ⟨[⟨s.now, .notify⟩], rfl, rfl⟩
  · exact Drift.refl s
  · exact Drift.refl s

theorem enterNotify_drift (s : State) (h : s.pge.pgPh ≠ .idle) : Drift s (enterNotify s) := by
  unfold enterNotify
  refine Drift.trans ?_ (notifyIfDue_drift _ (by simp))
  exact .of_busy h rfl rfl rfl rfl rfl rfl ⟨[], by simp⟩

theorem endPhase0_drift (s : State) (h : s.pge.pgPh ≠ .idle) : Drift s (endPhase0 s) := by
  unfold endPhase0
  split
  · exact .of_busy h rfl rfl rfl rfl rfl rfl ⟨[⟨s.now, .ckv false⟩], rfl, rfl⟩
  · refine Drift.trans ?_ (enterNotify_drift _ h)
    exact .of_busy h rfl rfl rfl rfl rfl rfl ⟨[⟨s.now, .ckv false⟩], rfl, rfl⟩

theorem pgeTick_drift (s : State) : Drift s (pgeTick s) := by
  unfold pgeTick
  split
  · exact Drift.refl s
  · rename_i h
    have h : s.pge.pgPh ≠ .idle := by simp [h]
    split
    · exact endPhase0_drift s h
    · exact .of_busy h rfl rfl rfl rfl rfl rfl ⟨[], by simp⟩
  · rename_i h
    have h : s.pge.pgPh ≠ .idle := by simp [h]
    split
    · exact enterNotify_drift s h
    · exact .of_busy h rfl rfl rfl rfl rfl rfl ⟨[], by simp⟩
  · rename_i h
    have h : s.pge.pgPh ≠ .idle := by simp [h]
    split
    · exact Drift.refl s
    · refine Drift.trans ?_ (notifyIfDue_drift _ h)
      exact .of_busy h rfl rfl rfl rfl rfl rfl ⟨[], by simp⟩

theorem tick_drift (s : State) : Drift s (tick s) := by
  unfold tick
  refine Drift.trans ?_ (pgeTick_drift _)
  exact ⟨rfl, rfl, rfl, rfl, rfl, rfl, ⟨[], by simp⟩, fun _ => ⟨rfl, rfl, rfl⟩⟩

theorem idleTicks_drift (n : Nat) (s : State) : Drift s (idleTicks n s) :=
  ⟨rfl, rfl, rfl, rfl, rfl, rfl, ⟨[], by simp [idleTicks]⟩, fun _ => ⟨rfl, rfl, rfl⟩⟩

/-- Everything `n` ticks can do. -/
theorem elapse_drift (n : Nat) (s : State) : Drift s (elapse n s) := by
  induction n generalizing s with
  | zero => exact Drift.refl s
  | succ n ih =>
    unfold elapse
    split
    · exact idleTicks_drift _ s
    all_goals exact Drift.trans (tick_drift s) (ih (tick s))

/-! ### What is played and what is still to come -/

theorem notifyIfDue_tale (s : State) (h : s.pge.pgPh = .notify) : (notifyIfDue s).pgeTale = s.pgeTale := by
  unfold notifyIfDue
  split
  · simp [State.pgeTale, State.pgeEvents, State.events, h, PgPh.ahead, Event.byPge]
  all_goals rfl

/-- No step of PGE changes the tale of the pulse in flight (40_pulse_generator.md R126 to R129). -/
theorem pgeTick_tale (s : State) : (pgeTick s).pgeTale = s.pgeTale := by
  unfold pgeTick
  split
  · rfl
  · rename_i h
    split
    · unfold endPhase0
      split
      · simp [State.pgeTale, State.pgeEvents, State.events, h, PgPh.ahead, Event.byPge]
      · unfold enterNotify
        rw [notifyIfDue_tale _ rfl]
        simp [State.pgeTale, State.pgeEvents, State.events, h, PgPh.ahead, Event.byPge]
    · simp [State.pgeTale, State.pgeEvents, State.events, h]
  · rename_i h
    split
    · unfold enterNotify
      rw [notifyIfDue_tale _ rfl]
      simp [State.pgeTale, State.pgeEvents, State.events, h, PgPh.ahead]
    · simp [State.pgeTale, State.pgeEvents, State.events, h]
  · rename_i h
    split
    · rfl
    · exact notifyIfDue_tale _ h

theorem elapse_tale (n : Nat) (s : State) : (elapse n s).pgeTale = s.pgeTale := by
  induction n generalizing s with
  | zero => rfl
  | succ n ih =>
    unfold elapse
    split
    · rfl
    all_goals rw [ih]; exact pgeTick_tale _

/-! ### The clock and DLY_CNT -/

theorem pgeTick_now (s : State) : (pgeTick s).now = s.now := by
  unfold pgeTick endPhase0 enterNotify notifyIfDue
  repeat' split
  all_goals rfl

theorem pgeTick_dlyCnt (s : State) : (pgeTick s).dlyCnt = s.dlyCnt := by
  unfold pgeTick endPhase0 enterNotify notifyIfDue
  repeat' split
  all_goals rfl

@[simp] theorem tick_now (s : State) : (tick s).now = s.now + 1 := by simp [tick, pgeTick_now]

theorem tick_dlyCnt (s : State) : (tick s).dlyCnt = BitVec.ofNat 16 (s.dlyCnt.toNat - 1) := by
  simp only [tick, pgeTick_dlyCnt]
  split
  · rename_i h; simp [h]
  · rename_i h
    have h0 : s.dlyCnt.toNat ≠ 0 := fun hz => h (BitVec.eq_of_toNat_eq (by simpa using hz))
    have h1 := s.dlyCnt.isLt
    apply BitVec.eq_of_toNat_eq
    simp [BitVec.toNat_sub]
    omega

@[simp] theorem elapse_now (n : Nat) (s : State) : (elapse n s).now = s.now + n := by
  induction n generalizing s with
  | zero => rfl
  | succ n ih =>
    unfold elapse
    split
    · rfl
    all_goals simp [ih]; omega

theorem elapse_dlyCnt (n : Nat) (s : State) : (elapse n s).dlyCnt = BitVec.ofNat 16 (s.dlyCnt.toNat - n) := by
  induction n generalizing s with
  | zero => simp [elapse]
  | succ n ih =>
    have h1 := s.dlyCnt.isLt
    unfold elapse
    split
    · rfl
    all_goals
      rw [ih, tick_dlyCnt]
      simp only [BitVec.toNat_ofNat]
      congr 1
      omega

/-- `elapse` is `tick`, again and again: the shortcut for an idle engine changes nothing. -/
theorem elapse_succ (n : Nat) (s : State) : elapse (n + 1) s = elapse n (tick s) := by
  conv => lhs; unfold elapse
  split
  · rename_i h
    have ht : tick s = idleTicks 1 s := by
      have hd := tick_dlyCnt s
      simp only [tick, pgeTick, h] at hd ⊢
      simp only [idleTicks, ← hd]
    rw [ht]
    cases n with
    | zero => rfl
    | succ n =>
      have h1 := s.dlyCnt.isLt
      unfold elapse
      simp only [idleTicks, h]
      congr 1
      · simp only [BitVec.toNat_ofNat]; congr 1; omega
      · omega
  all_goals rfl

theorem elapse_add (m n : Nat) (s : State) : elapse (m + n) s = elapse n (elapse m s) := by
  induction m generalizing s with
  | zero => simp [elapse]
  | succ m ih => rw [show m + 1 + n = (m + n) + 1 by omega, elapse_succ, elapse_succ, ih]

/-! ### The engine stays consistent, and a fair notification comes -/

theorem consistent_done {p : PgeRegs} (h : p.consistent = true) : p.pgDone = (p.pgPh == .idle) := by
  simp [PgeRegs.consistent] at h; exact h.1

theorem consistent_ckv {p : PgeRegs} (h : p.consistent = true) : p.ckv = (p.pgPh == .ph0) := by
  simp [PgeRegs.consistent] at h; exact h.2

theorem consistent_idle {p : PgeRegs} (h : p.consistent = true) : p.pgPh = .idle ↔ p.pgDone = true := by
  rw [consistent_done h]; simp

theorem pgeTick_consistent (s : State) (h : s.pge.consistent = true) : (pgeTick s).pge.consistent = true := by
  have hd := consistent_done h
  have hk := consistent_ckv h
  unfold pgeTick endPhase0 enterNotify notifyIfDue
  repeat' split
  all_goals simp_all [PgeRegs.consistent]

theorem tick_consistent (s : State) (h : s.pge.consistent = true) : (tick s).pge.consistent = true :=
  pgeTick_consistent _ h

theorem elapse_consistent (n : Nat) (s : State) (h : s.pge.consistent = true) : (elapse n s).pge.consistent = true := by
  induction n generalizing s with
  | zero => exact h
  | succ n ih => rw [elapse_succ]; exact ih _ (tick_consistent s h)

theorem notifies_pop {e : Env} (h : e.notifies = true) : { e with tNotify := e.tNotify.pop }.notifies = true := by
  unfold Env.notifies at *
  cases hn : e.tNotify.next with
  | nil => simp_all [Feed.pop]
  | cons x xs => simp_all [Feed.pop]

theorem notifies_setHead {e : Env} (k : Nat) (h : e.notifies = true) :
    { e with tNotify := e.tNotify.setHead (some k) }.notifies = true := by
  unfold Env.notifies at *
  cases hn : e.tNotify.next with
  | nil => simp_all [Feed.setHead]
  | cons x xs => simp_all [Feed.setHead]

/-- Under fairness the coming notification has a finite latency. -/
theorem notifies_head {e : Env} (h : e.notifies = true) : ∃ k, e.tNotify.head = some k := by
  unfold Env.notifies at h
  cases hn : e.tNotify.next with
  | nil =>
    simp [hn] at h
    obtain ⟨k, hk⟩ := Option.isSome_iff_exists.mp h
    exact ⟨k, by simp [Feed.head, hn, hk]⟩
  | cons x xs =>
    simp [hn] at h
    obtain ⟨k, hk⟩ := Option.isSome_iff_exists.mp h.2.1
    exact ⟨k, by simp [Feed.head, hn, hk]⟩

theorem notifyIfDue_notifies (s : State) (h : s.env.notifies = true) : (notifyIfDue s).env.notifies = true := by
  unfold notifyIfDue
  split
  · exact notifies_pop h
  · exact h
  · exact h

theorem pgeTick_notifies (s : State) (h : s.env.notifies = true) : (pgeTick s).env.notifies = true := by
  unfold pgeTick
  split
  · exact h
  · split
    · unfold endPhase0; split
      · exact h
      · exact notifyIfDue_notifies _ h
    · exact h
  · split
    · exact notifyIfDue_notifies _ h
    · exact h
  · split
    · exact h
    · exact notifyIfDue_notifies _ (notifies_setHead _ h)

theorem elapse_notifies (n : Nat) (s : State) (h : s.env.notifies = true) : (elapse n s).env.notifies = true := by
  induction n generalizing s with
  | zero => exact h
  | succ n ih => rw [elapse_succ]; exact ih _ (pgeTick_notifies _ h)

/-! ### What time depends on -/

/-- Two states whose engines have played alike from `s0` and `t0` on. -/
structure Abreast (s0 t0 s t : State) : Prop where
  pge : t.pge = s.pge
  d1 : t.seq.pgD1 = s.seq.pgD1
  p1p : t.seq.pgP1p = s.seq.pgP1p
  notify : t.env.tNotify = s.env.tNotify
  dly : t.dlyCnt = s.dlyCnt
  now : t.now = s.now
  trace : ∃ es, s.trace = s0.trace ++ es ∧ t.trace = t0.trace ++ es

theorem Abreast.emit {s0 t0 s t : State} (h : Abreast s0 t0 s t) (e : Event) :
    Abreast s0 t0 (emitEvent e s) (emitEvent e t) := by
  obtain ⟨es, h1, h2⟩ := h.trace
  exact { h with trace := ⟨es ++ [⟨s.now, e⟩], by simp [h1], by simp [h2, h.now]⟩ }

theorem Abreast.notifyIfDue {s0 t0 s t : State} (h : Abreast s0 t0 s t) :
    Abreast s0 t0 (notifyIfDue s) (notifyIfDue t) := by
  unfold Machine.notifyIfDue
  rw [h.notify]
  split
  · unfold notifyStep
    refine Abreast.emit ?_ _
    exact ⟨by simp [h.pge], h.d1, h.p1p, by simp [h.notify], h.dly, h.now, h.trace⟩
  all_goals exact h

theorem Abreast.pgeTick {s0 t0 s t : State} (h : Abreast s0 t0 s t) : Abreast s0 t0 (pgeTick s) (pgeTick t) := by
  have enter : ∀ {s t : State}, Abreast s0 t0 s t → Abreast s0 t0 (enterNotify s) (enterNotify t) := fun h =>
    Abreast.notifyIfDue ⟨by simp [h.pge], h.d1, h.p1p, h.notify, h.dly, h.now, h.trace⟩
  have level : Abreast s0 t0 { s with pge := { s.pge with ckv := false } } { t with pge := { t.pge with ckv := false } } :=
    ⟨by simp [h.pge], h.d1, h.p1p, h.notify, h.dly, h.now, h.trace⟩
  unfold Machine.pgeTick
  rw [h.pge]
  split
  · exact h
  · split
    · unfold endPhase0
      rw [h.p1p, h.d1]
      split
      · refine Abreast.emit ?_ _
        exact ⟨by simp [h.pge], h.d1, h.p1p, h.notify, h.dly, h.now, h.trace⟩
      · exact enter (level.emit _)
    · exact ⟨rfl, h.d1, h.p1p, h.notify, h.dly, h.now, h.trace⟩
  · split
    · exact enter h
    · exact ⟨rfl, h.d1, h.p1p, h.notify, h.dly, h.now, h.trace⟩
  · rw [h.notify]
    split
    · exact h
    · exact Abreast.notifyIfDue ⟨rfl, h.d1, h.p1p, by simp, h.dly, h.now, h.trace⟩

/-- Time treats them alike. -/
theorem Abreast.elapse {s0 t0 : State} (n : Nat) : ∀ {s t : State}, Abreast s0 t0 s t →
    Abreast s0 t0 (elapse n s) (elapse n t) := by
  induction n with
  | zero => exact fun h => h
  | succ n ih =>
    intro s t h
    rw [elapse_succ, elapse_succ]
    exact ih (Abreast.pgeTick ⟨h.pge, h.d1, h.p1p, h.notify, by simp [h.dly], by simp [h.now], h.trace⟩)

/-- The engine, DLY_CNT and the events of PGE after `n` ticks do not depend on where SEQ is. -/
theorem Abreast.of_eq {s t : State} (pge : t.pge = s.pge) (d1 : t.seq.pgD1 = s.seq.pgD1) (p1p : t.seq.pgP1p = s.seq.pgP1p)
    (notify : t.env.tNotify = s.env.tNotify) (dly : t.dlyCnt = s.dlyCnt) (now : t.now = s.now) : Abreast s t s t :=
  ⟨pge, d1, p1p, notify, dly, now, [], by simp, by simp⟩

theorem Abreast.pgeEvents {s0 t0 s t : State} (h : Abreast s0 t0 s t) (h0 : t0.pgeEvents = s0.pgeEvents) :
    t.pgeEvents = s.pgeEvents := by
  obtain ⟨es, h1, h2⟩ := h.trace
  simp only [State.pgeEvents, State.events] at h0 ⊢
  rw [h1, h2, List.map_append, List.map_append, List.filter_append, List.filter_append, h0]

end Sys2Proof.Machine
end

