-- ==== Sys2Proof/Laws/Pulse.lean ====
section
/-! SUPPORT. A pulse in flight ends: after `ticksToDone` ticks the notification has come, if it comes at all
(40_pulse_generator.md R132, 70_reset_and_hazards.md R250). -/

namespace Sys2Proof.Machine

/-- No pulse in flight: PG_IDLE and PG_DONE = 1. -/
def PgeRegs.quiet (p : PgeRegs) : Prop := p.pgPh = .idle ∧ p.pgDone = true

theorem quiet_of_done {p : PgeRegs} (hc : p.consistent = true) (h : p.pgDone = true) : p.quiet :=
  ⟨(consistent_idle hc).mpr h, h⟩

theorem elapse_quiet (n : Nat) (s : State) (h : s.pge.quiet) : (elapse n s).pge.quiet := by
  have := ((elapse_drift n s).idle h.1).1
  rw [this]; exact h

/-- Once quiet, more ticks keep it so. -/
theorem quiet_mono {m n : Nat} {s : State} (h : (elapse m s).pge.quiet) (hmn : m ≤ n) : (elapse n s).pge.quiet := by
  obtain ⟨k, rfl⟩ := Nat.exists_eq_add_of_le hmn
  rw [elapse_add]; exact elapse_quiet k _ h

theorem notifyIfDue_zero (s : State) (h : s.env.tNotify.head = some 0) : (notifyIfDue s).pge.quiet := by
  simp [notifyIfDue, h, PgeRegs.quiet]

theorem notifyIfDue_succ (s : State) (k : Nat) (h : s.env.tNotify.head = some (k + 1)) : notifyIfDue s = s := by
  simp [notifyIfDue, h]

/-- In PG_NOTIFY with latency `k`, the notification comes within `max 1 k` ticks. -/
theorem notify_quiet (k : Nat) : ∀ s : State, s.pge.pgPh = .notify → s.env.tNotify.head = some k →
    (elapse (max 1 k) s).pge.quiet := by
  induction k with
  | zero =>
    intro s hp hk
    rw [show max 1 0 = 0 + 1 from rfl, elapse_succ]
    simp only [elapse, tick, pgeTick, hp, hk]
    exact notifyIfDue_zero _ rfl
  | succ k ih =>
    intro s hp hk
    rw [show max 1 (k + 1) = k + 1 by omega, elapse_succ]
    cases k with
    | zero =>
      simp only [elapse, tick, pgeTick, hp, hk]
      exact notifyIfDue_zero _ rfl
    | succ k =>
      have ht : (tick s).pge.pgPh = .notify ∧ (tick s).env.tNotify.head = some (k + 1) := by
        simp only [tick, pgeTick, hp, hk]
        rw [notifyIfDue_succ _ k rfl]
        exact ⟨hp, rfl⟩
      have := ih (tick s) ht.1 ht.2
      rwa [show max 1 (k + 1) = k + 1 by omega] at this

/-- After the waveform, the notification comes within its latency. -/
theorem enterNotify_quiet (s : State) (k : Nat) (hk : s.env.tNotify.head = some k) :
    (elapse k (enterNotify s)).pge.quiet := by
  cases k with
  | zero => exact notifyIfDue_zero _ hk
  | succ k =>
    unfold enterNotify
    rw [notifyIfDue_succ { s with pge := { s.pge with pgCnt := 0, pgPh := .notify } } k hk]
    have := notify_quiet (k + 1) { s with pge := { s.pge with pgCnt := 0, pgPh := .notify } } rfl hk
    rwa [show max 1 (k + 1) = k + 1 by omega] at this

/-- `n` ticks of a phase with more than `n` ticks left only count down. -/
theorem tick_counting (s : State) (hp : s.pge.pgPh = .ph0 ∨ s.pge.pgPh = .ph1) (hc : 1 < s.pge.pgCnt.toNat) :
    (tick s).pge = { s.pge with pgCnt := s.pge.pgCnt - 1 } ∧ (tick s).env = s.env ∧ (tick s).trace = s.trace := by
  have hn : ¬ s.pge.pgCnt.toNat ≤ 1 := by omega
  rcases hp with hp | hp <;> simp [tick, pgeTick, hp, hn]

theorem sub_one_toNat (v : Half) (h : 1 ≤ v.toNat) : (v - 1).toNat = v.toNat - 1 := by
  have := v.isLt
  simp [BitVec.toNat_sub]; omega

theorem ph1_quiet (c : Nat) : ∀ (s : State) (k : Nat), s.pge.pgPh = .ph1 → s.pge.pgCnt.toNat = c →
    s.env.tNotify.head = some k → (elapse (max 1 c + k) s).pge.quiet := by
  induction c with
  | zero =>
    intro s k hp hc hk
    rw [show max 1 0 + k = k + 1 by omega, elapse_succ]
    simp only [tick, pgeTick, hp, hc, Nat.zero_le, if_true]
    refine enterNotify_quiet _ k ?_; exact hk
  | succ c ih =>
    intro s k hp hc hk
    rw [show max 1 (c + 1) + k = (c + k) + 1 by omega, elapse_succ]
    cases c with
    | zero =>
      simp only [tick, pgeTick, hp, hc, if_true, Nat.zero_add, Nat.le_refl]
      refine enterNotify_quiet _ k ?_; exact hk
    | succ c =>
      obtain ⟨h1, h2, -⟩ := tick_counting s (.inr hp) (by omega)
      have := ih (tick s) k (by rw [h1]; exact hp) (by rw [h1]; simp only []; rw [sub_one_toNat _ (by omega)]; omega)
        (by rw [h2]; exact hk)
      rwa [show max 1 (c + 1) + k = c + 1 + k by omega] at this

theorem endPhase0_quiet (s : State) (k : Nat) (hk : s.env.tNotify.head = some k) :
    (elapse ((if s.seq.pgP1p then s.seq.pgD1.toNat else 0) + k) (endPhase0 s)).pge.quiet := by
  by_cases h : s.seq.pgP1p = true ∧ s.seq.pgD1 ≠ 0
  · have h0 : s.seq.pgD1.toNat ≠ 0 := fun hz => h.2 (BitVec.eq_of_toNat_eq (by simpa using hz))
    have := ph1_quiet s.seq.pgD1.toNat
      (emitEvent (.ckv false) { s with pge := { s.pge with ckv := false, pgPh := .ph1, pgCnt := s.seq.pgD1 } }) k rfl rfl hk
    rw [show max 1 s.seq.pgD1.toNat = s.seq.pgD1.toNat by omega] at this
    rw [endPhase0, if_pos h, if_pos h.1]
    exact this
  · have hz : (if s.seq.pgP1p then s.seq.pgD1.toNat else 0) = 0 := by
      split
      · rename_i hp
        have : s.seq.pgD1 = 0 := by simpa [hp] using h
        simp [this]
      · rfl
    rw [endPhase0, if_neg h, hz, Nat.zero_add]
    refine enterNotify_quiet _ k ?_
    exact hk

theorem ph0_quiet (c : Nat) : ∀ (s : State) (k : Nat), s.pge.pgPh = .ph0 → s.pge.pgCnt.toNat = c →
    s.env.tNotify.head = some k →
    (elapse (max 1 c + ((if s.seq.pgP1p then s.seq.pgD1.toNat else 0) + k)) s).pge.quiet := by
  induction c with
  | zero =>
    intro s k hp hc hk
    rw [show ∀ x, max 1 0 + x = x + 1 by intro x; omega, elapse_succ]
    simp only [tick, pgeTick, hp, hc, Nat.zero_le, if_true]
    exact endPhase0_quiet { s with now := s.now + 1, dlyCnt := if s.dlyCnt = 0 then 0 else s.dlyCnt - 1 } k hk
  | succ c ih =>
    intro s k hp hc hk
    rw [show ∀ x, max 1 (c + 1) + x = (c + x) + 1 by intro x; omega, elapse_succ]
    cases c with
    | zero =>
      simp only [tick, pgeTick, hp, hc, if_true, Nat.zero_add, Nat.le_refl]
      exact endPhase0_quiet { s with now := s.now + 1, dlyCnt := if s.dlyCnt = 0 then 0 else s.dlyCnt - 1 } k hk
    | succ c =>
      obtain ⟨h1, h2, -⟩ := tick_counting s (.inl hp) (by omega)
      have := ih (tick s) k (by rw [h1]; exact hp) (by rw [h1]; simp only []; rw [sub_one_toNat _ (by omega)]; omega)
        (by rw [h2]; exact hk)
      rw [(tick_drift s).seq] at this
      rwa [show ∀ x, max 1 (c + 1) + x = c + 1 + x by intro x; omega] at this

/-- A pulse in flight has ended after `max 1 (ticksToDone s)` ticks, when its notification comes at all. -/
theorem elapse_ticksToDone (s : State) (hn : s.env.notifies = true) (hb : s.pge.pgPh ≠ .idle) :
    (elapse (max 1 (ticksToDone s)) s).pge.quiet := by
  obtain ⟨k, hk⟩ := notifies_head hn
  cases hp : s.pge.pgPh with
  | idle => exact absurd hp hb
  | ph0 =>
    refine quiet_mono (ph0_quiet _ s k hp rfl hk) ?_
    simp only [ticksToDone, hp, hk]; omega
  | ph1 =>
    refine quiet_mono (ph1_quiet _ s k hp rfl hk) ?_
    simp only [ticksToDone, hp, hk]; omega
  | notify =>
    refine quiet_mono (notify_quiet k s hp hk) ?_
    simp only [ticksToDone, hp, hk]; omega

/-! ### A withheld notification -/

/-- A pulse in flight whose notification never comes (40_pulse_generator.md R129). -/
structure Withheld (s : State) : Prop where
  flight : s.pge.pgPh ≠ .idle
  never : s.env.tNotify = ⟨[], none⟩
  flag : s.pge.pgDone = false

theorem enterNotify_withheld (s : State) (hn : s.env.tNotify = ⟨[], none⟩) (hd : s.pge.pgDone = false) :
    Withheld (enterNotify s) := by
  have hh : s.env.tNotify.head = none := by rw [hn]; rfl
  simp only [enterNotify, notifyIfDue, hh]
  exact ⟨by simp, hn, hd⟩

theorem endPhase0_withheld (s : State) (hn : s.env.tNotify = ⟨[], none⟩) (hd : s.pge.pgDone = false) :
    Withheld (endPhase0 s) := by
  unfold endPhase0
  by_cases h : s.seq.pgP1p = true ∧ s.seq.pgD1 ≠ 0
  · rw [if_pos h]
    exact ⟨by simp, hn, hd⟩
  · rw [if_neg h]
    exact enterNotify_withheld _ hn hd

theorem pgeTick_withheld (s : State) (h : Withheld s) : Withheld (pgeTick s) := by
  obtain ⟨hf, hn, hd⟩ := h
  have hh : s.env.tNotify.head = none := by rw [hn]; rfl
  unfold pgeTick
  split
  · exact absurd (by assumption) hf
  · split
    · exact endPhase0_withheld s hn hd
    · exact ⟨hf, hn, hd⟩
  · split
    · exact enterNotify_withheld s hn hd
    · exact ⟨hf, hn, hd⟩
  · simp only [hh]
    exact ⟨hf, hn, hd⟩

theorem tick_withheld (s : State) (h : Withheld s) : Withheld (tick s) :=
  pgeTick_withheld _ ⟨h.flight, h.never, h.flag⟩

/-- It stays withheld, and PG_DONE stays 0, however long one waits. -/
theorem elapse_withheld (n : Nat) : ∀ s, Withheld s → Withheld (elapse n s) := by
  induction n with
  | zero => exact fun s h => h
  | succ n ih =>
    intro s h
    rw [elapse_succ]
    exact ih _ (tick_withheld s h)

end Sys2Proof.Machine
end

