-- ==== Sys2Proof/Laws/Run.lean ====
section
/-! SUPPORT. What the sequencer's actions, lines and programs do, said once. The view of a state is what does not depend
on timing: SEQ's registers without the position, SEQ's events, and the inputs that are not about time. -/

namespace Sys2Proof.Machine

/-- The inputs without T_STEP, T_NOTIFY and the samples of `bus_busy`, which are used up as time goes. -/
def Env.untimed (e : Env) : Env := { e with tStep := ⟨[], 0⟩, tNotify := ⟨[], none⟩, busBusy := ⟨[], false⟩ }

structure View where
  regs : SeqRegs
  events : List Event
  inputs : Env
  params : Config.Params

def State.view (s : State) : View where
  regs := { s.seq with seqStep := 0, seqSub := 0 }
  events := s.seqEvents
  inputs := s.env.untimed
  params := s.params

/-- `t` comes after `s`, and the pulses started between have the events `p` (none for `p = []`). -/
structure Goes (p : List Event) (s t : State) : Prop where
  params : t.params = s.params
  grain : t.grain = s.grain
  budget : s.budget = none → t.budget = none
  held : t.env.held = s.env.held
  tale : s.pge.consistent = true → t.pgeTale = s.pgeTale ++ p
  consistent : s.pge.consistent = true → t.pge.consistent = true
  notifies : s.env.notifies = true → t.env.notifies = true
  idle : s.pge.pgPh = .idle → p = [] → t.pge = s.pge ∧ t.pgeEvents = s.pgeEvents
  dly : s.dlyCnt = 0 → t.dlyCnt = 0
  now : s.now ≤ t.now

/-- No pulse is started between. -/
abbrev Calm (s t : State) : Prop := Goes [] s t

theorem Calm.refl (s : State) : Calm s s :=
  ⟨rfl, rfl, id, rfl, fun _ => by simp, id, id, fun _ _ => ⟨rfl, rfl⟩, id, Nat.le_refl _⟩

theorem Goes.trans {p q : List Event} {s t u : State} (h : Goes p s t) (k : Goes q t u) : Goes (p ++ q) s u where
  params := k.params.trans h.params
  grain := k.grain.trans h.grain
  budget := fun hb => k.budget (h.budget hb)
  held := k.held.trans h.held
  tale := fun hc => by rw [k.tale (h.consistent hc), h.tale hc, List.append_assoc]
  consistent := fun hc => k.consistent (h.consistent hc)
  notifies := fun hn => k.notifies (h.notifies hn)
  idle := fun hi he => by
    obtain ⟨hp, hq⟩ := List.append_eq_nil_iff.mp he
    obtain ⟨h1, h2⟩ := h.idle hi hp
    obtain ⟨k1, k2⟩ := k.idle (by rw [h1]; exact hi) hq
    exact ⟨k1.trans h1, k2.trans h2⟩
  dly := fun hd => k.dly (h.dly hd)
  now := Nat.le_trans h.now k.now

theorem Calm.trans {s t u : State} (h : Calm s t) (k : Calm t u) : Calm s u := Goes.trans h k

/-- A calm stretch before. -/
theorem Goes.after {p : List Event} {s t u : State} (h : Calm s t) (k : Goes p t u) : Goes p s u := by
  simpa using Goes.trans h k

/-- A calm stretch behind. -/
theorem Goes.then {p : List Event} {s t u : State} (h : Goes p s t) (k : Calm t u) : Goes p s u := by
  simpa using Goes.trans h k

theorem Goes.settles {p : List Event} {s t : State} (h : Goes p s t) : t.env.busSettles = s.env.busSettles := by
  have := congrArg (·.busBusy.rest) h.held
  simpa [Env.held, Env.busSettles] using this

theorem Goes.answers {p : List Event} {s t : State} (h : Goes p s t) : t.env.answers = s.env.answers := by
  have h1 := congrArg (·.busInitOk.rest) h.held
  have h2 := congrArg (·.pgAllocOk.rest) h.held
  simp only [Env.held] at h1 h2
  simp [Env.answers, h1, h2]

/-- A change of SEQ's side only: registers, inputs that are not about time, events of SEQ. -/
theorem Calm.of_seq {s t : State} (params : t.params = s.params) (grain : t.grain = s.grain) (budget : t.budget = s.budget)
    (pge : t.pge = s.pge) (tN : t.env.tNotify = s.env.tNotify) (held : t.env.held = s.env.held)
    (dly : t.dlyCnt = s.dlyCnt) (now : t.now = s.now) (ev : t.pgeEvents = s.pgeEvents) : Calm s t where
  params := params
  grain := grain
  budget := fun h => by rw [budget]; exact h
  held := held
  tale := fun _ => by simp [State.pgeTale, pge, ev]
  consistent := fun h => by rw [pge]; exact h
  notifies := fun h => by simpa [Env.notifies, tN] using h
  idle := fun _ _ => ⟨pge, ev⟩
  dly := fun h => by rw [dly]; exact h
  now := by omega

theorem Drift.view {s t : State} (h : Drift s t) : t.view = s.view := by
  have he : t.env.untimed = s.env.untimed := by
    have := congrArg Env.untimed h.env
    simpa [Env.untimed] using this
  simp [State.view, h.seq, h.seqEvents, he, h.params]

theorem elapse_calm (n : Nat) (s : State) : Calm s (elapse n s) where
  params := (elapse_drift n s).params
  grain := (elapse_drift n s).grain
  budget := fun h => by rw [(elapse_drift n s).budget]; exact h
  held := (elapse_drift n s).held
  tale := fun _ => by rw [elapse_tale, List.append_nil]
  consistent := elapse_consistent n s
  notifies := elapse_notifies n s
  idle := fun hi _ => by
    obtain ⟨h1, h2, h3⟩ := (elapse_drift n s).idle hi
    exact ⟨h1, by simp [State.pgeEvents, State.events, h2]⟩
  dly := fun h => by rw [elapse_dlyCnt, h]; simp
  now := by simp

/-! ### Projections of one event -/

theorem pgeEvents_emit (e : Event) (s : State) (h : e.byPge = false) : (emitEvent e s).pgeEvents = s.pgeEvents := by
  simp [State.pgeEvents, State.events, h]

theorem seqEvents_emit (e : Event) (s : State) (h : e.byPge = false) :
    (emitEvent e s).seqEvents = s.seqEvents ++ [e] := by
  simp [State.seqEvents, State.events, h]

theorem seqEvents_emit_pge (e : Event) (s : State) (h : e.byPge = true) : (emitEvent e s).seqEvents = s.seqEvents := by
  simp [State.seqEvents, State.events, h]

theorem pgeEvents_emit_pge (e : Event) (s : State) (h : e.byPge = true) :
    (emitEvent e s).pgeEvents = s.pgeEvents ++ [e] := by
  simp [State.pgeEvents, State.events, h]

/-- One event of SEQ, said of the view. -/
theorem view_emit (e : Event) (s : State) (h : e.byPge = false) :
    (emitEvent e s).view = { s.view with events := s.view.events ++ [e] } := by
  simp [State.view, seqEvents_emit e s h]

/-! ### Between actions -/

theorem spend_none (s : State) (h : s.budget = none) : spend s = s := by simp [spend, h]

theorem passStep_calm (s : State) : Calm s (passStep s) := by
  have c : Calm s { s with env := { s.env with tStep := s.env.tStep.pop } } :=
    Calm.of_seq rfl rfl rfl rfl rfl rfl rfl rfl rfl
  exact c.trans (elapse_calm _ _)

theorem passStep_seq (s : State) : (passStep s).seq = s.seq := (elapse_drift _ _).seq

theorem passStep_seqEvents (s : State) : (passStep s).seqEvents = s.seqEvents := (elapse_drift _ _).seqEvents

theorem closeStep_calm (s : State) : Calm s (closeStep s) :=
  ⟨rfl, rfl, fun _ => rfl, rfl, fun _ => by simp [State.pgeTale, State.pgeEvents, State.events], id, id,
    fun _ _ => ⟨rfl, rfl⟩, id, Nat.le_refl _⟩

theorem hasBudget_none (s : State) (h : s.budget = none) : hasBudget s = true := by simp [hasBudget, h]

theorem waitTicks_none (n : Nat) (s : State) (h : s.budget = none) : waitTicks n s = elapse n s := by simp [waitTicks, h]

/-- The state in which an action's T_STEP begins to pass. -/
def stepOver (s : State) : State :=
  { s with seq := { s.seq with seqSub := s.seq.seqSub + 1 }, env := { s.env with tStep := s.env.tStep.pop } }

theorem stepOver_calm (s : State) : Calm s (stepOver s) :=
  Calm.of_seq rfl rfl rfl rfl rfl rfl rfl rfl rfl

theorem stepOver_view (s : State) : (stepOver s).view = s.view := rfl

theorem afterAction_eq (s : State) (h : s.budget = none) : afterAction s = elapse s.env.tStep.head (stepOver s) := by
  have : (elapse s.env.tStep.head (stepOver s)).budget = none := by
    rw [(elapse_drift _ _).budget]; exact h
  unfold afterAction
  exact spend_none _ this

/-- Everything that happens between two actions. -/
theorem afterAction_calm (s : State) (h : s.budget = none) : Calm s (afterAction s) := by
  rw [afterAction_eq s h]
  exact (stepOver_calm s).trans (elapse_calm _ _)

theorem afterAction_view (s : State) (h : s.budget = none) : (afterAction s).view = s.view := by
  rw [afterAction_eq s h, (elapse_drift _ _).view, stepOver_view]

theorem nextStep_calm (s : State) : Calm s (nextStep s) := Calm.of_seq rfl rfl rfl rfl rfl rfl rfl rfl rfl

theorem nextStep_view (s : State) : (nextStep s).view = s.view := rfl

/-! ### Plain actions: no wait, no early return, no pulse, not the end -/

/-- What a plain action does to the view; `none` for the others. -/
def plainView (x : Action) (v : View) : Option View :=
  match x with
  | .pick => some v
  | .latchVariant =>
    some { v with
      regs := { v.regs with variantL := v.inputs.variant.head }
      inputs := { v.inputs with variant := v.inputs.variant.pop } }
  | .cfgPut w => some { v with regs := { v.regs with cfg := w } }
  | .cfgSet m => some { v with regs := { v.regs with cfg := flagSet m v.regs.cfg } }
  | .cfgClear m => some { v with regs := { v.regs with cfg := flagClear m v.regs.cfg } }
  | .dirOut p => some { v with regs := setDir p v.regs, events := v.events ++ [.dir p] }
  | .pinOut p b => some { v with regs := setLatch p b v.regs, events := v.events ++ [.pin p b] }
  | .dataBit src i =>
    some { v with
      regs := setLatch .cfgData ((pushWord src v.regs).getLsbD i) v.regs
      events := v.events ++ [.pin .cfgData ((pushWord src v.regs).getLsbD i)] }
  | .program h l =>
    some { v with regs := { v.regs with pgD0 := symbolD0 h l, pgD1 := symbolD1 h l, pgP1p := symbolP1p h } }
  | .busInitReq w => some { v with events := v.events ++ [.busInit w] }
  | .pgSetPin pin => some { v with regs := { v.regs with pgPin := pin } }
  | .pgAllocReq pin => some { v with events := v.events ++ [.pgAlloc pin] }
  | .busStart => some { v with events := v.events ++ [.busStart] }
  | .busSwitch => some { v with events := v.events ++ [.busSwitch] }
  | .psmPut p => some { v with regs := { v.regs with psm := p } }
  | .delayLoad _ => none
  | .delayWait => none
  | .waitIdle => none
  | .emitGuard => none
  | .awaitDone => none
  | .clearDone => none
  | .start => none
  | .busInitAns => none
  | .pgInitGuard => none
  | .pgAllocAns => none
  | .done _ _ => none

theorem setLatch_position (p : Pin) (b : Bool) (r : SeqRegs) :
    { setLatch p b r with seqStep := 0, seqSub := 0 } = setLatch p b { r with seqStep := 0, seqSub := 0 } := by
  cases p <;> rfl

theorem setDir_position (p : Pin) (r : SeqRegs) :
    { setDir p r with seqStep := 0, seqSub := 0 } = setDir p { r with seqStep := 0, seqSub := 0 } := by
  cases p <;> rfl

@[simp] theorem pushWord_position (src : WordSource) (r : SeqRegs) :
    pushWord src { r with seqStep := 0, seqSub := 0 } = pushWord src r := by
  cases src <;> rfl

/-- Everything a plain action can do. -/
theorem doAction_plain (x : Action) (s : State) (w : View) (h : plainView x s.view = some w) :
    ∃ t, doAction x s = .go t ∧ t.view = w ∧ Calm s t := by
  have key : ∀ t : State, doAction x s = .go t → t.view = w → Calm s t → ∃ t, doAction x s = .go t ∧ t.view = w ∧ Calm s t :=
    fun t a b c => ⟨t, a, b, c⟩
  cases x <;> simp only [plainView, reduceCtorEq] at h <;> cases h <;> refine key _ rfl ?_ ?_ <;>
    first
      | rfl
      | exact Calm.refl s
      | exact Calm.of_seq rfl rfl rfl rfl rfl rfl rfl rfl rfl
      | exact Calm.of_seq rfl rfl rfl rfl rfl rfl rfl rfl (pgeEvents_emit _ _ rfl)
      | exact view_emit _ _ rfl
      | (rw [view_emit _ _ rfl]; simp [State.view, setDir_position, State.seqEvents, State.events])
      | (unfold writePin; rw [view_emit _ _ rfl]; simp [State.view, setLatch_position, State.seqEvents, State.events])

/-- The view after a list of plain actions. -/
def plainViews : List Action → View → Option View
  | [], v => some v
  | x :: xs, v =>
    match plainView x v with
    | none => none
    | some w => plainViews xs w

/-- `t` is where SEQ stands after the actions `xs` of a line, the line going on. -/
def Passes (xs : List Action) (s t : State) : Prop := ∀ ys, runLine (xs ++ ys) s = runLine ys t

theorem Passes.nil (s : State) : Passes [] s s := fun _ => rfl

theorem Passes.trans {xs ys : List Action} {s t u : State} (h : Passes xs s t) (k : Passes ys t u) :
    Passes (xs ++ ys) s u := fun zs => by rw [List.append_assoc, h, k]

theorem Passes.line {xs : List Action} {s t : State} (h : Passes xs s t) : runLine xs s = .go t := by
  have := h []
  simpa [runLine] using this

/-- One action that lets the line go on. -/
theorem Passes.one {x : Action} {s t : State} (hb : s.budget = none) (h : doAction x s = .go t) :
    Passes [x] s (afterAction t) := by
  intro ys
  simp [runLine, hasBudget_none s hb, h]

/-- A list of plain actions always runs through. -/
theorem passes_plain (xs : List Action) : ∀ (s : State) (w : View), s.budget = none → plainViews xs s.view = some w →
    ∃ t, Passes xs s t ∧ t.view = w ∧ Calm s t := by
  induction xs with
  | nil =>
    intro s w _ h
    exact ⟨s, Passes.nil s, by simpa [plainViews] using h, Calm.refl s⟩
  | cons x xs ih =>
    intro s w hb h
    unfold plainViews at h
    cases hx : plainView x s.view with
    | none => simp [hx] at h
    | some v =>
      simp only [hx] at h
      obtain ⟨t, ht, hv, hc⟩ := doAction_plain x s v hx
      have hbt := hc.budget hb
      obtain ⟨u, hp, hu, hcu⟩ := ih (afterAction t) w (afterAction_calm t hbt |>.budget hbt)
        (by rw [afterAction_view t hbt, hv]; exact h)
      exact ⟨u, (Passes.one hb ht).trans hp, hu, (hc.trans (afterAction_calm t hbt)).trans hcu⟩

/-! ### Delays -/

/-- A delay always ends (42_panel_protocol.md R166). -/
theorem passes_delay (n : Half) (s : State) (hb : s.budget = none) :
    ∃ t, Passes (delayLine n) s t ∧ t.view = { s.view with events := s.view.events ++ [.delay n] } ∧ Calm s t ∧
      t.dlyCnt = 0 ∧ s.now + n.toNat ≤ t.now := by
  let s1 := emitEvent (.delay n) { s with dlyCnt := n }
  have h1 : doAction (.delayLoad n) s = .go s1 := rfl
  have b1 : s1.budget = none := hb
  let s2 := afterAction s1
  have b2 : s2.budget = none := (afterAction_calm s1 b1).budget b1
  let s3 := elapse s2.dlyCnt.toNat s2
  have d3 : s3.dlyCnt = 0 := by simp [s3, elapse_dlyCnt]
  have b3 : s3.budget = none := (elapse_calm _ _).budget b2
  have h3 : doAction .delayWait s2 = .go s3 := by
    simp only [doAction, waitTicks_none _ s2 b2]
    rw [if_pos d3]
  have v1 : s1.view = { s.view with events := s.view.events ++ [.delay n] } := view_emit _ { s with dlyCnt := n } rfl
  have d4 : (afterAction s3).dlyCnt = 0 := (afterAction_calm s3 b3).dly d3
  have n2 : s2.dlyCnt.toNat = n.toNat - s1.env.tStep.head ∧ s2.now = s.now + s1.env.tStep.head := by
    have : s2 = elapse s1.env.tStep.head (stepOver s1) := afterAction_eq s1 b1
    rw [this, elapse_dlyCnt, elapse_now]
    have := n.isLt
    refine ⟨?_, rfl⟩
    show (BitVec.ofNat 16 (n.toNat - s1.env.tStep.head)).toNat = _
    rw [BitVec.toNat_ofNat]; omega
  have n3 : s3.now = s2.now + s2.dlyCnt.toNat := elapse_now _ _
  have n4 := (afterAction_calm s3 b3).now
  refine ⟨afterAction s3, (Passes.one hb h1).trans (Passes.one b2 h3), ?_, ?_, d4, by omega⟩
  · rw [afterAction_view s3 b3, (elapse_drift _ _).view, afterAction_view s1 b1, v1]
  · have c1 : Calm s2 (afterAction s3) := (elapse_calm _ _).trans (afterAction_calm s3 b3)
    have e1 : s1.pgeEvents = s.pgeEvents := pgeEvents_emit (.delay n) { s with dlyCnt := n } rfl
    have c2 := (afterAction_calm s1 b1).trans c1
    exact { params := c2.params, grain := c2.grain, budget := c2.budget, held := c2.held, consistent := c2.consistent
            notifies := c2.notifies
            tale := fun hc => (c2.tale hc).trans (by simp [State.pgeTale, e1, s1])
            idle := fun hi he => by
              obtain ⟨k1, k2⟩ := c2.idle hi he
              exact ⟨k1, k2.trans e1⟩
            dly := fun _ => d4
            now := by omega }

/-! ### Waits -/

theorem quiet_idle {p : PgeRegs} (h : p.quiet) : p.pgPh = .idle := h.1

theorem afterAction_quiet (s : State) (hb : s.budget = none) (h : s.pge.quiet) : (afterAction s).pge = s.pge :=
  ((afterAction_calm s hb).idle h.1 rfl).1

/-- A wait for the pulse in flight ends: its notification comes, or no pulse is in flight. -/
def State.waitEnds (s : State) : Prop := s.env.notifies = true ∨ s.pge.pgDone = true

/-- It ends in every later state too, as long as no pulse is started. -/
theorem State.waitEnds.calm {s t : State} (h : s.waitEnds) (hc : s.pge.consistent = true) (k : Calm s t) :
    t.waitEnds := by
  rcases h with hn | hd
  · exact .inl (k.notifies hn)
  · right
    rw [(k.idle (quiet_of_done hc hd).1 rfl).1]; exact hd

/-- The wait of `Emit` ends when the notification comes, with no pulse in flight (40_pulse_generator.md R122). -/
theorem await_go (s : State) (hb : s.budget = none) (hc : s.pge.consistent = true) (hn : s.waitEnds) :
    ∃ t, awaitDone s = .go t ∧ t.view = s.view ∧ Calm s t ∧ t.pge.quiet := by
  unfold awaitDone
  by_cases hd : s.pge.pgDone = true
  · exact ⟨s, by simp [hd], rfl, Calm.refl s, quiet_of_done hc hd⟩
  · have hi : s.pge.pgPh ≠ .idle := fun h => hd ((consistent_idle hc).mp h)
    have hq := elapse_ticksToDone s (hn.resolve_right hd) hi
    rw [waitTicks_none _ s hb]
    exact ⟨elapse (max 1 (ticksToDone s)) s, by simp [hd, hq.2], (elapse_drift _ _).view, elapse_calm _ _, hq⟩

theorem passes_await (s : State) (hb : s.budget = none) (hc : s.pge.consistent = true) (hn : s.waitEnds) :
    ∃ t, Passes [.awaitDone] s t ∧ t.view = s.view ∧ Calm s t ∧ t.pge.quiet := by
  obtain ⟨t, ht, hv, hcalm, hq⟩ := await_go s hb hc hn
  have hbt := hcalm.budget hb
  refine ⟨afterAction t, Passes.one (x := .awaitDone) hb ht, ?_, hcalm.trans (afterAction_calm t hbt), ?_⟩
  · rw [afterAction_view t hbt, hv]
  · rw [afterAction_quiet t hbt hq]; exact hq

theorem spinTurn_calm (s : State) (hb : s.budget = none) : Calm s (spinTurn s) := by
  unfold spinTurn
  rw [spend_none _ (by rw [(elapse_drift _ _).budget]; exact hb)]
  have c : Calm s { s with env := { s.env with tStep := s.env.tStep.pop } } :=
    Calm.of_seq rfl rfl rfl rfl rfl rfl rfl rfl rfl
  exact c.trans (elapse_calm _ _)

theorem spinTurn_view (s : State) (hb : s.budget = none) : (spinTurn s).view = s.view := by
  unfold spinTurn
  rw [spend_none _ (by rw [(elapse_drift _ _).budget]; exact hb), (elapse_drift _ _).view]
  rfl

/-- `WaitIdle` ends when the bus engine settles and the notification comes, with no pulse in flight
(42_panel_protocol.md R160). -/
theorem waitIdle_go (later : List Bool) : ∀ s : State, s.budget = none → s.pge.consistent = true →
    s.waitEnds → s.env.busSettles = true →
    ∃ t, waitIdleTurns later s = .go t ∧ t.view = s.view ∧ Calm s t ∧ t.pge.quiet := by
  induction later with
  | nil =>
    intro s hb hc hn hs
    have : s.env.busBusy.rest = false := by simpa [Env.busSettles] using hs
    simp only [waitIdleTurns, this]
    exact await_go s hb hc hn
  | cons busy later ih =>
    intro s hb hc hn hs
    let p : State := { s with env := { s.env with busBusy := s.env.busBusy.pop } }
    have cp : Calm s p := Calm.of_seq rfl rfl rfl rfl rfl rfl rfl rfl rfl
    simp only [waitIdleTurns, hasBudget_none s hb, if_true]
    by_cases hg : (!busy && s.pge.pgDone) = true
    · refine ⟨p, by simp only [hg, if_true]; rfl, rfl, cp, quiet_of_done hc ?_⟩
      simp only [Bool.and_eq_true] at hg; exact hg.2
    · have ct := spinTurn_calm p (cp.budget hb)
      obtain ⟨t, ht, hv, hcalm, hq⟩ := ih (spinTurn p) (ct.budget (cp.budget hb)) (ct.consistent hc)
        (hn.calm hc (cp.trans ct)) (by rw [ct.settles]; exact hs)
      refine ⟨t, by simp only [hg]; exact ht, ?_, (cp.trans ct).trans hcalm, hq⟩
      rw [hv, spinTurn_view p hb]; rfl

theorem passes_waitIdle (s : State) (hb : s.budget = none) (hc : s.pge.consistent = true)
    (hn : s.waitEnds) (hs : s.env.busSettles = true) :
    ∃ t, Passes [.waitIdle] s t ∧ t.view = s.view ∧ Calm s t ∧ t.pge.quiet := by
  obtain ⟨t, ht, hv, hcalm, hq⟩ := waitIdle_go s.env.busBusy.next s hb hc hn hs
  have hbt := hcalm.budget hb
  refine ⟨afterAction t, Passes.one (x := .waitIdle) hb ht, ?_, hcalm.trans (afterAction_calm t hbt), ?_⟩
  · rw [afterAction_view t hbt, hv]
  · rw [afterAction_quiet t hbt hq]; exact hq

/-! ### Emit -/

/-- The two parts of `Emit` that start the pulse: with no pulse in flight, one pulse begins
(40_pulse_generator.md R122, R126). -/
theorem passes_start (s : State) (hb : s.budget = none) (hq : s.pge.quiet) :
    ∃ t, Passes [.clearDone, .start] s t ∧
      t.view = { s.view with events := s.view.events ++ [.pulse s.seq.pgD0 s.seq.pgD1 s.seq.pgP1p] } ∧
      Goes [.ckv true, .ckv false, .notify] s t := by
  let c : State := { s with pge := { s.pge with pgDone := false } }
  have bc : c.budget = none := hb
  have hcc := afterAction_calm c bc
  let d := afterAction c
  have pd : d.pge = c.pge ∧ d.pgeEvents = c.pgeEvents := hcc.idle hq.1 rfl
  have vd : d.view = s.view := afterAction_view c bc
  have bd : d.budget = none := hcc.budget bc
  let e := startPulse (emitEvent (.pulse d.seq.pgD0 d.seq.pgD1 d.seq.pgP1p) d)
  have be : e.budget = none := bd
  have hce := afterAction_calm e be
  have hsym : d.seq.pgD0 = s.seq.pgD0 ∧ d.seq.pgD1 = s.seq.pgD1 ∧ d.seq.pgP1p = s.seq.pgP1p := by
    have h := congrArg View.regs vd
    simp only [State.view] at h
    exact ⟨by simpa using congrArg SeqRegs.pgD0 h, by simpa using congrArg SeqRegs.pgD1 h,
      by simpa using congrArg SeqRegs.pgP1p h⟩
  have hde : d.seqEvents = s.seqEvents := congrArg View.events vd
  have ve : e.view = { s.view with events := s.view.events ++ [.pulse s.seq.pgD0 s.seq.pgD1 s.seq.pgP1p] } := by
    have h1 : e.seqEvents = d.seqEvents ++ [.pulse d.seq.pgD0 d.seq.pgD1 d.seq.pgP1p] := by
      simp [e, startPulse, State.seqEvents, State.events, Event.byPge]
    have h2 : e.view = { d.view with events := d.view.events ++ [.pulse d.seq.pgD0 d.seq.pgD1 d.seq.pgP1p] } := by
      have : e.view = { d.view with events := e.seqEvents } := rfl
      rw [this, h1]; rfl
    rw [h2, vd, hsym.1, hsym.2.1, hsym.2.2]
  have hpe : e.pgeEvents = s.pgeEvents ++ [.ckv true] := by
    have h1 : e.pgeEvents = d.pgeEvents ++ [.ckv true] := by
      simp [e, startPulse, State.pgeEvents, State.events, Event.byPge]
    rw [h1, pd.2]; rfl
  have hph : e.pge.pgPh = .ph0 := rfl
  have g : Goes [.ckv true, .ckv false, .notify] s e := by
    refine ⟨hcc.params, hcc.grain, fun _ => be, hcc.held, fun _ => ?_, fun _ => ?_, fun h => ?_, fun _ h => by simp at h,
      fun h => ?_, hcc.now⟩
    · simp [State.pgeTale, hpe, hph, hq.1, PgPh.ahead]
    · have : e.pge.pgDone = false := by
        show d.pge.pgDone = false
        rw [pd.1]
      have hk' : e.pge.ckv = true := rfl
      simp [PgeRegs.consistent, hph, this, hk']
    · exact hcc.notifies h
    · exact hcc.dly h
  refine ⟨afterAction e, (Passes.one (x := .clearDone) (t := c) hb rfl).trans (Passes.one (x := .start) bd rfl), ?_, g.then hce⟩
  rw [afterAction_view e be, ve]

theorem afterEmit_ready (h l : Half) (r : SeqRegs) (hr : r.pgSt = .ready) :
    afterEmit h l r = { r with pgD0 := symbolD0 h l, pgD1 := symbolD1 h l, pgP1p := symbolP1p h } := by
  simp only [afterEmit, symbolD0, symbolD1, symbolP1p, hr]
  by_cases hh : h = 0
  · simp [hh]
  · simp only [if_neg hh, beq_eq_false_iff_ne.mpr hh, Bool.not_false]

theorem pulseEvents_ready (h l : Half) :
    pulseEvents .ready h l = [.pulse (symbolD0 h l) (symbolD1 h l) (symbolP1p h)] := by
  simp only [pulseEvents, symbolD0, symbolD1, symbolP1p, if_true]
  by_cases hh : h = 0
  · simp [hh]
  · simp only [if_neg hh, beq_eq_false_iff_ne.mpr hh, Bool.not_false]

/-- `Emit` on a generator that is not ready: nothing but MISUSE on one never initialised. No wait is entered
(40_pulse_generator.md R122, R131). -/
theorem run_emit_inert (h l : Half) (w : Bool) (s : State) (hb : s.budget = none) (hr : s.seq.pgSt ≠ .ready) :
    ∃ t, runLine (emitLine h l w) s = .go t ∧ t.view = { s.view with regs := afterEmit h l s.view.regs } ∧ Calm s t := by
  cases hp : s.seq.pgSt with
  | ready => exact absurd hp hr
  | failed =>
    refine ⟨afterAction s, by simp [emitLine, runLine, hasBudget_none s hb, doAction, hp], ?_, afterAction_calm s hb⟩
    rw [afterAction_view s hb]
    simp [afterEmit, State.view, hp]
  | uninit =>
    have c : Calm s (flagMisuse s) := Calm.of_seq rfl rfl rfl rfl rfl rfl rfl rfl rfl
    refine ⟨afterAction (flagMisuse s), by simp [emitLine, runLine, hasBudget_none s hb, doAction, hp], ?_,
      c.trans (afterAction_calm _ hb)⟩
    rw [afterAction_view (flagMisuse s) hb]
    simp [afterEmit, State.view, hp, State.seqEvents, State.events]

/-- `Emit` on a ready generator: the pulse in flight is waited out, one pulse is started, and with the wait flag it is
waited out too (40_pulse_generator.md R122). Without the flag and with no pulse in flight, no notification has to come. -/
theorem run_emit_ready (h l : Half) (w : Bool) (s : State) (hb : s.budget = none) (hr : s.seq.pgSt = .ready)
    (hc : s.pge.consistent = true) (hn : s.env.notifies = true ∨ (s.pge.pgDone = true ∧ w = false)) :
    ∃ t, runLine (emitLine h l w) s = .go t ∧
      t.view = { s.view with
        regs := afterEmit h l s.view.regs, events := s.view.events ++ pulseEvents s.seq.pgSt h l } ∧
      Goes [.ckv true, .ckv false, .notify] s t ∧ (w = true → t.pge.quiet) := by
  have h0 : Passes [.emitGuard] s (afterAction s) := Passes.one hb (by simp [doAction, hr])
  have c0 := afterAction_calm s hb
  have b0 := c0.budget hb
  have v0 := afterAction_view s hb
  have hw : s.waitEnds := hn.imp_right (·.1)
  obtain ⟨s1, p1, v1, c1, q1⟩ := passes_await (afterAction s) b0 (c0.consistent hc) (hw.calm hc c0)
  have b1 := c1.budget b0
  obtain ⟨s2, p2, v2, c2⟩ := passes_plain [.program h l] s1 _ b1 rfl
  have b2 := c2.budget b1
  have i2 := c2.idle q1.1 rfl
  have q2 : s2.pge.quiet := by rw [i2.1]; exact q1
  obtain ⟨s3, p3, v3, g3⟩ := passes_start s2 b2 q2
  have b3 := g3.budget b2
  have pall := ((h0.trans p1).trans p2).trans p3
  have gall : Goes [.ckv true, .ckv false, .notify] s s3 := Goes.after ((c0.trans c1).trans c2) g3
  have v01 : s1.view = s.view := v1.trans v0
  have hsym : s2.seq.pgD0 = symbolD0 h l ∧ s2.seq.pgD1 = symbolD1 h l ∧ s2.seq.pgP1p = symbolP1p h := by
    have h := congrArg View.regs v2
    exact ⟨by simpa [State.view] using congrArg SeqRegs.pgD0 h, by simpa [State.view] using congrArg SeqRegs.pgD1 h,
      by simpa [State.view] using congrArg SeqRegs.pgP1p h⟩
  have vall : s3.view = { s.view with
      regs := afterEmit h l s.view.regs, events := s.view.events ++ pulseEvents s.seq.pgSt h l } := by
    rw [v3, v2, hsym.1, hsym.2.1, hsym.2.2, v01, hr, pulseEvents_ready, afterEmit_ready _ _ _ (by simpa [State.view] using hr)]
  cases w with
  | false => exact ⟨s3, by simpa [emitLine] using pall.line, vall, gall, fun hw => by simp at hw⟩
  | true =>
    obtain ⟨s4, p4, v4, c4, q4⟩ := passes_await s3 b3 (gall.consistent hc)
      (.inl (gall.notifies (hn.resolve_right (by simp))))
    exact ⟨s4, by simpa [emitLine] using (pall.trans p4).line, v4.trans vall, gall.then c4, fun _ => q4⟩

/-- Everything `Emit` can do, whatever the generator's status. -/
theorem run_emit (h l : Half) (w : Bool) (s : State) (hb : s.budget = none) (hc : s.pge.consistent = true)
    (hn : s.env.notifies = true ∨ (s.pge.pgDone = true ∧ w = false)) :
    ∃ t, runLine (emitLine h l w) s = .go t ∧
      t.view = { s.view with
        regs := afterEmit h l s.view.regs, events := s.view.events ++ pulseEvents s.seq.pgSt h l } ∧
      Goes (pulseTale s.seq.pgSt) s t ∧ (w = true → s.seq.pgSt = .ready → t.pge.quiet) := by
  by_cases hr : s.seq.pgSt = .ready
  · obtain ⟨t, h1, h2, h3, h4⟩ := run_emit_ready h l w s hb hr hc hn
    exact ⟨t, h1, h2, by simpa [pulseTale, hr] using h3, fun hw _ => h4 hw⟩
  · obtain ⟨t, h1, h2, h3⟩ := run_emit_inert h l w s hb hr
    exact ⟨t, h1, by simpa [pulseEvents, hr] using h2, by simpa [pulseTale, hr] using h3, fun _ h => absurd h hr⟩

end Sys2Proof.Machine
end

