-- ==== Sys2Proof/Laws/Commands.lean ====
section
/-! SUPPORT. What the sub-sequences with an outside answer can do, the stages a command's program is made of, and its
end. -/

namespace Sys2Proof.Machine

/-- `afterEmit` field by field. -/
theorem afterEmit_eq (h l : Half) (r : SeqRegs) :
    afterEmit h l r =
      { r with
        pgD0 := if r.pgSt = .ready then symbolD0 h l else r.pgD0
        pgD1 := if r.pgSt = .ready then symbolD1 h l else r.pgD1
        pgP1p := if r.pgSt = .ready then symbolP1p h else r.pgP1p
        misuse := r.misuse || r.pgSt == .uninit } := by
  have hu : (PgSt.failed == PgSt.uninit) = false := rfl
  cases hp : r.pgSt with
  | ready => rw [afterEmit_ready _ _ _ hp]; simp [hp]
  | failed =>
    cases r; simp only at hp; subst hp
    simp [afterEmit, hu]
  | uninit =>
    cases r; simp only at hp; subst hp
    simp [afterEmit]

@[simp] theorem afterEmit_pgSt (h l : Half) (r : SeqRegs) : (afterEmit h l r).pgSt = r.pgSt := by simp [afterEmit_eq]
@[simp] theorem afterEmit_cfg (h l : Half) (r : SeqRegs) : (afterEmit h l r).cfg = r.cfg := by simp [afterEmit_eq]
@[simp] theorem afterEmit_psm (h l : Half) (r : SeqRegs) : (afterEmit h l r).psm = r.psm := by simp [afterEmit_eq]
@[simp] theorem afterPush_pgSt (w : Byte) (r : SeqRegs) : (afterPush w r).pgSt = r.pgSt := rfl
@[simp] theorem afterPush_cfg (w : Byte) (r : SeqRegs) : (afterPush w r).cfg = r.cfg := rfl
@[simp] theorem afterPush_psm (w : Byte) (r : SeqRegs) : (afterPush w r).psm = r.psm := rfl
@[simp] theorem acceptedRegs_pgSt (i : Instr) (r : SeqRegs) : (acceptedRegs i r).pgSt = r.pgSt := rfl
@[simp] theorem acceptedRegs_cfg (i : Instr) (r : SeqRegs) : (acceptedRegs i r).cfg = r.cfg := rfl

/-! ### Answers -/

/-- An answered wait ends in what the answer does, in a state that keeps whatever a turn without an answer keeps. -/
theorem answer_go (pop : State → State) (got : Bool → State → State) (rest : Option Bool) (ok : Bool)
    (P : State → Prop) (hb : ∀ s, P s → s.budget = none) (hp : ∀ s, P s → P (pop s)) (ht : ∀ s, P s → P (spinTurn s))
    (later : List (Option Bool)) : ∀ s, P s → answerOf rest later = some ok →
    ∃ t, answerTurns pop got rest later s = .go (got ok t) ∧ P t := by
  induction later with
  | nil =>
    intro s hs ha
    simp only [answerOf] at ha
    exact ⟨s, by simp [answerTurns, ha], hs⟩
  | cons a later ih =>
    intro s hs ha
    cases a with
    | some b =>
      simp only [answerOf, Option.some.injEq] at ha
      exact ⟨pop s, by simp [answerTurns, hasBudget_none s (hb s hs), ha], hp s hs⟩
    | none =>
      simp only [answerOf] at ha
      obtain ⟨t, h1, h2⟩ := ih (spinTurn (pop s)) (ht _ (hp s hs)) ha
      exact ⟨t, by simpa [answerTurns, hasBudget_none s (hb s hs)] using h1, h2⟩

/-- The bus engine's answer (20_memory.md R67, 42_panel_protocol.md R170 micro-step 4). -/
theorem run_busInit (w : BitVec 17) (ok : Bool) (s : State) (hb : s.budget = none)
    (ha : answerOf s.env.busInitOk.rest s.env.busInitOk.next = some ok) :
    ∃ t f, runLine (busInitLine w) s = .go t ∧
      t.view = { s.view with
        regs := { s.view.regs with busFail := s.view.regs.busFail || !ok }
        events := s.view.events ++ [.busInit w]
        inputs := { s.view.inputs with busInitOk := f } } ∧ Calm s t := by
  obtain ⟨s1, p1, v1, c1⟩ := passes_plain [.busInitReq w] s _ hb rfl
  have b1 := c1.budget hb
  have f1 : s1.env.busInitOk = s.env.busInitOk := by
    have := congrArg (·.inputs.busInitOk) v1
    simpa [State.view, Env.untimed] using this
  obtain ⟨t, ht, c2, ⟨f, vf⟩⟩ := answer_go
    (fun t => { t with env := { t.env with busInitOk := t.env.busInitOk.pop } }) busInitDone s1.env.busInitOk.rest ok
    (fun t => Calm s1 t ∧ ∃ f, t.view = { s1.view with inputs := { s1.view.inputs with busInitOk := f } })
    (fun t h => h.1.budget b1)
    (fun t h => by
      obtain ⟨hc, f, hv⟩ := h
      refine ⟨hc.trans (Calm.of_seq rfl rfl rfl rfl rfl rfl rfl rfl rfl), t.env.busInitOk.pop, ?_⟩
      have := congrArg (fun v : View => { v with inputs := { v.inputs with busInitOk := t.env.busInitOk.pop } }) hv
      exact this)
    (fun t h => by
      obtain ⟨hc, f, hv⟩ := h
      exact ⟨hc.trans (spinTurn_calm t (hc.budget b1)), f, (spinTurn_view t (hc.budget b1)).trans hv⟩)
    s1.env.busInitOk.next s1 ⟨Calm.refl s1, s1.env.busInitOk, rfl⟩ (by rw [f1]; exact ha)
  have bt := c2.budget b1
  let d := busInitDone ok t
  have cd : Calm t d := by
    cases ok
    · exact Calm.of_seq rfl rfl rfl rfl rfl rfl rfl rfl rfl
    · exact Calm.refl t
  have vd : d.view = { t.view with regs := { t.view.regs with busFail := t.view.regs.busFail || !ok } } := by
    cases ok <;> simp [d, busInitDone, State.view, State.seqEvents, State.events]
  refine ⟨afterAction d, f, ?_, ?_, ((c1.trans c2).trans cd).trans (afterAction_calm d (cd.budget bt))⟩
  · exact (p1.trans (Passes.one (x := .busInitAns) b1 ht)).line
  · rw [afterAction_view d (cd.budget bt), vd, vf, v1]

/-- `PgInit` on a generator initialised before: MISUSE and nothing else (40_pulse_generator.md R120). -/
theorem run_pgInit_again (pin : Byte) (s : State) (hb : s.budget = none) (hr : s.seq.pgSt ≠ .uninit) :
    ∃ t, runLine (pgInitLine pin) s = .go t ∧
      t.view = { s.view with regs := { s.view.regs with misuse := true } } ∧ Calm s t := by
  have c : Calm s (flagMisuse s) := Calm.of_seq rfl rfl rfl rfl rfl rfl rfl rfl rfl
  have v : (flagMisuse s).view = { s.view with regs := { s.view.regs with misuse := true } } := by
    simp [State.view, State.seqEvents, State.events]
  refine ⟨afterAction (flagMisuse s), ?_, (afterAction_view (flagMisuse s) hb).trans v, c.trans (afterAction_calm _ hb)⟩
  cases hp : s.seq.pgSt with
  | uninit => exact absurd hp hr
  | ready => simp [pgInitLine, runLine, hasBudget_none s hb, doAction, hp]
  | failed => simp [pgInitLine, runLine, hasBudget_none s hb, doAction, hp]

/-- The first `PgInit`: the pin is recorded, the allocator is asked, and its answer decides (40_pulse_generator.md
R120). -/
theorem run_pgInit_first (pin : Byte) (ok : Bool) (s : State) (hb : s.budget = none) (hr : s.seq.pgSt = .uninit)
    (hi : s.pge.pgPh = .idle) (hc : s.pge.consistent = true)
    (ha : answerOf s.env.pgAllocOk.rest s.env.pgAllocOk.next = some ok) :
    ∃ t f, runLine (pgInitLine pin) s = .go t ∧
      t.view = { s.view with
        regs := { s.view.regs with
          pgPin := pin, pgSt := if ok then .ready else .failed, dirCkv := s.view.regs.dirCkv || ok }
        events := s.view.events ++ [.pgAlloc pin] ++ (if ok then [.dir .ckv] else [])
        inputs := { s.view.inputs with pgAllocOk := f } } ∧ Calm s t := by
  have h0 : Passes [.pgInitGuard] s (afterAction s) := Passes.one hb (by simp [doAction, hr])
  have c0 := afterAction_calm s hb
  have b0 := c0.budget hb
  have v0 := afterAction_view s hb
  obtain ⟨s1, p1, v1, c1⟩ := passes_plain [.pgSetPin pin, .pgAllocReq pin] (afterAction s) _ b0 rfl
  have b1 := c1.budget b0
  rw [v0] at v1
  have f1 : s1.env.pgAllocOk = s.env.pgAllocOk := by
    have := congrArg (·.inputs.pgAllocOk) v1
    simpa [State.view, Env.untimed] using this
  obtain ⟨t, ht, c2, ⟨f, vf⟩⟩ := answer_go
    (fun t => { t with env := { t.env with pgAllocOk := t.env.pgAllocOk.pop } }) pgAllocDone s1.env.pgAllocOk.rest ok
    (fun t => Calm s1 t ∧ ∃ f, t.view = { s1.view with inputs := { s1.view.inputs with pgAllocOk := f } })
    (fun t h => h.1.budget b1)
    (fun t h => by
      obtain ⟨hc, f, hv⟩ := h
      refine ⟨hc.trans (Calm.of_seq rfl rfl rfl rfl rfl rfl rfl rfl rfl), t.env.pgAllocOk.pop, ?_⟩
      have := congrArg (fun v : View => { v with inputs := { v.inputs with pgAllocOk := t.env.pgAllocOk.pop } }) hv
      exact this)
    (fun t h => by
      obtain ⟨hc, f, hv⟩ := h
      exact ⟨hc.trans (spinTurn_calm t (hc.budget b1)), f, (spinTurn_view t (hc.budget b1)).trans hv⟩)
    s1.env.pgAllocOk.next s1 ⟨Calm.refl s1, s1.env.pgAllocOk, rfl⟩ (by rw [f1]; exact ha)
  have bt := c2.budget b1
  have call := (c0.trans c1).trans c2
  have it := call.idle hi rfl
  have kt : t.pge.ckv = false := by rw [it.1, consistent_ckv hc]; simp [hi]
  have hpge : ({ t.pge with ckv := false } : PgeRegs) = t.pge := by rw [← kt]
  let d := pgAllocDone ok t
  have cd : Calm t d := by
    cases ok
    · exact Calm.of_seq rfl rfl rfl rfl rfl rfl rfl rfl rfl
    · refine Calm.of_seq rfl rfl rfl ?_ rfl rfl rfl rfl ?_
      · show ({ t.pge with ckv := false } : PgeRegs) = t.pge
        exact hpge
      · simp [d, pgAllocDone, State.pgeEvents, State.events, Event.byPge]
  have vd : d.view = { t.view with
      regs := { t.view.regs with pgSt := if ok then .ready else .failed, dirCkv := t.view.regs.dirCkv || ok }
      events := t.view.events ++ (if ok then [.dir .ckv] else []) } := by
    cases ok <;> simp [d, pgAllocDone, State.view, State.seqEvents, State.events, setDir, Event.byPge]
  refine ⟨afterAction d, f, ?_, ?_, (call.trans cd).trans (afterAction_calm d (cd.budget bt))⟩
  · exact ((h0.trans p1).trans (Passes.one (x := .pgAllocAns) b1 ht)).line
  · rw [afterAction_view d (cd.budget bt), vd, vf, v1]

/-! ### Stages of a program -/

/-- `t` is where SEQ stands after the micro-steps `ls`, the program going on; `v` is its view and `p` the events of the
pulses started. -/
structure Stage (ls : Program) (p : List Event) (s t : State) (v : View) : Prop where
  run : ∀ rest, runProgram (ls ++ rest) s = runProgram rest t
  view : t.view = v
  goes : Goes p s t

theorem Stage.line {l : Line} {p : List Event} {s t : State} {v : View} (h : runLine l s = .go t) (hv : t.view = v)
    (g : Goes p s t) : Stage [l] p s (nextStep t) v :=
  ⟨fun rest => by simp [runProgram, h], (nextStep_view t).trans hv, g.then (nextStep_calm t)⟩

theorem Stage.trans {ls ms : Program} {p q : List Event} {s t u : State} {v w : View} (h : Stage ls p s t v)
    (k : Stage ms q t u w) : Stage (ls ++ ms) (p ++ q) s u w :=
  ⟨fun rest => by rw [List.append_assoc, h.run, k.run], k.view, h.goes.trans k.goes⟩

/-- A micro-step of plain actions. -/
theorem stage_plain (l : Line) (s : State) (w : View) (hb : s.budget = none) (h : plainViews l s.view = some w) :
    ∃ t, Stage [l] [] s t w := by
  obtain ⟨t, hp, hv, hc⟩ := passes_plain l s w hb h
  exact ⟨_, Stage.line hp.line hv hc⟩

theorem setLatch_regs_pushWord (src : WordSource) (p : Pin) (b : Bool) (r : SeqRegs) :
    pushWord src (setLatch p b r) = pushWord src r := by
  cases src <;> cases p <;> rfl

theorem plainViews_push (src : WordSource) (v : View) :
    plainViews (pushLine src) v =
      some { v with
        regs := afterPush (pushWord src v.regs) v.regs, events := v.events ++ pushEvents (pushWord src v.regs) } := by
  cases src <;>
    simp [pushLine, plainViews, plainView, setLatch, pushWord, afterPush, pushEvents, List.flatMap]

/-- `Push` (41_shift_register.md R150): 26 pin writes of the word, and nothing else. -/
theorem stage_push (src : WordSource) (s : State) (hb : s.budget = none) :
    ∃ t, Stage [pushLine src] [] s t { s.view with
      regs := afterPush (pushWord src s.view.regs) s.view.regs
      events := s.view.events ++ pushEvents (pushWord src s.view.regs) } :=
  stage_plain _ s _ hb (plainViews_push src s.view)

/-- `Delay(n)` (42_panel_protocol.md R166). -/
theorem stage_delay (n : Half) (s : State) (hb : s.budget = none) :
    ∃ t, Stage [delayLine n] [] s t { s.view with events := s.view.events ++ [.delay n] } ∧ t.dlyCnt = 0 ∧
      s.now + n.toNat ≤ t.now := by
  obtain ⟨t, hp, hv, hc, hd, hn⟩ := passes_delay n s hb
  exact ⟨_, Stage.line hp.line hv hc, hd, hn⟩

/-- `WaitIdle` (42_panel_protocol.md R160). -/
theorem stage_waitIdle (s : State) (hb : s.budget = none) (hc : s.pge.consistent = true)
    (hn : s.waitEnds) (hs : s.env.busSettles = true) :
    ∃ t, Stage [[.waitIdle]] [] s t s.view ∧ t.pge.quiet := by
  obtain ⟨t, hp, hv, hcalm, hq⟩ := passes_waitIdle s hb hc hn hs
  exact ⟨_, Stage.line hp.line hv hcalm, hq⟩

/-- `Emit` (40_pulse_generator.md R122). -/
theorem stage_emit (h l : Half) (w : Bool) (s : State) (hb : s.budget = none) (hc : s.pge.consistent = true)
    (hn : s.env.notifies = true ∨ (s.pge.pgDone = true ∧ w = false)) :
    ∃ t, Stage [emitLine h l w] (pulseTale s.view.regs.pgSt) s t { s.view with
      regs := afterEmit h l s.view.regs, events := s.view.events ++ pulseEvents s.view.regs.pgSt h l } ∧
      (w = true → s.view.regs.pgSt = .ready → t.pge.quiet) := by
  obtain ⟨t, hp, hv, hg, hq⟩ := run_emit h l w s hb hc hn
  exact ⟨_, Stage.line hp hv hg, hq⟩

/-! ### Growing a stage by one micro-step -/

theorem Stage.nil (s : State) : Stage [] [] s s s.view := ⟨fun _ => rfl, rfl, Calm.refl s⟩

theorem Stage.snoc {ls : Program} {l : Line} {p q : List Event} {s t u : State} {v w : View} (h : Stage ls p s t v)
    (k : Stage [l] q t u w) : Stage (ls ++ [l]) (p ++ q) s u w := h.trans k

theorem Stage.plain {ls : Program} {p : List Event} {s t : State} {v : View} (h : Stage ls p s t v)
    (hb : s.budget = none) (l : Line) (w : View) (hw : plainViews l v = some w) :
    ∃ u, Stage (ls ++ [l]) p s u w ∧ Calm t u := by
  obtain ⟨u, k⟩ := stage_plain l t w (h.goes.budget hb) (by rw [h.view]; exact hw)
  exact ⟨u, by simpa using h.snoc k, k.goes⟩

theorem Stage.push {ls : Program} {p : List Event} {s t : State} {v : View} (h : Stage ls p s t v)
    (hb : s.budget = none) (src : WordSource) :
    ∃ u, Stage (ls ++ [pushLine src]) p s u { v with
      regs := afterPush (pushWord src v.regs) v.regs, events := v.events ++ pushEvents (pushWord src v.regs) } ∧
      Calm t u :=
  h.plain hb _ _ (plainViews_push src v)

theorem Stage.delay {ls : Program} {p : List Event} {s t : State} {v : View} (h : Stage ls p s t v)
    (hb : s.budget = none) (n : Half) :
    ∃ u, Stage (ls ++ [delayLine n]) p s u { v with events := v.events ++ [.delay n] } ∧
      Calm t u ∧ u.dlyCnt = 0 ∧ t.now + n.toNat ≤ u.now := by
  obtain ⟨u, k, hd, hn⟩ := stage_delay n t (h.goes.budget hb)
  have kg := k.goes
  rw [h.view] at k
  exact ⟨u, by simpa using h.snoc k, kg, hd, hn⟩

/-- The premise on the notification: it comes; or, with no pulse started so far, none is in flight and this one is not
waited for. -/
theorem Stage.emit {ls : Program} {p : List Event} {s t : State} {v : View} (h : Stage ls p s t v)
    (hb : s.budget = none) (hc : s.pge.consistent = true) (d l : Half) (w : Bool)
    (hn : s.env.notifies = true ∨ (p = [] ∧ s.pge.pgDone = true ∧ w = false)) :
    ∃ u, Stage (ls ++ [emitLine d l w]) (p ++ pulseTale v.regs.pgSt) s u { v with
      regs := afterEmit d l v.regs, events := v.events ++ pulseEvents v.regs.pgSt d l } ∧
      Goes (pulseTale v.regs.pgSt) t u ∧ (w = true → v.regs.pgSt = .ready → u.pge.quiet) := by
  have hn' : t.env.notifies = true ∨ (t.pge.pgDone = true ∧ w = false) := by
    rcases hn with hn | ⟨rfl, hd, hw⟩
    · exact .inl (h.goes.notifies hn)
    · exact .inr ⟨by rw [(h.goes.idle (quiet_of_done hc hd).1 rfl).1]; exact hd, hw⟩
  obtain ⟨u, k, hq⟩ := stage_emit d l w t (h.goes.budget hb) (h.goes.consistent hc) hn'
  rw [h.view] at k hq
  exact ⟨u, h.snoc k, k.goes, hq⟩

theorem Stage.waitIdle {ls : Program} {p : List Event} {s t : State} {v : View} (h : Stage ls p s t v)
    (hb : s.budget = none) (hc : s.pge.consistent = true) (hs : s.env.busSettles = true)
    (hn : s.env.notifies = true ∨ (p = [] ∧ s.pge.pgDone = true)) :
    ∃ u, Stage (ls ++ [[.waitIdle]]) p s u v ∧ Calm t u ∧ u.pge.quiet := by
  have hn' : t.waitEnds := by
    rcases hn with hn | ⟨rfl, hd⟩
    · exact .inl (h.goes.notifies hn)
    · exact State.waitEnds.calm (.inr hd) hc h.goes
  obtain ⟨u, k, hq⟩ := stage_waitIdle t (h.goes.budget hb) (h.goes.consistent hc) hn'
    (by rw [h.goes.settles]; exact hs)
  have kg := k.goes
  rw [h.view] at k
  exact ⟨u, by simpa using h.snoc k, kg, hq⟩

/-! ### The end of a command -/

theorem done_run (o : Opcode) (r : Response) (s : State) (hb : s.budget = none) :
    runProgram [[.done o r]] s = finish o r s := by
  simp [runProgram, runLine, hasBudget_none s hb, doAction]

theorem respond_seq (r : Response) (s : State) : (respond r s).seq = s.seq := by cases r <;> rfl
theorem respond_pge (r : Response) (s : State) : (respond r s).pge = s.pge := by cases r <;> rfl

theorem respond_seqEvents (r : Response) (s : State) :
    (respond r s).seqEvents = s.seqEvents ++ [.rsp (responseOf r s).1 (responseOf r s).2] := by
  have : (respond r s).trace = s.trace ++ [⟨s.now, .rsp (responseOf r s).1 (responseOf r s).2⟩] := by cases r <;> rfl
  simp [State.seqEvents, State.events, this, Event.byPge]

theorem respond_calm (r : Response) (s : State) : Calm s (respond r s) := by
  have h : (respond r s).pgeEvents = s.pgeEvents := by
    have : (respond r s).trace = s.trace ++ [⟨s.now, .rsp (responseOf r s).1 (responseOf r s).2⟩] := by cases r <;> rfl
    simp [State.pgeEvents, State.events, this, Event.byPge]
  cases r <;> exact Calm.of_seq rfl rfl rfl rfl rfl rfl rfl rfl h

/-- `done(status, data)`: the response, PSM's after value, SEQ idle (10_state.md R25, 42_panel_protocol.md R161). -/
theorem finish_seq (o : Opcode) (r : Response) (s : State) :
    (finish o r s).seq = idleAfter (psmAfter o s.seq.psm) s.seq := by
  simp [finish, passStep_seq, respond_seq, idleAfter]

theorem finish_seqEvents (o : Opcode) (r : Response) (s : State) :
    (finish o r s).seqEvents = s.seqEvents ++ [.rsp (responseOf r s).1 (responseOf r s).2] :=
  (passStep_seqEvents _).trans (respond_seqEvents r s)

theorem finish_calm (o : Opcode) (r : Response) (s : State) : Calm s (finish o r s) :=
  have c : Calm (respond r s) { respond r s with
      seq := { (respond r s).seq with psm := psmAfter o (respond r s).seq.psm, seqOp := 0, seqStep := 0, seqSub := 0 } } :=
    Calm.of_seq rfl rfl rfl rfl rfl rfl rfl rfl rfl
  ((respond_calm r s).trans c).trans (passStep_calm _)

/-- SEQ's registers are told by the view, but for its position. -/
theorem seq_of_view {s : State} {v : View} (h : s.view = v) (p : Psm) : idleAfter p s.seq = idleAfter p v.regs := by
  rw [← h]; rfl

theorem psm_of_view {s : State} {v : View} (h : s.view = v) : s.seq.psm = v.regs.psm := by rw [← h]; rfl

/-- A whole command: its stages up to `done`, then the end. -/
theorem command_done (i : Instr) (o : Opcode) (r : Response) (ls : Program) (p : List Event) (s t : State) (v : View)
    (hg : s.grain = none) (h : Stage ls p (accept i (openStep s)) t v) :
    ∃ u, startCommand i (ls ++ [[.done o r]]) s = .next u ∧ u.seq = idleAfter (psmAfter o v.regs.psm) v.regs ∧
      u.seqEvents = v.events ++ [.rsp (responseOf r t).1 (responseOf r t).2] ∧ Completed p s u ∧ Calm t u := by
  have hb0 : (accept i (openStep s)).budget = none := by simp [openStep, hg]
  have hbt := h.goes.budget hb0
  have c0 : Calm s (accept i (openStep s)) := by
    refine ⟨by simp [openStep], by simp [openStep], fun _ => hb0, by simp [openStep], fun _ => ?_, by simp [openStep],
      by simp [openStep], fun _ _ => ?_, by simp [openStep], by simp [openStep]⟩
    · simp [State.pgeTale, State.pgeEvents, State.events, openStep]
    · simp [State.pgeEvents, State.events, openStep]
  have g : Goes p s (finish o r t) := (Goes.after c0 h.goes).then (finish_calm o r t)
  refine ⟨closeStep (finish o r t), ?_, ?_, ?_, ?_, ?_⟩
  · simp only [startCommand]
    rw [h.run, done_run o r t hbt]
  · show (finish o r t).seq = _
    rw [finish_seq, seq_of_view h.view, psm_of_view h.view]
  · show (finish o r t).seqEvents = _
    rw [finish_seqEvents, ← h.view]; rfl
  · exact ⟨g.params, g.grain, rfl, g.held, g.tale, g.consistent, fun hi hp => (g.idle hi hp).1, g.dly, g.now⟩
  · exact (finish_calm o r t).trans (closeStep_calm _)

/-- The legal set a command is checked against is the table's. -/
theorem legalStates_contains (o : Opcode) (p : Psm) : (legalStates o).contains p = legalSet o p := by
  cases o <;> cases p <;> rfl

/-- Acceptance, said of the view (10_state.md R26, 42_panel_protocol.md R161, R162). -/
theorem accept_view (i : Instr) (s : State) :
    (accept i (openStep s)).view = { s.view with
      regs := { acceptedRegs i s.seq with psm := psmDuring i.opcode s.seq.psm, seqOp := i.opcode.code, seqStep := 0, seqSub := 0 } } := by
  simp only [State.view, accept_seq, acceptedRegs, legalStates_contains]
  simp [openStep, State.seqEvents, State.events]

end Sys2Proof.Machine
end

