-- ==== Sys2Proof/Laws/Encoding.lean ====
section
/-! SUPPORT. The fields of a word built from fields, and the other way round (30_encoding.md R90). -/

namespace Sys2Proof

@[simp] theorem wordOf_opc (o : Byte) (a b : Half) (w : Bool) : (wordOf o a b w).extractLsb' 40 8 = o := by
  apply BitVec.eq_of_getLsbD_eq; intro i hi
  simp only [wordOf, BitVec.getLsbD_extractLsb', BitVec.getLsbD_append]
  rw [if_neg (by omega), if_neg (by omega), if_neg (by omega), if_neg (by omega),
    show 40 + i - 1 - 7 - 16 - 16 = i by omega]
  simp [hi]

@[simp] theorem wordOf_a (o : Byte) (a b : Half) (w : Bool) : (wordOf o a b w).extractLsb' 24 16 = a := by
  apply BitVec.eq_of_getLsbD_eq; intro i hi
  simp only [wordOf, BitVec.getLsbD_extractLsb', BitVec.getLsbD_append]
  rw [if_neg (by omega), if_neg (by omega), if_neg (by omega), if_pos (by omega),
    show 24 + i - 1 - 7 - 16 = i by omega]
  simp [hi]

@[simp] theorem wordOf_b (o : Byte) (a b : Half) (w : Bool) : (wordOf o a b w).extractLsb' 8 16 = b := by
  apply BitVec.eq_of_getLsbD_eq; intro i hi
  simp only [wordOf, BitVec.getLsbD_extractLsb', BitVec.getLsbD_append]
  rw [if_neg (by omega), if_neg (by omega), if_pos (by omega), show 8 + i - 1 - 7 = i by omega]
  simp [hi]

@[simp] theorem wordOf_z (o : Byte) (a b : Half) (w : Bool) : (wordOf o a b w).extractLsb' 1 7 = 0 := by
  apply BitVec.eq_of_getLsbD_eq; intro i hi
  simp only [wordOf, BitVec.getLsbD_extractLsb', BitVec.getLsbD_append]
  simp [hi]

@[simp] theorem wordOf_w (o : Byte) (a b : Half) (w : Bool) :
    (wordOf o a b w).extractLsb' 0 1 = BitVec.ofBool w := by
  apply BitVec.eq_of_getLsbD_eq; intro i hi
  simp only [wordOf, BitVec.getLsbD_extractLsb', BitVec.getLsbD_append]
  simp [hi]

/-- The fields of a word are the fields it was built from. -/
@[simp] theorem fieldsOf_wordOf (o : Byte) (a b : Half) (w : Bool) :
    fieldsOf (wordOf o a b w) = ⟨o, a, b, 0, BitVec.ofBool w⟩ := by
  simp [fieldsOf]

@[simp] theorem zero_append_high (p : Byte) : (0#8 ++ p : Half).extractLsb' 8 8 = 0 := by
  apply BitVec.eq_of_getLsbD_eq; intro i hi
  simp only [BitVec.getLsbD_extractLsb', BitVec.getLsbD_append]
  simp [hi]

@[simp] theorem zero_append_low (p : Byte) : (0#8 ++ p : Half).extractLsb' 0 8 = p := by
  apply BitVec.eq_of_getLsbD_eq; intro i hi
  simp only [BitVec.getLsbD_extractLsb', BitVec.getLsbD_append]
  simp [hi]

/-- An operand A whose high byte is zero is its low byte. -/
theorem append_low_of_high_zero (a : Half) (h : a.extractLsb' 8 8 = 0) : (0#8 ++ a.extractLsb' 0 8 : Half) = a := by
  apply BitVec.eq_of_getLsbD_eq; intro i hi
  simp only [BitVec.getLsbD_append, BitVec.getLsbD_extractLsb']
  by_cases h8 : i < 8
  · simp [h8]
  · have := congrArg (fun v => BitVec.getLsbD v (i - 8)) h
    simp only [BitVec.getLsbD_extractLsb', show i - 8 < 8 by omega, show 8 + (i - 8) = i by omega] at this
    simpa [h8] using this.symm

/-- A one-bit value is one exactly when its bit is set. -/
theorem bit_eq_one (v : BitVec 1) : (v == 1) = v.getLsbD 0 := by
  revert v; decide

@[simp] theorem ofBool_beq_one (w : Bool) : (BitVec.ofBool w == 1#1) = w := by cases w <;> rfl

@[simp] theorem ofBool_eq_one (w : Bool) : (BitVec.ofBool w = 1#1) ↔ w = true := by cases w <;> simp

/-- A word with Z = 0 is built from its fields. -/
theorem wordOf_fieldsOf (c : CmdWord) (h : (fieldsOf c).z = 0) :
    wordOf (fieldsOf c).opc (fieldsOf c).a (fieldsOf c).b ((fieldsOf c).w == 1) = c := by
  have hz : ∀ j, j < 7 → c.getLsbD (1 + j) = false := fun j hj => by
    have := congrArg (fun v => BitVec.getLsbD v j) h
    simpa [fieldsOf, BitVec.getLsbD_extractLsb', hj] using this
  apply BitVec.eq_of_getLsbD_eq; intro i hi
  simp only [wordOf, fieldsOf, BitVec.getLsbD_append, BitVec.getLsbD_extractLsb', bit_eq_one]
  by_cases h0 : i < 1
  · obtain rfl : i = 0 := by omega
    simp
  by_cases h1 : i - 1 < 7
  · have := hz (i - 1) h1
    rw [show 1 + (i - 1) = i by omega] at this
    simp [h0, h1, this]
  by_cases h2 : i - 1 - 7 < 16
  · simp [h0, h1, h2, show 8 + (i - 1 - 7) = i by omega]
  by_cases h3 : i - 1 - 7 - 16 < 16
  · simp [h0, h1, h2, h3, show 24 + (i - 1 - 7 - 16) = i by omega]
  · simp [h0, h1, h2, h3, show 40 + (i - 1 - 7 - 16 - 16) = i by omega, show i - 1 - 7 - 16 - 16 < 8 by omega]

@[simp] theorem ofCode_code (o : Opcode) : Opcode.ofCode o.code = some o := by cases o <;> rfl

/-- No opcode byte is 0: SEQ_OP = 0 is idle (10_state.md R25, 30_encoding.md R101). -/
theorem code_ne_zero (o : Opcode) : o.code ≠ 0 := by cases o <;> decide

/-- The row of an opcode byte has that byte. -/
theorem code_of_ofCode (c : Byte) (o : Opcode) (h : Opcode.ofCode c = some o) : o.code = c := by
  revert c; cases o <;> decide

/-- A decoded command has the opcode of its word. -/
@[simp] theorem buildInstr_opcode (o : Opcode) (x : Fields) : (buildInstr o x).opcode = o := by
  cases o <;> rfl

/-- The three ways R104 ends. -/
theorem decode_cases (m : Half) (c : CmdWord) :
    (decode m c = .error .undefinedOpcode ∧ Opcode.ofCode (fieldsOf c).opc = none) ∨
    (∃ o, Opcode.ofCode (fieldsOf c).opc = some o ∧ mustBeZeroOk o.format (fieldsOf c) = false ∧
      decode m c = .error .nonZeroField) ∨
    (∃ o, Opcode.ofCode (fieldsOf c).opc = some o ∧ mustBeZeroOk o.format (fieldsOf c) = true ∧
      decode m c = if (buildInstr o (fieldsOf c)).wf m then .ok (buildInstr o (fieldsOf c)) else .error .operandValue) := by
  unfold decode
  cases h : Opcode.ofCode (fieldsOf c).opc with
  | none => exact .inl ⟨rfl, rfl⟩
  | some o =>
    cases hz : mustBeZeroOk o.format (fieldsOf c) with
    | false => exact .inr (.inl ⟨o, rfl, hz, by simp [hz]⟩)
    | true => exact .inr (.inr ⟨o, rfl, hz, by simp [hz]⟩)

end Sys2Proof
end

