-- ==== Sys2Proof/Laws/PerInstr.lean ====
section
/-! SUPPORT. Statements made for every command, one lemma a constructor: the family `EncodeFields` of LAWS.json. -/

namespace Sys2Proof.Laws.EncodeFields

/-- What the encoder puts in the five fields, and that the row's must-be-zero fields are zero and the row's builder
gives the command back (30_encoding.md R90, R91, R104). -/
def Statement (i : Instr) : Prop :=
  fieldsOf (encode i) = ⟨i.opcode.code, i.fieldA, i.fieldB, 0, BitVec.ofBool i.fieldW⟩ ∧
  mustBeZeroOk i.opcode.format (fieldsOf (encode i)) = true ∧
  buildInstr i.opcode (fieldsOf (encode i)) = i

theorem pginit (pin : Byte) : Statement (.pginit pin) := by
  simp [Statement, encode, Instr.opcode, Instr.fieldA, Instr.fieldB, Instr.fieldW, Opcode.format, mustBeZeroOk, buildInstr]

theorem emit (high low : Half) (wait : Bool) : Statement (.emit high low wait) := by
  simp [Statement, encode, Instr.opcode, Instr.fieldA, Instr.fieldB, Instr.fieldW, Opcode.format, mustBeZeroOk, buildInstr]

theorem emitus (highUs lowUs : Half) (wait : Bool) : Statement (.emitus highUs lowUs wait) := by
  simp [Statement, encode, Instr.opcode, Instr.fieldA, Instr.fieldB, Instr.fieldW, Opcode.format, mustBeZeroOk, buildInstr]

theorem pgbusy : Statement .pgbusy := by
  simp [Statement, encode, Instr.opcode, Instr.fieldA, Instr.fieldB, Instr.fieldW, Opcode.format, mustBeZeroOk, buildInstr]

theorem push (word : Byte) : Statement (.push word) := by
  simp [Statement, encode, Instr.opcode, Instr.fieldA, Instr.fieldB, Instr.fieldW, Opcode.format, mustBeZeroOk, buildInstr]

theorem init (rowWidth : Half) : Statement (.init rowWidth) := by
  simp [Statement, encode, Instr.opcode, Instr.fieldA, Instr.fieldB, Instr.fieldW, Opcode.format, mustBeZeroOk, buildInstr]

theorem pon : Statement .pon := by
  simp [Statement, encode, Instr.opcode, Instr.fieldA, Instr.fieldB, Instr.fieldW, Opcode.format, mustBeZeroOk, buildInstr]

theorem poff : Statement .poff := by
  simp [Statement, encode, Instr.opcode, Instr.fieldA, Instr.fieldB, Instr.fieldW, Opcode.format, mustBeZeroOk, buildInstr]

theorem poffa : Statement .poffa := by
  simp [Statement, encode, Instr.opcode, Instr.fieldA, Instr.fieldB, Instr.fieldW, Opcode.format, mustBeZeroOk, buildInstr]

theorem sfrm : Statement .sfrm := by
  simp [Statement, encode, Instr.opcode, Instr.fieldA, Instr.fieldB, Instr.fieldW, Opcode.format, mustBeZeroOk, buildInstr]

theorem skip : Statement .skip := by
  simp [Statement, encode, Instr.opcode, Instr.fieldA, Instr.fieldB, Instr.fieldW, Opcode.format, mustBeZeroOk, buildInstr]

theorem orow (outputTime : Half) : Statement (.orow outputTime) := by
  simp [Statement, encode, Instr.opcode, Instr.fieldA, Instr.fieldB, Instr.fieldW, Opcode.format, mustBeZeroOk, buildInstr]

theorem efrm : Statement .efrm := by
  simp [Statement, encode, Instr.opcode, Instr.fieldA, Instr.fieldB, Instr.fieldW, Opcode.format, mustBeZeroOk, buildInstr]

theorem swbuf : Statement .swbuf := by
  simp [Statement, encode, Instr.opcode, Instr.fieldA, Instr.fieldB, Instr.fieldW, Opcode.format, mustBeZeroOk, buildInstr]

theorem curbuf : Statement .curbuf := by
  simp [Statement, encode, Instr.opcode, Instr.fieldA, Instr.fieldB, Instr.fieldW, Opcode.format, mustBeZeroOk, buildInstr]

/-- The statement for every command. -/
theorem all (i : Instr) : Statement i := by
  cases i with
  | pginit pin => exact pginit pin
  | emit high low wait => exact emit high low wait
  | emitus highUs lowUs wait => exact emitus highUs lowUs wait
  | pgbusy => exact pgbusy
  | push word => exact push word
  | init rowWidth => exact init rowWidth
  | pon => exact pon
  | poff => exact poff
  | poffa => exact poffa
  | sfrm => exact sfrm
  | skip => exact skip
  | orow outputTime => exact orow outputTime
  | efrm => exact efrm
  | swbuf => exact swbuf
  | curbuf => exact curbuf

end Sys2Proof.Laws.EncodeFields
end

