-- ==== Sys2Proof/Laws/Position.lean ====
section
/-! SUPPORT. What every action can do with any budget, where SEQ then stands, and one induction over a run: these are
what a statement about every step of the machine is proved from. -/

namespace Sys2Proof.Machine

/-- `t` is `s` after nothing but waiting: SEQ has done nothing, PGE has gone on. -/
structure Still (s t : State) : Prop where
  calm : Calm s t
  seq : t.seq = s.seq
  trace : ∃ es, t.trace = s.trace ++ es ∧ es.all (·.ev.byPge) = true

theorem Still.refl (s : State) : Still s s := ⟨Calm.refl s, rfl, [], by simp⟩

theorem Still.trans {s t u : State} (h : Still s t) (k : Still t u) : Still s u := by
  obtain ⟨es, he, ha⟩ := h.trace
  obtain ⟨fs, hf, hb⟩ := k.trace
  exact ⟨h.calm.trans k.calm, k.seq.trans h.seq, es ++ fs, by rw [hf, he, List.append_assoc],
    by simp only [List.all_append, ha, hb, Bool.and_self]⟩

theorem Still.seqEvents {s t : State} (h : Still s t) : t.seqEvents = s.seqEvents := by
  obtain ⟨es, he, ha⟩ := h.trace
  exact seqEvents_of_trace he ha

theorem elapse_still (n : Nat) (s : State) : Still s (elapse n s) :=
  ⟨elapse_calm n s, (elapse_drift n s).seq, (elapse_drift n s).trace⟩

/-- A change of the model's own bookkeeping and of inputs already sampled. -/
theorem Still.of_env {s t : State} (seq : t.seq = s.seq) (pge : t.pge = s.pge) (params : t.params = s.params)
    (grain : t.grain = s.grain) (budget : s.budget = none → t.budget = none) (tN : t.env.tNotify = s.env.tNotify)
    (held : t.env.held = s.env.held) (dly : t.dlyCnt = s.dlyCnt) (now : t.now = s.now) (trace : t.trace = s.trace) :
    Still s t where
  seq := seq
  trace := ⟨[], by simp [trace], rfl⟩
  calm :=
    { params := params, grain := grain, budget := budget, held := held
      tale := fun _ => by simp [State.pgeTale, State.pgeEvents, State.events, trace, pge]
      consistent := fun h => by rw [pge]; exact h
      notifies := fun h => by simpa [Env.notifies, tN] using h
      idle := fun _ _ => ⟨pge, by simp [State.pgeEvents, State.events, trace]⟩
      dly := fun h => by rw [dly]; exact h
      now := by omega }

theorem spend_still (s : State) : Still s (spend s) := by
  unfold spend
  split
  · exact Still.refl s
  · rename_i b hb
    exact Still.of_env rfl rfl rfl rfl (fun h => by simp [hb] at h) rfl rfl rfl rfl rfl

theorem waitTicks_still (n : Nat) (s : State) : Still s (waitTicks n s) := by
  unfold waitTicks
  split
  · exact elapse_still n s
  · rename_i b hb
    have h := elapse_still (min n b) s
    exact h.trans (Still.of_env rfl rfl rfl rfl
      (fun hn => by rw [(elapse_drift (min n b) s).budget, hb] at hn; simp at hn) rfl rfl rfl rfl rfl)

theorem spinTurn_still (s : State) : Still s (spinTurn s) := by
  unfold spinTurn
  refine Still.trans ?_ (spend_still _)
  have h : Still s { s with env := { s.env with tStep := s.env.tStep.pop } } :=
    Still.of_env rfl rfl rfl rfl id rfl rfl rfl rfl rfl
  exact h.trans (elapse_still _ _)

theorem waitTicks_withheld (n : Nat) (s : State) (h : Withheld s) : Withheld (waitTicks n s) := by
  unfold waitTicks
  split
  · exact elapse_withheld n s h
  · rename_i b _
    have k := elapse_withheld (min n b) s h
    exact ⟨k.flight, k.never, k.flag⟩

theorem spinTurn_withheld (s : State) (h : Withheld s) : Withheld (spinTurn s) := by
  have k : Withheld (elapse (1 + s.env.tStep.head) { s with env := { s.env with tStep := s.env.tStep.pop } }) :=
    elapse_withheld _ _ ⟨h.flight, h.never, h.flag⟩
  unfold spinTurn spend
  split
  · exact k
  · exact ⟨k.flight, k.never, k.flag⟩

/-- Everything the accepting turn does before the word has its effect. -/
theorem passAccept_still (s : State) :
    Still { s with env := { s.env with tAccept := s.env.tAccept.pop } } (passAccept s) := elapse_still _ _

/-- The state in which a step finds the word it accepts. -/
theorem passAccept_turn (s : State) :
    passAccept s.takeRst.dropCmd = elapse s.env.acceptTicks
      { s with env := { s.env.nextTurn with rst := s.env.rst.pop, tAccept := s.env.tAccept.pop } } := by
  rw [takeRst_dropCmd]
  simp [passAccept, Env.acceptTicks]

@[simp] theorem passAccept_seq (s : State) : (passAccept s).seq = s.seq := (passAccept_still s).seq
@[simp] theorem passAccept_params (s : State) : (passAccept s).params = s.params := (passAccept_still s).calm.params
@[simp] theorem passAccept_grain (s : State) : (passAccept s).grain = s.grain := (passAccept_still s).calm.grain
@[simp] theorem passAccept_now (s : State) : (passAccept s).now = s.now + s.env.acceptTicks := elapse_now _ _

theorem passStep_still (s : State) : Still s (passStep s) := by
  have h : Still s { s with env := { s.env with tStep := s.env.tStep.pop } } :=
    Still.of_env rfl rfl rfl rfl id rfl rfl rfl rfl rfl
  exact h.trans (elapse_still _ _)

/-- How a wait ends: it goes on with PG_DONE = 1, or SEQ stays where it is. -/
structure Waits (s : State) (f : Flow) : Prop where
  go : ∀ t, f = .go t → Still s t ∧ t.pge.pgDone = true
  skip : ∀ t, f ≠ .skip t
  stop : ∀ t, f = .stop t → Still s t

theorem Waits.of_go {s t : State} (h : Still s t) (hd : t.pge.pgDone = true) : Waits s (.go t) where
  go := fun u hu => by cases hu; exact ⟨h, hd⟩
  skip := fun u hu => by cases hu
  stop := fun u hu => by cases hu

theorem Waits.of_stop {s t : State} (h : Still s t) : Waits s (.stop t) where
  go := fun u hu => by cases hu
  skip := fun u hu => by cases hu
  stop := fun u hu => by cases hu; exact h

theorem awaitDone_waits (s : State) : Waits s (awaitDone s) := by
  unfold awaitDone
  by_cases hd : s.pge.pgDone = true
  · rw [if_pos hd]
    exact .of_go (Still.refl s) hd
  · rw [if_neg hd]
    have hs := waitTicks_still (max 1 (ticksToDone s)) s
    simp only []
    split
    · rename_i hp
      exact .of_go hs hp
    · exact .of_stop (hs)

theorem Waits.of_still {s t : State} {f : Flow} (h : Still s t) (w : Waits t f) : Waits s f :=
  ⟨fun u hu => ⟨h.trans (w.go u hu).1, (w.go u hu).2⟩, w.skip, fun u hu => h.trans (w.stop u hu)⟩

theorem waitIdleTurns_waits (later : List Bool) : ∀ s, Waits s (waitIdleTurns later s) := by
  induction later with
  | nil =>
    intro s
    unfold waitIdleTurns
    split
    · exact .of_stop (waitTicks_still 1 s)
    · exact awaitDone_waits s
  | cons busy later ih =>
    intro s
    unfold waitIdleTurns
    split
    · have hp : Still s { s with env := { s.env with busBusy := s.env.busBusy.pop } } :=
        Still.of_env rfl rfl rfl rfl id rfl rfl rfl rfl rfl
      simp only []
      split
      · rename_i hg
        simp only [Bool.and_eq_true] at hg
        exact .of_go hp hg.2
      · exact Waits.of_still (hp.trans (spinTurn_still _)) (ih _)
    · exact .of_stop (Still.refl s)

/-- With the notification withheld, SEQ stays in `Emit`'s wait, and in `WaitIdle` whatever the bus engine reports
(40_pulse_generator.md R122, 42_panel_protocol.md R160). -/
theorem awaitDone_withheld (s : State) (h : Withheld s) : ∃ t, awaitDone s = .stop t ∧ Withheld t := by
  have k := waitTicks_withheld (max 1 (ticksToDone s)) s h
  exact ⟨_, by simp [awaitDone, h.flag, k.flag], k⟩

theorem waitIdleTurns_withheld (later : List Bool) : ∀ s, Withheld s →
    ∃ t, waitIdleTurns later s = .stop t ∧ Withheld t := by
  induction later with
  | nil =>
    intro s h
    unfold waitIdleTurns
    split
    · exact ⟨_, rfl, waitTicks_withheld 1 s h⟩
    · exact awaitDone_withheld s h
  | cons busy later ih =>
    intro s h
    unfold waitIdleTurns
    split
    · simp only [h.flag, Bool.and_false]
      exact ih _ (spinTurn_withheld _ ⟨h.flight, h.never, h.flag⟩)
    · exact ⟨s, rfl, h⟩

/-- How the wait for an answer ends. -/
structure Answers (got : Bool → State → State) (s : State) (f : Flow) : Prop where
  go : ∀ t, f = .go t → ∃ ok u, t = got ok u ∧ Still s u
  skip : ∀ t, f ≠ .skip t
  stop : ∀ t, f = .stop t → Still s t

theorem Answers.of_go {got : Bool → State → State} {s t : State} (ok : Bool) (h : Still s t) :
    Answers got s (.go (got ok t)) where
  go := fun u hu => by cases hu; exact ⟨ok, t, rfl, h⟩
  skip := fun u hu => by cases hu
  stop := fun u hu => by cases hu

theorem Answers.of_stop {got : Bool → State → State} {s t : State} (h : Still s t) : Answers got s (.stop t) where
  go := fun u hu => by cases hu
  skip := fun u hu => by cases hu
  stop := fun u hu => by cases hu; exact h

theorem answerTurns_answers (pop : State → State) (hpop : ∀ s, Still s (pop s)) (got : Bool → State → State)
    (rest : Option Bool) (later : List (Option Bool)) : ∀ s, Answers got s (answerTurns pop got rest later s) := by
  induction later with
  | nil =>
    intro s
    unfold answerTurns
    split
    · rename_i ok
      exact .of_go ok (Still.refl s)
    · exact .of_stop (waitTicks_still 1 s)
  | cons a later ih =>
    intro s
    unfold answerTurns
    split
    · split
      · rename_i ok
        exact .of_go ok (hpop s)
      · have hs := (hpop s).trans (spinTurn_still (pop s))
        have := ih (spinTurn (pop s))
        exact ⟨fun t h => by obtain ⟨ok, u, he, hu⟩ := this.go t h; exact ⟨ok, u, he, hs.trans hu⟩, this.skip,
          fun t h => hs.trans (this.stop t h)⟩
    · exact .of_stop (Still.refl s)

theorem busInitAns_answers (s : State) : Answers busInitDone s (doAction .busInitAns s) :=
  answerTurns_answers (fun t => { t with env := { t.env with busInitOk := t.env.busInitOk.pop } })
    (fun _ => Still.of_env rfl rfl rfl rfl id rfl rfl rfl rfl rfl) _ _ _ s

theorem pgAllocAns_answers (s : State) : Answers pgAllocDone s (doAction .pgAllocAns s) :=
  answerTurns_answers (fun t => { t with env := { t.env with pgAllocOk := t.env.pgAllocOk.pop } })
    (fun _ => Still.of_env rfl rfl rfl rfl id rfl rfl rfl rfl rfl) _ _ _ s

/-- A delay goes on when DLY_CNT has expired, else SEQ stays. -/
theorem delayWait_flow (s : State) :
    (∃ t, doAction .delayWait s = .go t ∧ Still s t) ∨ (∃ t, doAction .delayWait s = .stop t ∧ Still s t) := by
  have h := waitTicks_still s.dlyCnt.toNat s
  simp only [doAction]
  split
  · exact .inl ⟨_, rfl, h⟩
  · exact .inr ⟨_, rfl, h⟩

/-- Everything between two actions but the sub-index. -/
theorem afterAction_still (s : State) :
    ∃ t, afterAction s = t ∧ Still { s with seq := { s.seq with seqSub := s.seq.seqSub + 1 } } t := by
  refine ⟨_, rfl, ?_⟩
  unfold afterAction
  refine Still.trans ?_ (spend_still _)
  have h : Still { s with seq := { s.seq with seqSub := s.seq.seqSub + 1 } }
      { s with seq := { s.seq with seqSub := s.seq.seqSub + 1 }, env := { s.env with tStep := s.env.tStep.pop } } :=
    Still.of_env rfl rfl rfl rfl id rfl rfl rfl rfl rfl
  exact h.trans (elapse_still _ _)

theorem afterAction_seq (s : State) : (afterAction s).seq = { s.seq with seqSub := s.seq.seqSub + 1 } := by
  obtain ⟨t, ht, h⟩ := afterAction_still s
  rw [ht, h.seq]

theorem afterAction_params (s : State) : (afterAction s).params = s.params := by
  obtain ⟨t, ht, h⟩ := afterAction_still s
  rw [ht, h.calm.params]

/-! ### What an action leaves of SEQ's position and latch -/

/-- What no action but `done` changes: the opcode in execution, the operand latch, the position, the parameters, HOST's
inputs. -/
structure Steady (s t : State) : Prop where
  seqOp : t.seq.seqOp = s.seq.seqOp
  seqStep : t.seq.seqStep = s.seq.seqStep
  seqSub : t.seq.seqSub = s.seq.seqSub
  a : t.seq.a = s.seq.a
  b : t.seq.b = s.seq.b
  w : t.seq.w = s.seq.w
  params : t.params = s.params
  grain : t.grain = s.grain
  rst : t.env.rst = s.env.rst
  cmds : t.env.cmds = s.env.cmds
  cmdsLater : t.env.cmdsLater = s.env.cmdsLater

theorem Steady.refl (s : State) : Steady s s := ⟨rfl, rfl, rfl, rfl, rfl, rfl, rfl, rfl, rfl, rfl, rfl⟩

theorem Still.steady {s t : State} (h : Still s t) : Steady s t where
  seqOp := by rw [h.seq]
  seqStep := by rw [h.seq]
  seqSub := by rw [h.seq]
  a := by rw [h.seq]
  b := by rw [h.seq]
  w := by rw [h.seq]
  params := h.calm.params
  grain := h.calm.grain
  rst := by have := congrArg (·.rst) h.calm.held; simpa [Env.held] using this
  cmds := by have := congrArg (·.cmds) h.calm.held; simpa [Env.held] using this
  cmdsLater := by have := congrArg (·.cmdsLater) h.calm.held; simpa [Env.held] using this

theorem Steady.trans {s t u : State} (h : Steady s t) (k : Steady t u) : Steady s u :=
  ⟨k.seqOp.trans h.seqOp, k.seqStep.trans h.seqStep, k.seqSub.trans h.seqSub, k.a.trans h.a, k.b.trans h.b, k.w.trans h.w,
    k.params.trans h.params, k.grain.trans h.grain, k.rst.trans h.rst, k.cmds.trans h.cmds, k.cmdsLater.trans h.cmdsLater⟩

theorem busInitDone_steady (ok : Bool) (s : State) : Steady s (busInitDone ok s) := by
  cases ok
  · exact ⟨rfl, rfl, rfl, rfl, rfl, rfl, rfl, rfl, rfl, rfl, rfl⟩
  · exact Steady.refl s

theorem pgAllocDone_steady (ok : Bool) (s : State) : Steady s (pgAllocDone ok s) := by
  cases ok <;> exact ⟨rfl, rfl, rfl, rfl, rfl, rfl, rfl, rfl, rfl, rfl, rfl⟩

theorem setLatch_steady (p : Pin) (v : Bool) (s : State) : Steady s (writePin p v s) := by
  cases p <;> exact ⟨rfl, rfl, rfl, rfl, rfl, rfl, rfl, rfl, rfl, rfl, rfl⟩

/-- An action that goes on is steady. -/
theorem doAction_go_steady (x : Action) (s t : State) (h : doAction x s = .go t) : Steady s t := by
  cases x
  case waitIdle => exact ((waitIdleTurns_waits _ s).go t h).1.steady
  case awaitDone => exact ((awaitDone_waits s).go t h).1.steady
  case busInitAns =>
    obtain ⟨ok, u, rfl, hu⟩ := (busInitAns_answers s).go t h
    exact hu.steady.trans (busInitDone_steady ok u)
  case pgAllocAns =>
    obtain ⟨ok, u, rfl, hu⟩ := (pgAllocAns_answers s).go t h
    exact hu.steady.trans (pgAllocDone_steady ok u)
  case delayWait =>
    obtain ⟨u, hu, hs⟩ | ⟨u, hu, -⟩ := delayWait_flow s
    · rw [hu] at h; cases h; exact hs.steady
    · rw [hu] at h; cases h
  case emitGuard =>
    simp only [doAction] at h
    split at h <;> cases h
    exact Steady.refl s
  case pgInitGuard =>
    simp only [doAction] at h
    split at h <;> cases h
    exact Steady.refl s
  case pinOut p v => cases h; exact setLatch_steady p v s
  case dataBit src i => cases h; exact setLatch_steady _ _ s
  case dirOut p => cases h; cases p <;> exact ⟨rfl, rfl, rfl, rfl, rfl, rfl, rfl, rfl, rfl, rfl, rfl⟩
  all_goals first
    | (cases h; exact ⟨rfl, rfl, rfl, rfl, rfl, rfl, rfl, rfl, rfl, rfl, rfl⟩)
    | cases h

/-- An action that skips the rest of its line is a guard, and flags at most MISUSE. -/
theorem doAction_skip (x : Action) (s t : State) (h : doAction x s = .skip t) :
    (x = .emitGuard ∧ s.seq.pgSt = .failed ∧ t = s) ∨ (x = .emitGuard ∧ s.seq.pgSt = .uninit ∧ t = flagMisuse s) ∨
      (x = .pgInitGuard ∧ s.seq.pgSt ≠ .uninit ∧ t = flagMisuse s) := by
  cases x
  case waitIdle => exact absurd h ((waitIdleTurns_waits _ s).skip t)
  case awaitDone => exact absurd h ((awaitDone_waits s).skip t)
  case busInitAns => exact absurd h ((busInitAns_answers s).skip t)
  case pgAllocAns => exact absurd h ((pgAllocAns_answers s).skip t)
  case delayWait =>
    obtain ⟨u, hu, -⟩ | ⟨u, hu, -⟩ := delayWait_flow s
    all_goals rw [hu] at h; cases h
  case emitGuard =>
    simp only [doAction] at h
    split at h
    · cases h
    · rename_i hp; cases h; exact .inl ⟨rfl, hp, rfl⟩
    · rename_i hp; cases h; exact .inr (.inl ⟨rfl, hp, rfl⟩)
  case pgInitGuard =>
    simp only [doAction] at h
    split at h
    · cases h
    · rename_i hp; cases h; exact .inr (.inr ⟨rfl, by simp [hp], rfl⟩)
    · rename_i hp; cases h; exact .inr (.inr ⟨rfl, by simp [hp], rfl⟩)
  all_goals cases h

theorem doAction_skip_steady (x : Action) (s t : State) (h : doAction x s = .skip t) : Steady s t := by
  obtain ⟨-, -, rfl⟩ | ⟨-, -, rfl⟩ | ⟨-, -, rfl⟩ := doAction_skip x s t h
  · exact Steady.refl _
  all_goals exact ⟨rfl, rfl, rfl, rfl, rfl, rfl, rfl, rfl, rfl, rfl, rfl⟩

/-- SEQ stays where it is in a wait, or the command ends. -/
theorem doAction_stop (x : Action) (s t : State) (h : doAction x s = .stop t) :
    Still s t ∨ ∃ o r, x = .done o r ∧ t = finish o r s := by
  cases x
  case waitIdle => exact .inl ((waitIdleTurns_waits _ s).stop t h)
  case awaitDone => exact .inl ((awaitDone_waits s).stop t h)
  case busInitAns => exact .inl ((busInitAns_answers s).stop t h)
  case pgAllocAns => exact .inl ((pgAllocAns_answers s).stop t h)
  case delayWait =>
    obtain ⟨u, hu, -⟩ | ⟨u, hu, hs⟩ := delayWait_flow s
    · rw [hu] at h; cases h
    · rw [hu] at h; cases h; exact .inl hs
  case emitGuard => simp only [doAction] at h; split at h <;> cases h
  case pgInitGuard => simp only [doAction] at h; split at h <;> cases h
  case done o r => cases h; exact .inr ⟨o, r, rfl, rfl⟩
  all_goals cases h

/-- The variant latch is written by one action only (10_state.md R38). -/
theorem doAction_go_variant (x : Action) (s t : State) (h : doAction x s = .go t) (hx : x ≠ .latchVariant) :
    t.seq.variantL = s.seq.variantL := by
  cases x
  case latchVariant => exact absurd rfl hx
  case waitIdle => rw [((waitIdleTurns_waits _ s).go t h).1.seq]
  case awaitDone => rw [((awaitDone_waits s).go t h).1.seq]
  case busInitAns =>
    obtain ⟨ok, u, rfl, hu⟩ := (busInitAns_answers s).go t h
    rw [← hu.seq]; cases ok <;> rfl
  case pgAllocAns =>
    obtain ⟨ok, u, rfl, hu⟩ := (pgAllocAns_answers s).go t h
    rw [← hu.seq]; cases ok <;> rfl
  case delayWait =>
    obtain ⟨u, hu, hs⟩ | ⟨u, hu, -⟩ := delayWait_flow s
    · rw [hu] at h; cases h; rw [hs.seq]
    · rw [hu] at h; cases h
  case emitGuard => simp only [doAction] at h; split at h <;> cases h; rfl
  case pgInitGuard => simp only [doAction] at h; split at h <;> cases h; rfl
  case pinOut p v => cases h; cases p <;> rfl
  case dirOut p => cases h; cases p <;> rfl
  all_goals first
    | (cases h; rfl)
    | cases h

theorem doAction_skip_variant (x : Action) (s t : State) (h : doAction x s = .skip t) :
    t.seq.variantL = s.seq.variantL := by
  obtain ⟨-, -, rfl⟩ | ⟨-, -, rfl⟩ | ⟨-, -, rfl⟩ := doAction_skip x s t h <;> rfl

/-! ### Where SEQ stands -/

/-- The last micro-step of a program is `done`. -/
def Ends (p : Program) : Prop := ∃ pre o r, p = pre ++ [[.done o r]]

theorem programOf_ends (i : Instr) (s : State) : Ends (programOf i s) := by
  have key : ∀ p : Program, ∀ o r, p.getLast? = some [.done o r] → Ends p := fun p o r h => by
    obtain ⟨ys, hy⟩ := List.getLast?_eq_some_iff.mp h
    exact ⟨ys, o, r, hy⟩
  cases i <;> exact key _ _ _ rfl

/-- A rest of such a program that has an action to do also ends in `done`. -/
theorem ends_drop {p : Program} (h : Ends p) (k n : Nat) (line : Line) (lines : Program) (x : Action) (xs : Line)
    (hd : p.drop k = line :: lines) (hx : line.drop n = x :: xs) : Ends ((x :: xs) :: lines) := by
  obtain ⟨pre, o, r, rfl⟩ := h
  cases lines with
  | nil =>
    have hl : line = [.done o r] := by
      have := congrArg List.getLast? hd
      have hne : k < (pre ++ [[Action.done o r]]).length := by
        by_contra hc
        rw [List.drop_eq_nil_of_le (by omega)] at hd
        cases hd
      rw [List.getLast?_drop, if_neg (by omega)] at this
      simpa using this.symm
    subst hl
    cases n with
    | zero => simp at hx; obtain ⟨rfl, rfl⟩ := hx; exact ⟨[], o, r, rfl⟩
    | succ n => simp at hx
  | cons m ms =>
    have hl : (m :: ms).getLast? = some [.done o r] := by
      have := congrArg List.getLast? hd
      have hne : k < (pre ++ [[Action.done o r]]).length := by
        by_contra hc
        rw [List.drop_eq_nil_of_le (by omega)] at hd
        cases hd
      rw [List.getLast?_drop, if_neg (by omega)] at this
      simp at this
      simpa using this.symm
    obtain ⟨ys, hy⟩ := List.getLast?_eq_some_iff.mp hl
    exact ⟨(x :: xs) :: ys, o, r, by rw [hy]; rfl⟩

/-- SEQ executes command `i` and stands before the rest `p` of its program. -/
structure At (i : Instr) (p : Program) (s : State) : Prop where
  instr : latchedInstr s.params.maxTicks s.seq = some i
  place : ∃ k line lines, s.seq.seqStep = k + 1 ∧ (programOf i s).drop k = line :: lines ∧
    p = line.drop s.seq.seqSub :: lines

theorem At.remaining {i : Instr} {x : Action} {xs : Line} {ls : Program} {s : State} (h : At i ((x :: xs) :: ls) s) :
    remaining s = (x :: xs) :: ls := by
  obtain ⟨k, line, lines, hk, hd, hp⟩ := h.place
  simp only [List.cons.injEq] at hp
  simp [Machine.remaining, h.instr, hk, hd, ← hp.1, hp.2]

/-- A busy state whose position names an action stands somewhere in the program of its command. -/
theorem at_of_remaining {s : State} {l : Line} {ls : Program} (h : remaining s = l :: ls) :
    ∃ i x xs, l = x :: xs ∧ At i ((x :: xs) :: ls) s ∧ Ends ((x :: xs) :: ls) := by
  unfold remaining at h
  split at h
  · cases h
  · cases h
  · rename_i i k hi hk
    split at h
    · cases h
    · rename_i line lines hd
      split at h
      · cases h
      · rename_i x xs hx
        cases h
        exact ⟨i, x, xs, rfl, ⟨hi, k, line, _, hk, hd, by rw [hx]⟩,
          ends_drop (programOf_ends i s) k _ line _ x xs hd hx⟩

theorem latched_steady {s t : State} (h : Steady s t) :
    latchedInstr t.params.maxTicks t.seq = latchedInstr s.params.maxTicks s.seq := by
  simp [latchedInstr, h.seqOp, h.a, h.b, h.w, h.params]

theorem programOf_eq {s t : State} (i : Instr) (hp : t.params = s.params)
    (hv : i = .skip → t.seq.variantL = s.seq.variantL) : programOf i t = programOf i s := by
  cases i <;> simp [programOf, hp]
  rw [hv rfl]

/-- SKIP's program has no action that writes the variant latch. -/
theorem At.no_latch {x : Action} {xs : Line} {ls : Program} {s : State} (h : At .skip ((x :: xs) :: ls) s) :
    x ≠ .latchVariant := by
  rintro rfl
  obtain ⟨k, line, lines, -, hd, hp⟩ := h.place
  simp only [List.cons.injEq] at hp
  have h1 : line ∈ programOf .skip s := List.mem_of_mem_drop (i := k) (by rw [hd]; exact List.mem_cons_self)
  have h2 : Action.latchVariant ∈ line := List.mem_of_mem_drop (i := s.seq.seqSub) (by rw [← hp.1]; exact List.mem_cons_self)
  simp only [programOf, skipProgram, emitLine, List.mem_cons, List.not_mem_nil, or_false] at h1
  rcases h1 with rfl | rfl | rfl <;> simp at h2

/-- After an action, SEQ stands at the next one. -/
theorem At.advance {i : Instr} {x : Action} {xs : Line} {ls : Program} {s t : State} (h : At i ((x :: xs) :: ls) s)
    (hs : Steady s t) (hv : i = .skip → t.seq.variantL = s.seq.variantL) : At i (xs :: ls) (afterAction t) := by
  obtain ⟨k, line, lines, hk, hd, hp⟩ := h.place
  simp only [List.cons.injEq] at hp
  have hseq := afterAction_seq t
  have hpar := afterAction_params t
  refine ⟨?_, k, line, lines, ?_, ?_, ?_⟩
  · rw [hpar, hseq]
    have := latched_steady hs
    rw [h.instr] at this
    exact this
  · rw [hseq]; exact hs.seqStep.trans hk
  · rw [programOf_eq (s := s) i (by rw [hpar, hs.params]) (fun hi => by rw [hseq]; exact hv hi), hd]
  · rw [hseq]
    simp only [List.cons.injEq]
    refine ⟨?_, hp.2⟩
    show xs = line.drop (t.seq.seqSub + 1)
    rw [hs.seqSub, ← List.drop_drop, ← hp.1]; rfl

theorem At.go {i : Instr} {x : Action} {xs : Line} {ls : Program} {s t : State} (h : At i ((x :: xs) :: ls) s)
    (hd : doAction x s = .go t) : At i (xs :: ls) (afterAction t) :=
  h.advance (doAction_go_steady x s t hd) (fun hi => by
    subst hi
    exact doAction_go_variant x s t hd h.no_latch)

/-- At the end of a micro-step, SEQ stands at the next micro-step. -/
theorem at_next {i : Instr} {ls : Program} {s : State}
    (h : latchedInstr s.params.maxTicks s.seq = some i ∧
      ∃ k line, s.seq.seqStep = k + 1 ∧ (programOf i s).drop k = line :: ls) (hl : ls ≠ []) : At i ls (nextStep s) := by
  obtain ⟨hi, k, line, hk, hd⟩ := h
  obtain ⟨m, ms, rfl⟩ := List.exists_cons_of_ne_nil hl
  refine ⟨hi, k + 1, m, ms, by simp [nextStep, hk], ?_, rfl⟩
  have : (programOf i s).drop (k + 1) = m :: ms := by
    rw [← List.drop_drop, hd]; rfl
  exact this

/-- SEQ is in the micro-step before the rest `ls` of its program. -/
def Within (i : Instr) (ls : Program) (s : State) : Prop :=
  latchedInstr s.params.maxTicks s.seq = some i ∧
    ∃ k line, s.seq.seqStep = k + 1 ∧ (programOf i s).drop k = line :: ls

theorem At.within {i : Instr} {l : Line} {ls : Program} {s : State} (h : At i (l :: ls) s) : Within i ls s := by
  obtain ⟨k, line, lines, hk, hd, hp⟩ := h.place
  simp only [List.cons.injEq] at hp
  exact ⟨h.instr, k, line, hk, by rw [hd, hp.2]⟩

theorem Within.skip {i : Instr} {x : Action} {xs : Line} {ls : Program} {s t : State} (h : At i ((x :: xs) :: ls) s)
    (hd : doAction x s = .skip t) : Within i ls (afterAction t) :=
  (h.advance (doAction_skip_steady x s t hd) (fun _ => doAction_skip_variant x s t hd)).within

/-- Induction over a run. `I` holds of the rest of the program and the state at every action; `J` of where the run ends:
at the end of the budget, in a wait, or with the command done. -/
theorem run_induct (i : Instr) (I : Program → State → Prop) (J : State → Prop)
    (go : ∀ x xs ls s t, At i ((x :: xs) :: ls) s → Ends ((x :: xs) :: ls) → I ((x :: xs) :: ls) s →
      doAction x s = .go t → At i (xs :: ls) (afterAction t) → I (xs :: ls) (afterAction t))
    (skip : ∀ x xs ls s t, At i ((x :: xs) :: ls) s → Ends ((x :: xs) :: ls) → I ((x :: xs) :: ls) s →
      doAction x s = .skip t → I ([] :: ls) (afterAction t))
    (next : ∀ ls s, ls ≠ [] → Within i ls s → I ([] :: ls) s → At i ls (nextStep s) → I ls (nextStep s))
    (stop : ∀ x xs ls s t, At i ((x :: xs) :: ls) s → Ends ((x :: xs) :: ls) → I ((x :: xs) :: ls) s →
      doAction x s = .stop t → J t)
    (pause : ∀ x xs ls s, At i ((x :: xs) :: ls) s → Ends ((x :: xs) :: ls) → I ((x :: xs) :: ls) s →
      hasBudget s = false → J s) :
    ∀ (ls : Program) (l : Line) (s : State), At i (l :: ls) s → Ends (l :: ls) → (l ≠ [] ∨ ls ≠ []) → I (l :: ls) s →
      J (runProgram (l :: ls) s) := by
  intro ls
  induction ls with
  | nil =>
    intro l s ha he hne hI
    obtain ⟨pre, o, r, hp⟩ := he
    have : l = [.done o r] := by
      cases pre with
      | nil => simpa using hp
      | cons q qs => simp at hp
    subst this
    simp only [runProgram, runLine]
    by_cases hb : hasBudget s = true
    · simp only [hb, if_true, doAction]
      exact stop (.done o r) [] [] s _ ha ⟨[], o, r, rfl⟩ hI rfl
    · have hb : hasBudget s = false := by simpa using hb
      simp only [hb]
      exact pause (.done o r) [] [] s ha ⟨[], o, r, rfl⟩ hI hb
  | cons m ms ih =>
    have hnext : ∀ s, Within i (m :: ms) s → (∃ l, Ends (l :: m :: ms)) → I ([] :: m :: ms) s →
        J (runProgram (m :: ms) (nextStep s)) := by
      intro s hw he hI
      obtain ⟨l, pre, o, r, hp⟩ := he
      have hat := at_next hw (List.cons_ne_nil m ms)
      have he' : Ends (m :: ms) := by
        cases pre with
        | nil => simp at hp
        | cons q qs => simp at hp; exact ⟨qs, o, r, hp.2⟩
      by_cases hm : m ≠ [] ∨ ms ≠ []
      · exact ih m (nextStep s) hat he' hm (next _ s (List.cons_ne_nil m ms) hw hI hat)
      · obtain ⟨rfl, rfl⟩ : m = [] ∧ ms = [] := by
          constructor <;> by_contra hc
          · exact hm (.inl hc)
          · exact hm (.inr hc)
        obtain ⟨pre, o, r, hp⟩ := he'
        cases pre <;> simp at hp
    intro l
    induction l with
    | nil =>
      intro s ha he _ hI
      simp only [runProgram, runLine]
      exact hnext s ha.within ⟨_, he⟩ hI
    | cons x xs ihl =>
      intro s ha he _ hI
      have hrun : runProgram ((x :: xs) :: m :: ms) s =
          if hasBudget s then
            match doAction x s with
            | .go t => runProgram (xs :: m :: ms) (afterAction t)
            | .skip t => runProgram (m :: ms) (nextStep (afterAction t))
            | .stop t => t
          else s := by
        conv => lhs; unfold runProgram; rw [runLine]
        by_cases hb : hasBudget s = true
        · simp only [hb, if_true]
          cases doAction x s <;> rfl
        · simp only [hb]; rfl
      rw [hrun]
      by_cases hb : hasBudget s = true
      · simp only [hb, if_true]
        cases hx : doAction x s with
        | go t =>
          refine ihl (afterAction t) (ha.go hx) ?_ (.inr (List.cons_ne_nil m ms)) (go x xs _ s t ha he hI hx (ha.go hx))
          obtain ⟨pre, o, r, hp⟩ := he
          cases pre with
          | nil => simp at hp
          | cons q qs => simp at hp; exact ⟨xs :: qs, o, r, by rw [hp.2]; rfl⟩
        | skip t =>
          exact hnext (afterAction t) (Within.skip ha hx) ⟨_, he⟩ (skip x xs _ s t ha he hI hx)
        | stop t => exact stop x xs _ s t ha he hI hx
      · have hb : hasBudget s = false := by simpa using hb
        simp only [hb]
        exact pause x xs _ s ha he hI hb

/-- A command has just been accepted: SEQ stands at the start of its program. The premise is the round trip of the
encoding. -/
theorem at_accept (i : Instr) (s : State) (h : decode s.params.maxTicks (encode i) = .ok i) :
    ∃ l ls, programOf i s = l :: ls ∧ At i (l :: ls) (accept i (openStep s)) ∧ Ends (l :: ls) ∧ (l ≠ [] ∨ ls ≠ []) := by
  obtain ⟨pre, o, r, hp⟩ := programOf_ends i s
  have hne : programOf i s ≠ [] := by rw [hp]; simp
  obtain ⟨l, ls, hl⟩ := List.exists_cons_of_ne_nil hne
  have hq : programOf i (accept i (openStep s)) = programOf i s :=
    programOf_eq i (by simp [openStep]) (fun _ => by simp [accept_seq, openStep])
  refine ⟨l, ls, hl, ⟨?_, 0, l, ls, ?_, ?_, ?_⟩, ⟨pre, o, r, by rw [← hl, hp]⟩, ?_⟩
  · have h' : decode s.params.maxTicks (wordOf i.opcode.code i.fieldA i.fieldB i.fieldW) = .ok i := h
    simp [latchedInstr, accept_seq, openStep, h']
  · simp [accept_seq]
  · rw [List.drop_zero, hq, hl]
  · simp [accept_seq]
  · by_contra hc
    simp only [not_or, not_not] at hc
    obtain ⟨rfl, rfl⟩ := hc
    rw [hl] at hp
    cases pre <;> simp at hp

/-! ### The trace only grows -/

/-- `t`'s trace is `s`'s with more events behind (00_scope.md R13). -/
def Grows (s t : State) : Prop := ∃ es, t.trace = s.trace ++ es

theorem Grows.refl (s : State) : Grows s s := ⟨[], by simp⟩

theorem Grows.trans {s t u : State} (h : Grows s t) (k : Grows t u) : Grows s u := by
  obtain ⟨es, he⟩ := h
  obtain ⟨fs, hf⟩ := k
  exact ⟨es ++ fs, by rw [hf, he, List.append_assoc]⟩

theorem Grows.of_eq {s t : State} (h : t.trace = s.trace) : Grows s t := ⟨[], by simp [h]⟩

theorem Still.grows {s t : State} (h : Still s t) : Grows s t := by
  obtain ⟨es, he, -⟩ := h.trace
  exact ⟨es, he⟩

theorem afterAction_grows (s : State) : Grows s (afterAction s) := by
  obtain ⟨t, ht, h⟩ := afterAction_still s
  rw [ht]
  exact Grows.trans (t := { s with seq := { s.seq with seqSub := s.seq.seqSub + 1 } }) (Grows.of_eq rfl) h.grows

/-- The state a flow ends in, however it ends. -/
def Flow.state : Flow → State
  | .go s => s
  | .skip s => s
  | .stop s => s

theorem doAction_grows (x : Action) (s : State) : Grows s (doAction x s).state := by
  cases hx : doAction x s with
  | skip t =>
    obtain ⟨-, -, rfl⟩ | ⟨-, -, rfl⟩ | ⟨-, -, rfl⟩ := doAction_skip x s t hx
    · exact Grows.refl _
    all_goals exact Grows.of_eq rfl
  | stop t =>
    obtain hs | ⟨o, r, -, rfl⟩ := doAction_stop x s t hx
    · exact hs.grows
    · exact Grows.trans (t := respond r s) (by cases r <;> exact ⟨_, rfl⟩)
        (Grows.trans (t := { respond r s with
          seq := { (respond r s).seq with psm := psmAfter o (respond r s).seq.psm, seqOp := 0, seqStep := 0, seqSub := 0 } })
          (Grows.of_eq rfl) (passStep_still _).grows)
  | go t =>
    show Grows s t
    cases x
    case waitIdle => exact ((waitIdleTurns_waits _ s).go t hx).1.grows
    case awaitDone => exact ((awaitDone_waits s).go t hx).1.grows
    case busInitAns =>
      obtain ⟨ok, u, rfl, hu⟩ := (busInitAns_answers s).go t hx
      exact hu.grows.trans (Grows.of_eq (by cases ok <;> rfl))
    case pgAllocAns =>
      obtain ⟨ok, u, rfl, hu⟩ := (pgAllocAns_answers s).go t hx
      cases ok
      · exact hu.grows.trans (Grows.of_eq rfl)
      · exact hu.grows.trans ⟨_, rfl⟩
    case delayWait =>
      obtain ⟨u, hu, hs⟩ | ⟨u, hu, -⟩ := delayWait_flow s
      · rw [hu] at hx; cases hx; exact hs.grows
      · rw [hu] at hx; cases hx
    case emitGuard => simp only [doAction] at hx; split at hx <;> cases hx; exact Grows.refl s
    case pgInitGuard => simp only [doAction] at hx; split at hx <;> cases hx; exact Grows.refl s
    case start =>
      cases hx
      exact Grows.trans (t := emitEvent (.pulse s.seq.pgD0 s.seq.pgD1 s.seq.pgP1p) s) ⟨_, rfl⟩ ⟨_, rfl⟩
    all_goals first
      | (cases hx; exact ⟨_, rfl⟩)
      | (cases hx; exact Grows.of_eq rfl)
      | cases hx

theorem runLine_grows (l : Line) : ∀ s, Grows s (runLine l s).state := by
  induction l with
  | nil => exact Grows.refl
  | cons x xs ih =>
    intro s
    have hx := doAction_grows x s
    unfold runLine
    split
    · split <;> rename_i t ht <;> rw [ht] at hx
      · exact (hx.trans (afterAction_grows t)).trans (ih _)
      · exact hx.trans (afterAction_grows t)
      · exact hx
    · exact Grows.refl s

/-- Whatever SEQ runs only adds to the trace. -/
theorem runProgram_grows (p : Program) : ∀ s, Grows s (runProgram p s) := by
  induction p with
  | nil => exact Grows.refl
  | cons l ls ih =>
    intro s
    have hl := runLine_grows l s
    unfold runProgram
    split <;> rename_i t ht <;> rw [ht] at hl
    · exact (hl.trans (Grows.of_eq rfl)).trans (ih (nextStep t))
    · exact hl
    · exact hl

/-! ### Everything a step can do -/

/-- A command runs its program from acceptance, but for a second INIT. -/
theorem exec_eq (i : Instr) (s : State) :
    exec i s =
      if (∃ n, i = .init n) ∧ s.seq.psm ≠ .uninit then .next (closeStep (ignoreSecondInit i s))
      else startCommand i (programOf i s) s := by
  cases i
  case init n =>
    simp only [exec, execInit, programOf]
    split <;> simp_all
  all_goals
    rw [if_neg (fun h => by obtain ⟨⟨n, hn⟩, -⟩ := h; cases hn)]
    rfl

/-- Everything a step with `rst` low can do. -/
inductive Stepped (s : State) : State → Prop
  /-- SEQ is idle and no word is presented: a tick passes. -/
  | idle : s.seq.seqOp = 0 → s.env.turn = none → Stepped s (elapse 1 s.takeRst.dropCmd)
  /-- An illegal word. -/
  | illegal (c : CmdWord) (e : Reject) : s.seq.seqOp = 0 → s.env.turn = some c → decode s.params.maxTicks c = .error e →
      Stepped s (illegalWord (passAccept s.takeRst.dropCmd))
  /-- A second INIT. -/
  | second (c : CmdWord) (n : Half) : s.seq.seqOp = 0 → s.env.turn = some c →
      decode s.params.maxTicks c = .ok (.init n) → s.seq.psm ≠ .uninit →
      Stepped s (closeStep (ignoreSecondInit (.init n) (passAccept s.takeRst.dropCmd)))
  /-- A command is accepted and runs as far as it can. -/
  | command (c : CmdWord) (i : Instr) (l : Line) (ls : Program) :
      s.seq.seqOp = 0 → s.env.turn = some c → decode s.params.maxTicks c = .ok i →
      (∀ n, i = .init n → s.seq.psm = .uninit) → programOf i s = l :: ls →
      At i (l :: ls) (accept i (openStep (passAccept s.takeRst.dropCmd))) → Ends (l :: ls) → (l ≠ [] ∨ ls ≠ []) →
      Stepped s (closeStep (runProgram (l :: ls) (accept i (openStep (passAccept s.takeRst.dropCmd)))))
  /-- The command in execution goes on. -/
  | busy (i : Instr) (x : Action) (xs : Line) (ls : Program) : s.seq.seqOp ≠ 0 → remaining s = (x :: xs) :: ls →
      At i ((x :: xs) :: ls) (openStep s.takeRst) → Ends ((x :: xs) :: ls) →
      Stepped s (closeStep (runProgram ((x :: xs) :: ls) (openStep s.takeRst)))

/-- The premise `rt` is the round trip of the encoding at decoded words. -/
theorem step_cases {s t : State} (rt : ∀ c i, decode s.params.maxTicks c = .ok i → decode s.params.maxTicks (encode i) = .ok i)
    (hr : s.env.rst.head = false) (h : step s = .next t) : Stepped s t := by
  unfold step at h
  simp only [hr] at h
  by_cases hop : s.seq.seqOp = 0
  · simp only [hop, if_true] at h
    cases hc : s.env.turn with
    | none => simp [hc] at h; subst h; exact .idle hop hc
    | some c =>
      simp [hc, acceptWord] at h
      cases hd : decode s.params.maxTicks c with
      | error e => simp [hd] at h; subst h; exact .illegal c e hop hc hd
      | ok i =>
        simp [hd] at h
        rw [exec_eq] at h
        split at h
        · rename_i hi
          obtain ⟨⟨n, rfl⟩, hp⟩ := hi
          cases h; exact .second c n hop hc hd (by simpa using hp)
        · rename_i hi
          obtain ⟨l, ls, hl, ha, hen, hne⟩ := at_accept i (passAccept s.takeRst.dropCmd)
            (by simpa using rt c i hd)
          rw [hl] at h
          cases h
          exact .command c i l ls hop hc hd
            (fun n hn => by subst hn; by_contra hp; exact hi ⟨⟨n, rfl⟩, by simpa using hp⟩)
            ((programOf_eq i (by simp) (fun _ => by simp)).symm.trans hl) ha hen hne
  · simp only [hop, if_false] at h
    simp [resume] at h
    have hr2 : remaining s.takeRst = remaining s := rfl
    cases hrem : remaining s with
    | nil => simp [hr2, hrem] at h
    | cons l ls =>
      simp [hr2, hrem] at h
      obtain ⟨i, x, xs, rfl, ha, he⟩ := at_of_remaining hrem
      subst h
      exact .busy i x xs ls hop hrem ⟨ha.instr, ha.place⟩ he

end Sys2Proof.Machine
end

