-- ==== Sys2Proof/Machine/Asm.lean ====
section
/-! DEFINITION. The text form of a command (30_encoding.md R102): the mnemonic in upper case, then its operands separated
by commas, decimal or `0x` hexadecimal; `;` starts a comment. One command a line; there are no labels, directives or
pseudo-instructions (R103). White space around an operand is allowed (log 22). -/

namespace Sys2Proof.Asm

/-- The mnemonic of each row (R92). -/
def mnemonic : Opcode → List Char
  | .pginit => ['P', 'G', 'I', 'N', 'I', 'T']
  | .emit => ['E', 'M', 'I', 'T']
  | .emitus => ['E', 'M', 'I', 'T', 'U', 'S']
  | .pgbusy => ['P', 'G', 'B', 'U', 'S', 'Y']
  | .push => ['P', 'U', 'S', 'H']
  | .init => ['I', 'N', 'I', 'T']
  | .pon => ['P', 'O', 'N']
  | .poff => ['P', 'O', 'F', 'F']
  | .poffa => ['P', 'O', 'F', 'F', 'A']
  | .sfrm => ['S', 'F', 'R', 'M']
  | .skip => ['S', 'K', 'I', 'P']
  | .orow => ['O', 'R', 'O', 'W']
  | .efrm => ['E', 'F', 'R', 'M']
  | .swbuf => ['S', 'W', 'B', 'U', 'F']
  | .curbuf => ['C', 'U', 'R', 'B', 'U', 'F']

/-- The fifteen rows, in the table's order. -/
def opcodes : List Opcode :=
  [.pginit, .emit, .emitus, .pgbusy, .push, .init, .pon, .poff, .poffa, .sfrm, .skip, .orow, .efrm, .swbuf, .curbuf]

/-- Whether a character is white space. -/
def isBlank (c : Char) : Bool := c == ' ' || c == '\t'

/-- The value of a digit in base 16. -/
def digit (c : Char) : Option Nat :=
  if '0'.toNat ≤ c.toNat ∧ c.toNat ≤ '9'.toNat then some (c.toNat - '0'.toNat)
  else if 'a'.toNat ≤ c.toNat ∧ c.toNat ≤ 'f'.toNat then some (c.toNat - 'a'.toNat + 10)
  else if 'A'.toNat ≤ c.toNat ∧ c.toNat ≤ 'F'.toNat then some (c.toNat - 'A'.toNat + 10)
  else none

/-- The digits of a number in a base, most significant first. -/
def digits (base : Nat) : Nat → List Char → Option Nat
  | acc, [] => some acc
  | acc, c :: cs =>
    match digit c with
    | some d => if d < base then digits base (acc * base + d) cs else none
    | none => none

/-- A decimal or `0x` hexadecimal number. -/
def number : List Char → Option Nat
  | [] => none
  | '0' :: 'x' :: c :: cs => digits 16 0 (c :: cs)
  | c :: cs => digits 10 0 (c :: cs)

/-- White space removed at both ends. -/
def trim (cs : List Char) : List Char := ((cs.dropWhile isBlank).reverse.dropWhile isBlank).reverse

/-- The pieces between commas. -/
def splitCommas : List Char → List (List Char)
  | [] => [[]]
  | c :: cs =>
    match splitCommas cs with
    | [] => [[c]]
    | p :: ps => if c == ',' then [] :: p :: ps else (c :: p) :: ps

/-- The operand texts of a command; none when nothing follows the mnemonic. -/
def operandTexts (cs : List Char) : List (List Char) :=
  match trim cs with
  | [] => []
  | t :: ts => (splitCommas (t :: ts)).map trim

/-- The operands of a command, as numbers. -/
def operands : List (List Char) → Option (List Nat)
  | [] => some []
  | t :: ts =>
    match number t, operands ts with
    | some n, some ns => some (n :: ns)
    | _, _ => none

/-- The command of a row with given operands, each within its field (R91). -/
def build : Opcode → List Nat → Option Instr
  | .pginit, [n] => if n < 256 then some (.pginit (BitVec.ofNat 8 n)) else none
  | .push, [n] => if n < 256 then some (.push (BitVec.ofNat 8 n)) else none
  | .init, [n] => if n < 65536 then some (.init (BitVec.ofNat 16 n)) else none
  | .orow, [n] => if n < 65536 then some (.orow (BitVec.ofNat 16 n)) else none
  | .emit, [h, l, w] =>
    if h < 65536 ∧ l < 65536 ∧ w < 2 then some (.emit (BitVec.ofNat 16 h) (BitVec.ofNat 16 l) (w == 1)) else none
  | .emitus, [h, l, w] =>
    if h < 65536 ∧ l < 65536 ∧ w < 2 then some (.emitus (BitVec.ofNat 16 h) (BitVec.ofNat 16 l) (w == 1)) else none
  | .pgbusy, [] => some .pgbusy
  | .pon, [] => some .pon
  | .poff, [] => some .poff
  | .poffa, [] => some .poffa
  | .sfrm, [] => some .sfrm
  | .skip, [] => some .skip
  | .efrm, [] => some .efrm
  | .swbuf, [] => some .swbuf
  | .curbuf, [] => some .curbuf
  | _, _ => none

/-- The command of a line, comment and outer white space removed; none for a line that is no command. -/
def parseLine (line : List Char) : Option Instr :=
  let text := trim (line.takeWhile (· != ';'))
  let word := text.takeWhile (fun c => !isBlank c)
  match opcodes.find? (fun o => mnemonic o == word) with
  | none => none
  | some o =>
    match operands (operandTexts (text.drop word.length)) with
    | some ns => build o ns
    | none => none

/-- The command of a line given as a string. -/
def parse (line : String) : Option Instr := parseLine line.toList

end Sys2Proof.Asm
end

