-- ==== Sys2Proof/Tests/Slice0.lean ====
section
/-! SUPPORT. Tests on fixed values. Every expected result is written from the spec: the vectors V<n> of
95_test_vectors.md, the tables of 30_encoding.md. The witnesses at the end meet the hypotheses of the statements. -/

namespace Sys2Proof.Tests

-- One test at a time: each `decide` in a thread of its own takes too much memory.
set_option Elab.async false

open Sys2Proof Sys2Proof.Machine

/-- The state after one command; `none` if the machine stops. -/
def after (i : Instr) (s : State) : Option State :=
  match exec i s with
  | .next t => some t
  | .fault _ => none
  | .refused _ => none

/-- One step of the machine; `none` if it stops. -/
def stepOf (s : State) : Option State :=
  match step s with
  | .next t => some t
  | .fault _ => none
  | .refused _ => none

/-! ### Operand checks (30_encoding.md R93, R94; V14, V15, V26) -/

theorem test_wf_emit_both_zero : (Instr.emit 0 0 true).wf 65535 = false := by decide
theorem test_wf_emit_high_too_long : (Instr.emit 32768 1 false).wf 32767 = false := by decide
theorem test_wf_emit_low_too_long : (Instr.emit 1 32768 false).wf 32767 = false := by decide
theorem test_wf_emit_longest : (Instr.emit 65535 65535 true).wf 65535 = true := by decide
theorem test_wf_emitus_both_zero : (Instr.emitus 0 0 true).wf 65535 = false := by decide
theorem test_wf_emitus_high_too_long : (Instr.emitus 6554 0 false).wf 65535 = false := by decide
theorem test_wf_emitus_low_too_long : (Instr.emitus 0 6554 false).wf 65535 = false := by decide
theorem test_wf_emitus_longest : (Instr.emitus 6553 6553 false).wf 65535 = true := by decide

/-! ### Decoding: words written out field by field (30_encoding.md R90 to R92; V26) -/

theorem test_decode_pginit : decode 65535 0x100007000000 = .ok (.pginit 7) := by decide
theorem test_decode_emit : decode 65535 0x110064003201 = .ok (.emit 100 50 true) := by decide
theorem test_decode_emitus : decode 65535 0x120000000500 = .ok (.emitus 0 5 false) := by decide
theorem test_decode_pgbusy : decode 65535 0x130000000000 = .ok .pgbusy := by decide
theorem test_decode_push : decode 65535 0x200032000000 = .ok (.push 0x32) := by decide
theorem test_decode_init : decode 65535 0x3003C0000000 = .ok (.init 960) := by decide
theorem test_decode_pon : decode 65535 0x310000000000 = .ok .pon := by decide
theorem test_decode_poff : decode 65535 0x320000000000 = .ok .poff := by decide
theorem test_decode_poffa : decode 65535 0x330000000000 = .ok .poffa := by decide
theorem test_decode_sfrm : decode 65535 0x340000000000 = .ok .sfrm := by decide
theorem test_decode_skip : decode 65535 0x350000000000 = .ok .skip := by decide
theorem test_decode_orow : decode 65535 0x36FFFF000000 = .ok (.orow 65535) := by decide
theorem test_decode_efrm : decode 65535 0x370000000000 = .ok .efrm := by decide
theorem test_decode_swbuf : decode 65535 0x380000000000 = .ok .swbuf := by decide
theorem test_decode_curbuf : decode 65535 0x390000000000 = .ok .curbuf := by decide

/-- V26: the illegal words. -/
theorem test_decode_illegal :
    ([0x100107000000, 0x110064003202, 0x130000000001, 0x200100000000, 0x3003C0000100, 0x310000000002,
      0x350001000000] : List CmdWord).all (fun c => decode 65535 c == .error .nonZeroField) = true ∧
    ([0x110000000000, 0x12199A000000] : List CmdWord).all (fun c => decode 65535 c == .error .operandValue) = true ∧
    ([0x3A0000000000, 0, 0xFFFFFFFFFFFF] : List CmdWord).all
      (fun c => decode 65535 c == .error .undefinedOpcode) = true := by decide

/-- The table's numbering of bits is the word's own. -/
theorem test_decodeTableWord :
    decodeTableWord 48 0x3003C0000000 = some (.init 960) ∧ decodeTableWord 48 0x3A0000000000 = none := by decide

/-- The fetch word is the next command the machine runs (V24), here in an accepting turn of no tick. -/
theorem test_withFetchWord :
    stepOf ({ State.reset with env := { Env.reset with tAccept := ⟨[0], 0⟩ } }.withFetchWord 48 0x380000000000) =
      after .swbuf State.reset := by decide +kernel

/-! ### The text form (30_encoding.md R102) -/

theorem test_parse_operands : Asm.parse "EMIT 100, 0x32, 1 ; row" = some (.emit 100 50 true) := by decide
theorem test_parse_plain : Asm.parse "PON" = some .pon ∧ Asm.parse "PUSH 256" = none := by decide

/-- 00_scope.md R8: the defaults meet what the rules ask of the parameters. -/
theorem test_params : Config.Params.default.ok = true := by decide

/-! ### One command each -/

/-- The state after reset with given inputs. -/
def withEnv (f : Env → Env) : State := { State.reset with env := f State.reset.env }

/-- A session in a given state: generator ready, all pins outputs, a given word. -/
def session (p : Psm) (cfg : Byte) : State :=
  { State.reset with
    seq := { SeqRegs.reset with
      psm := p, cfg := cfg, pgSt := .ready
      dirCfgData := true, dirCfgClk := true, dirCfgStr := true, dirSpl := true, dirCkv := true } }

/-- A pulse in flight: phase 0 with `n` ticks to go, and no phase 1. -/
def inFlight (n : Half) (s : State) : State :=
  { s with pge := ⟨.ph0, n, false, true⟩, seq := { s.seq with pgD0 := n, pgP1p := false } }

/-- The trace without the three wires' pins, and the words pushed on them as bytes. -/
def rest (s : State) : List Event :=
  s.events.filter fun e =>
    match e with
    | .pin .cfgData _ => false
    | .pin .cfgClk _ => false
    | .pin .cfgStr _ => false
    | .pin .spl _ => true
    | .pin .ckv _ => true
    | .dir _ => true
    | .delay _ => true
    | .pulse _ _ _ => true
    | .ckv _ => true
    | .notify => true
    | .busInit _ => true
    | .busStart => true
    | .busSwitch => true
    | .pgAlloc _ => true
    | .rsp _ _ => true

def pushed (s : State) : List Nat := (pushedBits s.events).map (·.foldl (fun n b => 2 * n + b.toNat) 0)

/-- V3, the 26 events in full. -/
theorem test_push_events :
    (after (.push 0x32) State.reset).map (·.events) = some
      [.pin .cfgStr false,
       .pin .cfgClk false, .pin .cfgData false, .pin .cfgClk true,
       .pin .cfgClk false, .pin .cfgData false, .pin .cfgClk true,
       .pin .cfgClk false, .pin .cfgData true, .pin .cfgClk true,
       .pin .cfgClk false, .pin .cfgData true, .pin .cfgClk true,
       .pin .cfgClk false, .pin .cfgData false, .pin .cfgClk true,
       .pin .cfgClk false, .pin .cfgData false, .pin .cfgClk true,
       .pin .cfgClk false, .pin .cfgData true, .pin .cfgClk true,
       .pin .cfgClk false, .pin .cfgData false, .pin .cfgClk true,
       .pin .cfgStr true, .rsp 0 0] := by decide +kernel

/-- V3, the end state and the reference receiver. -/
theorem test_push_end :
    (after (.push 0x32) State.reset).map (fun t =>
      ((t.seq.cfgStr, t.seq.cfgClk, t.seq.cfgData, t.seq.cfg),
       t.seq.psm, t.seq.misuse, ((⟨0x5A, 0xFF, true, true, true⟩ : Receiver).after t.events).latch)) =
      some ((true, true, false, 0), .uninit, false, 0x32) := by decide +kernel

/-- V12. -/
theorem test_pginit_first :
    (after (.pginit 7) State.reset).map (fun t => (t.events, t.seq.pgSt, t.seq.pgPin, t.seq.dirCkv)) =
      some ([.pgAlloc 7, .dir .ckv, .rsp 0 0], .ready, 7, true) := by decide +kernel

/-- V12, the allocator's answer not ok, and a second PGINIT after it. -/
theorem test_pginit_failed_and_again :
    ((after (.pginit 7) (withEnv fun e => { e with pgAllocOk := ⟨[], some false⟩ })).bind (after (.pginit 9))).map
      (fun t => (t.events, t.seq.pgSt, t.seq.pgPin, t.seq.dirCkv, t.seq.misuse)) =
      some ([.pgAlloc 7, .rsp 1 2, .rsp 1 2], .failed, 7, false, true) := by decide +kernel

/-- V6: the zero-high pulse, waited for. -/
theorem test_emit_zero_high :
    (after (.emit 0 20 true) (session .frameActive 0)).map (fun t => (t.events, t.seq.pgP1p, t.pge.pgDone, t.now)) =
      some ([.pulse 20 0 false, .ckv true, .ckv false, .notify, .rsp 0 0], false, true, 20) := by decide +kernel

/-- V16: no generator. -/
theorem test_emit_uninit :
    (after (.emit 5 5 true) State.reset).map (fun t => (t.events, t.seq.misuse)) = some ([.rsp 0 0], true) := by
  decide +kernel

/-- V14. -/
theorem test_emitus_two_phase :
    (after (.emitus 1 1 true) (session .frameActive 0)).map (·.events) =
      some [.pulse 10 10 true, .ckv true, .ckv false, .notify, .rsp 0 0] := by decide +kernel

/-- V14: a single high phase of 50 ticks. -/
theorem test_emitus_zero_high :
    (after (.emitus 0 5 false) (session .frameActive 0)).map (·.seqEvents) =
      some [.pulse 50 0 false, .rsp 0 0] := by decide +kernel

/-- V13: busy while the pulse is in flight; V16: not busy without one. -/
theorem test_pgbusy :
    (after .pgbusy (inFlight 9 (session .uninit 0))).map (·.events) = some [.rsp 0 1] ∧
    (after .pgbusy State.reset).map (·.events) = some [.rsp 0 0] := by decide +kernel

/-- 00_scope.md R14: the one micro-step of PGBUSY takes T_STEP, here 5 ticks, in which a pulse with 3 ticks to go ends. -/
theorem test_pgbusy_time :
    (after .pgbusy (inFlight 3 { session .uninit 0 with env := { Env.reset with tStep := ⟨[5], 0⟩ } })).map
      (fun t => (t.events, t.now)) = some ([.rsp 0 1, .ckv false, .notify], 5) := by decide +kernel

/-- V1. -/
theorem test_init_960 :
    (after (.init 960) (withEnv fun e => { e with variant := ⟨[true], false⟩ })).map (fun t =>
      ((rest t, pushed t, t.seq.cfg), t.seq.psm, t.seq.pgSt, t.seq.variantL, t.seq.misuse)) =
      some (([.dir .cfgData, .dir .cfgClk, .dir .cfgStr, .dir .spl, .busInit 992, .pgAlloc 0, .dir .ckv, .rsp 0 0],
        [0x32], 0x32), .powerOff, .ready, true, false) := by decide +kernel

/-- V17: no wrap in 17 bits, both initialisations failing, and a second INIT with the same response. -/
theorem test_init_failed_and_again :
    ((after (.init 65535) (withEnv fun e =>
      { e with pgAllocOk := ⟨[], some false⟩, busInitOk := ⟨[], some false⟩ })).bind (after (.init 960))).map
      (fun t => (rest t, t.seq.busFail, t.seq.pgSt, t.seq.psm, t.seq.misuse)) =
      some ([.dir .cfgData, .dir .cfgClk, .dir .cfgStr, .dir .spl, .busInit 65567, .pgAlloc 0, .rsp 1 3, .rsp 1 3],
        true, .failed, .powerOff, true) := by decide +kernel

/-- V11. -/
theorem test_pon_zeroed :
    (after .pon (session .powerOff 0)).map (fun t => (pushed t, rest t, t.seq.cfg, t.seq.psm, t.seq.spl)) =
      some ([0x20, 0x28, 0x2C, 0x3C], [.delay 1000, .delay 5000, .delay 1000, .pin .spl true, .rsp 0 0], 0x3C,
        .poweredOn, true) := by decide +kernel

/-- V18. -/
theorem test_poff_powered :
    (after .poff (session .poweredOn 0x3C)).map (fun t => (pushed t, rest t, t.seq.cfg, t.seq.psm)) =
      some ([0x38, 0x30, 0x32, 0x22], [.delay 100, .delay 1000, .rsp 0 0], 0x22, .powerOff) := by decide +kernel

/-- V19: no wait for the pulse in flight or the busy engine. -/
theorem test_poffa_waits_for_nothing :
    (after .poffa (inFlight 500
      { session .frameActive 0xFC with env := { Env.reset with busBusy := ⟨[], true⟩ } })).map (fun t =>
      (pushed t, rest t, t.seq.cfg, t.seq.psm, t.pge.pgDone)) =
      some ([0], [.rsp 0 0], 0, .powerOff, false) := by decide +kernel

/-- V21: SEQ's events and the end state. -/
theorem test_sfrm_frame :
    (after .sfrm (session .poweredOn 0x3C)).map (fun t =>
      ((pushed t, (rest t).filter (fun e => !e.byPge), t.seq.cfg), t.seq.psm, t.seq.pgD0, t.seq.pgD1, t.seq.pgP1p)) =
      some (([0x7C, 0x6C, 0x7C, 0xFC],
        [.pulse 1 1 true, .delay 10, .pulse 10 10 true, .pulse 10 0 false, .pulse 1 1 true, .rsp 0 0], 0xFC),
        .frameActive, 1, 1, true) := by decide +kernel

/-- V25: SFRM from reset. -/
theorem test_sfrm_misuse :
    (after .sfrm State.reset).map (fun t => (pushed t, rest t, t.seq.misuse, t.seq.psm, t.pad .cfgData)) =
      some ([0x40, 0x40, 0x50, 0xD0], [.delay 10, .rsp 0 0], true, .uninit, none) := by decide +kernel

/-- V22: the two profiles, the bus engine busy. -/
theorem test_skip_profiles :
    (after .skip { session .frameActive 0xFC with env := { Env.reset with busBusy := ⟨[], true⟩ } }).map
      (·.seqEvents) = some [.pulse 2 2 true, .rsp 0 0] ∧
    (after .skip { session .frameActive 0xFC with
      seq := { (session .frameActive 0xFC).seq with variantL := true } }).map (·.seqEvents) =
      some [.pulse 45 5 true, .rsp 0 0] := by decide +kernel

/-- V20: the row pulse of zero ticks is a single high phase. -/
theorem test_orow_zero :
    (after (.orow 0) (session .frameActive 0xFC)).map (fun t => (pushed t, (rest t).filter (fun e => !e.byPge))) =
      some ([0xFD, 0xFC], [.pulse 50 0 false, .busStart, .busSwitch, .rsp 0 0]) := by decide +kernel

/-- V9: blocked while the bus engine is busy. -/
theorem test_orow_blocked :
    (after (.orow 100)
      { session .frameActive 0xFC with env := { Env.reset with busBusy := ⟨[], true⟩ } }).map (fun t =>
      (t.events, t.ports.stBusy, t.cmdReady, t.seq.seqStep)) = some ([], true, false, 1) := by decide +kernel

/-- V23, with no pulse in flight. -/
theorem test_efrm_end :
    (after .efrm (session .frameActive 0xFC)).map (fun t => (pushed t, rest t, t.seq.cfg, t.seq.psm)) =
      some ([0x7C, 0x3C],
        [.pulse 10 10 true, .ckv true, .ckv false, .notify, .pulse 10 10 true, .ckv true, .ckv false, .notify, .rsp 0 0],
        0x3C, .poweredOn) := by decide +kernel

/-- V24. -/
theorem test_swbuf : (after .swbuf (session .frameActive 0)).map (·.events) = some [.busSwitch, .rsp 0 0] := by
  decide +kernel

/-- V24. -/
theorem test_curbuf :
    (after .curbuf { session .frameActive 0 with env := { Env.reset with busCurbuf := ⟨[], 0x3FFB1000⟩ } }).map
      (·.events) = some [.rsp 0 0x3FFB1000] := by decide +kernel

/-- R101: the step on an illegal word. -/
theorem test_illegal_step :
    (stepOf (withEnv fun e => { e with cmds := [some 0x12199A000000] })).map (fun t =>
      (t.events, t.seq.illegal, t.seq.misuse, t.seq.cfg)) = some ([.rsp 2 0], true, false, 0) := by decide

/-- 00_scope.md R17: quiescent at reset; not with a pulse in flight, nor with a word presented. A turn in which HOST
presents nothing is one in which nothing is presented. -/
theorem test_quiescent :
    State.reset.quiescent = true ∧ (withEnv fun e => { e with cmds := [none] }).quiescent = true ∧
    (withEnv fun e => { e with cmds := [some 0x310000000000] }).quiescent = false ∧
    (inFlight 9 (session .frameActive 0)).quiescent = false := by decide

/-- 92_eei_decisions.md D34: a pointer of 16 bits, zero-extended. -/
theorem test_curbuf_narrow :
    (after .curbuf { session .frameActive 0 with
      params := { Config.Params.default with ptrW := 16 }
      env := { Env.reset with busCurbuf := ⟨[], 0xBEEF⟩ } }).map (·.events) = some [.rsp 0 0x0000BEEF] := by
  decide +kernel

/-- R230: reset in the middle of a pulse. -/
theorem test_reset_mid_pulse :
    (stepOf (inFlight 9 { session .frameActive 0xFC with env := { Env.reset with rst := ⟨[true], false⟩ } })).map
      (fun t => (t.seq == SeqRegs.reset, t.pge == PgeRegs.reset, t.events)) = some (true, true, [.ckv false]) := by decide

/-- 10_state.md R25: with a grain of one action, PON stops after its first micro-step's action and stays busy. -/
theorem test_grain_one :
    (after .pon { session .powerOff 0 with grain := some 1 }).map (fun t =>
      (t.seq.cfg, t.seq.seqOp, t.ports.stPsm, t.events)) = some (0x20, 0x31, 2, []) := by decide +kernel

/-! ### Witnesses: a concrete state and operands that meet all the hypotheses of each statement together -/

theorem exec_next {i : Instr} {s : State} (p : State → Bool) (h : (after i s).any p = true) :
    ∃ t, exec i s = .next t ∧ p t = true := by
  unfold after at h
  cases hx : exec i s with
  | next t => simp only [hx, Option.any_some] at h; exact ⟨t, rfl, h⟩
  | fault f => simp [hx] at h
  | refused r => simp [hx] at h

theorem step_next {s : State} (p : State → Bool) (h : (stepOf s).any p = true) :
    ∃ t, step s = .next t ∧ p t = true := by
  unfold stepOf at h
  cases hx : step s with
  | next t => simp only [hx, Option.any_some] at h; exact ⟨t, rfl, h⟩
  | fault f => simp [hx] at h
  | refused r => simp [hx] at h

/-- A session with a failed generator; with none. -/
def noGen (st : PgSt) (s : State) : State := { s with seq := { s.seq with pgSt := st } }

/-- SEQ in the middle of a command. -/
def midway (o : Opcode) (a b : Half) (w : Bool) (k n : Nat) (s : State) : State :=
  { s with seq := { s.seq with seqOp := o.code, a := a, b := b, w := w, seqStep := k, seqSub := n } }

/-- Every notification withheld. -/
def withheld (s : State) : State := { s with env := { s.env with tNotify := ⟨[], none⟩ } }

/-- The next command presented. -/
def presenting (c : CmdWord) (s : State) : State := { s with env := { s.env with cmds := [some c] } }

theorem witness_DecodeOfEncodeIsTheCommand :
    (Instr.emit 65535 65535 true).wf 65535 = true ∧ (Instr.emitus 0 6553 false).wf 65535 = true := by decide

theorem witness_DecodedWordIsItsEncoding : decode 65535 0x11FFFFFFFF01 = .ok (.emit 65535 65535 true) := by decide

theorem witness_RowsSelectTheDecodedCommand :
    rows.any (·.selects 0x110064003201) = true ∧ rows.any (·.selects 0x110000000000) = true ∧
    rows.all (fun r => !r.selects 0x310000000002) = true ∧ rows.all (fun r => !r.selects 0x3A0000000000) = true ∧
    decode 65535 0x110064003201 = .ok (.emit 100 50 true) := by decide

theorem witness_StepRunsTheDecodedCommand :
    (let s := presenting 0x3003C0000000 State.reset
     s.env.rst.head = false ∧ s.seq.seqOp = 0 ∧ s.env.turn = some 0x3003C0000000 ∧
     decode s.params.maxTicks 0x3003C0000000 = .ok (.init 960)) := by decide

theorem witness_IllegalWordIsOnlyReported :
    (let s := presenting 0x110000000000 State.reset
     s.env.rst.head = false ∧ s.seq.seqOp = 0 ∧ s.env.turn = some 0x110000000000 ∧
     decode s.params.maxTicks 0x110000000000 = .error .operandValue) ∧
    ([0x0F0000000000, 0x140000000000, 0x1F0000000000, 0x210000000000, 0x2F0000000000, 0x3A0000000000] :
      List CmdWord).all (fun c =>
        let opc := (c.extractLsb' 40 8).toNat
        decide (opc ≤ 0x0F ∨ (0x14 ≤ opc ∧ opc ≤ 0x1F) ∨ (0x21 ≤ opc ∧ opc ≤ 0x2F) ∨ 0x3A ≤ opc)) = true := by decide

theorem witness_BusyStepLeavesWordAndLatch :
    (let s := midway .orow 100 0 false 1 0 (presenting 0x380000000000 (session .frameActive 0xFC))
     s.env.rst.head = false ∧ s.seq.seqOp ≠ 0 ∧ ∃ t, step s = .next t ∧ (t.seq.seqOp == 0) = true) :=
  ⟨by decide, by decide, step_next _ (by decide +kernel)⟩

/-- A busy command that ends, and one that goes on. -/
theorem witness_OnlyItsResponseEndsACommand :
    (let s := midway .orow 100 0 false 1 0 (session .frameActive 0xFC)
     s.env.rst.head = false ∧ ∃ t, step s = .next t ∧ (s.seq.seqOp != 0 && t.seq.seqOp == 0) = true) ∧
    (let s := midway .orow 100 0 false 1 0 { session .frameActive 0xFC with grain := some 2 }
     s.env.rst.head = false ∧ ∃ t, step s = .next t ∧ (s.seq.seqOp != 0 && t.seq.seqOp != 0) = true) :=
  ⟨⟨by decide, step_next _ (by decide +kernel)⟩, ⟨by decide, step_next _ (by decide +kernel)⟩⟩

theorem witness_ResetDominates :
    (inFlight 9 { session .frameActive 0xFC with env := { Env.reset with rst := ⟨[true], false⟩ } }).env.rst.head =
      true := by decide

/-- Between `Emit` micro-steps 4 and 5, one action a step. -/
theorem witness_EngineStaysConsistent :
    (let s := midway .emit 5 5 true 1 4
       { session .uninit 0 with pge := ⟨.idle, 0, false, false⟩, grain := some 1 }
     s.engineOk = true ∧ s.env.rst.head = false ∧ ∃ t, step s = .next t ∧ (t.pge.pgPh == .ph0) = true) :=
  ⟨by decide, by decide, step_next _ (by decide +kernel)⟩

theorem witness_RailsStaySafe :
    (let s := midway .pon 0 0 false 8 0 { session .poweringOn 0x38 with grain := some 1 }
     s.railOk = true ∧ ∃ t, step s = .next t ∧ (t.seq.cfg == 0x3C) = true) :=
  ⟨by decide, step_next _ (by decide +kernel)⟩

theorem witness_BusFailComesFromInit :
    (let s := midway .init 960 0 false 5 0 (noGen .failed (session .uninit 0x32))
     let s' := { s with seq := { s.seq with busFail := true } }
     s'.sessionOk = true ∧ ∃ t, step s' = .next t ∧ (t.seq.psm == .powerOff) = true) ∧
    (let s := withEnv fun e => { e with busInitOk := ⟨[], some false⟩ }
     let accepting := presenting 0x3003C0000000 s
     let busy := midway .init 960 0 false 4 1 s
     (∃ t, step accepting = .next t ∧ (!accepting.seq.busFail && t.seq.busFail) = true) ∧
     ∃ t, step busy = .next t ∧ (!busy.seq.busFail && t.seq.busFail) = true) :=
  ⟨⟨by decide, step_next _ (by decide +kernel)⟩, step_next _ (by decide +kernel), step_next _ (by decide +kernel)⟩

theorem witness_EveryPulseIsPlayedOnce :
    (let s := presenting 0x110064003200 (inFlight 9 (session .uninit 0))
     s.engineOk = true ∧ s.env.rst.head = false ∧ ∃ t, step s = .next t ∧ (t.seqEvents.length == 2) = true) :=
  ⟨by decide, by decide, step_next _ (by decide +kernel)⟩

theorem witness_StickyFlagsStay :
    (let s := { presenting 0x380000000000 (session .powerOff 0) with
       seq := { (session .powerOff 0).seq with misuse := true, illegal := true, busFail := true } }
     s.env.rst.head = false ∧ s.seq.misuse = true ∧ s.seq.illegal = true ∧ s.seq.busFail = true ∧
     ∃ t, step s = .next t ∧ (t.seqEvents.length == 2) = true) :=
  ⟨by decide, by decide, by decide, by decide, step_next _ (by decide +kernel)⟩

theorem witness_OneWayRegisters :
    (let s := { presenting 0x100009000000 (session .powerOff 0) with
       seq := { (session .powerOff 0).seq with spl := true } }
     s.engineOk = true ∧ s.env.rst.head = false ∧ s.seq.pgSt ≠ .uninit ∧ s.seq.spl = true ∧
     s.seq.dirCfgData = true ∧ s.seq.dirCfgClk = true ∧ s.seq.dirCfgStr = true ∧ s.seq.dirSpl = true ∧
     s.seq.dirCkv = true ∧ s.seq.psm ≠ .uninit ∧ ∃ t, step s = .next t ∧ t.seq.misuse = true) :=
  ⟨by decide, by decide, by decide, by decide, by decide, by decide, by decide, by decide, by decide, by decide,
    step_next _ (by decide +kernel)⟩

theorem witness_CfgIsWrittenByPanelCommandsOnly :
    (let s := presenting 0x330000000000 (session .powerOff 0xFF)
     s.env.rst.head = false ∧ ∃ t, step s = .next t ∧ (t.seq.cfg != s.seq.cfg) = true) ∧
    (let s := midway .poffa 0 0 false 1 0 (session .powerOff 0xFF)
     s.env.rst.head = false ∧ ∃ t, step s = .next t ∧ (t.seq.cfg != s.seq.cfg) = true) :=
  ⟨⟨by decide, step_next _ (by decide +kernel)⟩, ⟨by decide, step_next _ (by decide +kernel)⟩⟩

theorem witness_DuringValueIsHeld :
    ([(.pon, .powerOff), (.poff, .poweredOn), (.sfrm, .uninit), (.orow 1, .frameActive)] : List (Instr × Psm)).all
      (fun (i, p) =>
        let s := { session p 0 with grain := some 1 }
        i.wf s.params.maxTicks && i.opcode != .init && (after i s).any (fun t => t.seq.seqOp != 0)) = true ∧
    (let s := midway .pon 0 0 false 3 0 { session .poweringOn 0x28 with grain := some 1 }
     s.env.rst.head = false ∧ s.seq.seqOp ≠ 0 ∧ s.seq.seqOp ≠ 0x30 ∧
     ∃ t, step s = .next t ∧ (t.seq.seqOp != 0) = true) :=
  ⟨by decide +kernel, by decide, by decide, by decide, step_next _ (by decide +kernel)⟩

theorem witness_PginitBindsTheGeneratorOnce :
    ([true, false] : List Bool).all (fun ok =>
      let s := withEnv fun e => { e with pgAllocOk := ⟨[none], some ok⟩ }
      s.grain == none && s.pge.consistent && s.pge.pgPh == .idle && s.seq.pgSt == .uninit &&
      answerOf s.env.pgAllocOk.rest s.env.pgAllocOk.next == some ok) = true ∧
    (session .powerOff 0).grain = none ∧ (session .powerOff 0).seq.pgSt ≠ .uninit ∧
    (noGen .failed (session .powerOff 0)).seq.pgSt = .failed := by decide

theorem witness_EmitStartsOnePulse :
    ([session .frameActive 0, inFlight 9 (session .uninit 0), noGen .failed (session .powerOff 0),
      noGen .uninit (session .uninit 0)] : List State).all (fun s =>
      (Instr.emit 0 65535 true).wf s.params.maxTicks && s.grain == none && s.pge.consistent && s.env.notifies) = true ∧
    (let s := withheld (session .frameActive 0)
     s.pge.consistent = true ∧ s.env.notifies = false ∧ s.pge.pgDone = true ∧
     ∃ t, exec (.emit 5 5 false) s = .next t ∧ (t.seq.seqOp == 0) = true) :=
  ⟨by decide, by decide, by decide, by decide, exec_next _ (by decide +kernel)⟩

theorem witness_EmitusStartsThePulseInMicroseconds :
    (let s := inFlight 9 (session .uninit 0)
     (Instr.emitus 6553 0 true).wf s.params.maxTicks = true ∧ (65530 : Half).toNat = 10 * (6553 : Half).toNat ∧
     (0 : Half).toNat = 10 * (0 : Half).toNat ∧ s.grain = none ∧ s.pge.consistent = true ∧ s.env.notifies = true) ∧
    (let s := withheld (session .frameActive 0)
     (Instr.emitus 1 2 false).wf s.params.maxTicks = true ∧ s.grain = none ∧ s.pge.consistent = true ∧
     s.env.notifies = false ∧ s.pge.pgDone = true) := by
  decide

/-- For PGBUSY, PUSH, PON, POFF, POFFA, SWBUF, CURBUF and PON then POFF: a step covers a whole command. -/
theorem witness_whole_command : State.reset.grain = none ∧ (session .frameActive 0xFC).grain = none := by decide

/-- For SKIP, and for OROW with OR_WAIT = 0: no notification ever comes. -/
theorem witness_unwaited_pulse :
    (let s := withheld (session .frameActive 0xFC)
     s.grain = none ∧ s.pge.consistent = true ∧ s.env.notifies = false ∧ s.pge.pgDone = true ∧
     s.params.orWait = false ∧ s.env.busSettles = true ∧
     (∃ t, exec .skip s = .next t ∧ (t.seq.seqOp == 0 && !t.pge.pgDone) = true) ∧
     ∃ t, exec (.orow 100) s = .next t ∧ (t.seq.seqOp == 0 && !t.pge.pgDone) = true) :=
  ⟨by decide, by decide, by decide, by decide, by decide, by decide, exec_next _ (by decide +kernel),
    exec_next _ (by decide +kernel)⟩

/-- For SFRM, SKIP, OROW and EFRM: a pulse in flight, a busy bus engine, every status of the generator. -/
theorem witness_row_commands :
    ([.uninit, .ready, .failed] : List PgSt).all (fun st =>
      let s := noGen st { (if st = .ready then inFlight 9 (session .frameActive 0xFC) else session .frameActive 0xFC) with
        env := { Env.reset with busBusy := ⟨[true, true], false⟩ } }
      s.grain == none && s.pge.consistent && s.env.notifies && s.env.busSettles && s.fairRun) = true := by decide

theorem witness_FailedGeneratorIsInert :
    (let s := noGen .failed { session .frameActive 0xFC with env := { Env.reset with tNotify := ⟨[], none⟩ } }
     (Instr.emit 5 5 true).wf s.params.maxTicks = true ∧ s.grain = none ∧ s.seq.seqOp = 0 ∧ s.seq.pgSt = .failed ∧
     s.pge.consistent = true ∧ s.pge.pgDone = true ∧ s.env.busSettles = true ∧ s.env.answers = true) := by decide

/-- One phase without latency, and two phases with latency, at the start step. -/
theorem witness_WaveformOfOnePulse :
    ([(0, false, []), (4, true, [some 3])] : List (Half × Bool × List (Option Nat))).all (fun (d1, p1p, next) =>
      let s := midway .emit 9 d1 false 1 4 { session .uninit 0 with
        pge := ⟨.idle, 0, false, false⟩
        seq := { (session .uninit 0).seq with pgD0 := 9, pgD1 := d1, pgP1p := p1p }
        env := { Env.reset with tNotify := ⟨next, some 0⟩ } }
      s.engineOk && s.nextAction == some .start && s.seq.pgD0 != 0 && s.env.tNotify.head.isSome) = true := by
  decide +kernel

/-- For BitOrderOnTheWires, ReceiverLatchHoldsTheWord, RestingLevelsOfTheWires, MisuseIsExactlyTheList and the first
clause of EveryCommandAnswersOnce. -/
theorem witness_fair_command :
    ([.pon, .init 960, .swbuf, .push 0xFF] : List Instr).all (fun i =>
      i.wf (session .frameActive 0xFC).params.maxTicks && (session .frameActive 0xFC).fairRun &&
      (session .frameActive 0xFC).seq.seqOp == 0 && i.wf State.reset.params.maxTicks && State.reset.fairRun) = true := by
  decide

theorem witness_EveryCommandAnswersOnce_resumed :
    (let s := midway .orow 100 0 false 6 1 (inFlight 9 (session .frameActive 0xFC))
     s.engineOk = true ∧ s.whole = true ∧ s.env.fair = true ∧ s.env.rst.head = false ∧ remaining s ≠ []) := by decide

theorem witness_InitSetsTheSessionUpOnce :
    ([(true, true), (true, false), (false, true), (false, false)] : List (Bool × Bool)).all (fun (okb, okp) =>
      let s := withEnv fun e => { e with busInitOk := ⟨[none, some okb], none⟩, pgAllocOk := ⟨[], some okp⟩ }
      s.grain == none && s.seq.psm == .uninit && !s.seq.busFail && s.pge.consistent && s.seq.pgSt == .uninit &&
      s.pge.pgPh == .idle && answerOf s.env.busInitOk.rest s.env.busInitOk.next == some okb &&
      answerOf s.env.pgAllocOk.rest s.env.pgAllocOk.next == some okp) = true ∧
    (let s := inFlight 9 (session .uninit 0)
     s.grain = none ∧ s.seq.psm = .uninit ∧ s.seq.busFail = false ∧ s.pge.consistent = true ∧ s.seq.pgSt ≠ .uninit ∧
     answerOf s.env.busInitOk.rest s.env.busInitOk.next = some true) ∧
    (session .powerOff 0).seq.psm ≠ .uninit := by decide

theorem witness_TimingChangesNoSequence :
    (let s := session .frameActive 0xFC
     let u := { s with env := { s.env with tStep := ⟨[3, 0, 7], 1⟩, busBusy := ⟨[true], false⟩, tNotify := ⟨[], some 5⟩ } }
     (Instr.orow 100).wf s.params.maxTicks = true ∧ Instr.orow 100 ≠ .pgbusy ∧ s.fairRun = true ∧ u.fairRun = true ∧
     u.seq = s.seq ∧ u.seqEvents = s.seqEvents ∧ u.params = s.params ∧ u.env.variant = s.env.variant ∧
     u.env.busInitOk = s.env.busInitOk ∧ u.env.pgAllocOk = s.env.pgAllocOk ∧ u.env.busCurbuf = s.env.busCurbuf ∧
     u.env ≠ s.env) := by decide

theorem witness_PushedWordsAreRailSafe :
    (Instr.pon).wf 65535 = true ∧ Instr.pon.opcode ≠ .push ∧ (session .powerOff 0x32).fairRun = true ∧
    railSafe (session .powerOff 0x32).seq.cfg = true ∧ railSafe 0x04 = false ∧ railSafe 0x0A = false := by decide

theorem witness_WaitedPulsesTakeTheirTicks :
    (let s := session .frameActive 0xFC
     s.fairRun = true ∧ s.seq.pgSt = .ready ∧ (∃ t, exec (.emit 3 2 true) s = .next t ∧ (t.now == s.now + 5) = true) ∧
     (∃ t, exec .efrm s = .next t ∧ (t.now == s.now + 40) = true) ∧
     (∃ t, exec .sfrm s = .next t ∧ (t.now == s.now + 44) = true)) :=
  ⟨by decide, by decide, exec_next _ (by decide +kernel), exec_next _ (by decide +kernel), exec_next _ (by decide +kernel)⟩

theorem witness_BusyBusBlocksTheRow :
    (let s := { session .frameActive 0xFC with env := { Env.reset with busBusy := ⟨[], true⟩ } }
     s.grain = none ∧ s.env.rst = ⟨[], false⟩ ∧ s.env.busBusy = ⟨[], true⟩ ∧
     (∃ t, exec .sfrm s = .next t ∧ t.ports.stBusy = true) ∧ (∃ t, exec (.orow 100) s = .next t ∧ t.ports.stBusy = true)) :=
  ⟨by decide, by decide, by decide, exec_next _ (by decide +kernel), exec_next _ (by decide +kernel)⟩

theorem witness_WithheldNotificationBlocksTheNextPulse :
    (let s := inFlight 9 { session .frameActive 0xFC with env := { Env.reset with tNotify := ⟨[], none⟩ } }
     (Instr.emit 7 7 false).wf s.params.maxTicks = true ∧ s.grain = none ∧ s.seq.pgSt = .ready ∧
     s.pge.consistent = true ∧ s.pge.pgPh ≠ .idle ∧ s.env.tNotify = ⟨[], none⟩ ∧ s.env.rst = ⟨[], false⟩ ∧
     ∃ t, exec (.emit 7 7 false) s = .next t ∧ t.ports.stBusy = true) :=
  ⟨by decide, by decide, by decide, by decide, by decide, by decide, by decide, exec_next _ (by decide +kernel)⟩

/-- A notification that comes, after which OROW goes on, accepted and gone on with; and one that is withheld, with the bus
engine idle (V9), in whole-command steps and in steps of one tick. -/
theorem witness_PulseInFlightBlocksTheRow :
    (let s := inFlight 9 (session .frameActive 0xFC)
     s.pge.consistent = true ∧ s.pge.pgPh ≠ .idle ∧
     (∃ t, exec (.orow 100) s = .next t ∧ (t.events.take 2 == [.ckv false, .notify] && t.events.length > 2) = true)) ∧
    (let s := withheld (inFlight 9 (session .frameActive 0xFC))
     let s1 := { s with grain := some 1 }
     s.pge.consistent = true ∧ s.pge.pgPh ≠ .idle ∧ s.env.rst = ⟨[], false⟩ ∧
     s.env.tNotify = ⟨[], none⟩ ∧ (∃ t, exec (.orow 100) s = .next t ∧ t.ports.stBusy = true) ∧
     ∃ t, exec .sfrm s1 = .next t ∧ t.ports.stBusy = true) ∧
    (let s := midway .orow 100 0 false 1 0 (inFlight 9 (session .frameActive 0xFC))
     s.env.rst.head = false ∧ s.seq.seqOp = 0x36 ∧ s.seq.seqStep = 1 ∧ s.pge.consistent = true ∧ s.pge.pgPh ≠ .idle ∧
     ∃ t, step s = .next t ∧ (t.events.take 2 == [.ckv false, .notify] && t.events.length > 2) = true) :=
  ⟨⟨by decide, by decide, exec_next _ (by decide +kernel)⟩,
    ⟨by decide, by decide, by decide, by decide, exec_next _ (by decide +kernel), exec_next _ (by decide +kernel)⟩,
    ⟨by decide, by decide, by decide, by decide, by decide, step_next _ (by decide +kernel)⟩⟩

/-- A pulse of 3 ticks in flight, T_STEP 0: an illegal word and two polls, of which the second sees the flag (R129). -/
theorem witness_PollingSeesTheNotification :
    (let words : List (Option CmdWord) := [some 0, some 0x130000000000, some 0x130000000000]
     let s := inFlight 3 { session .frameActive 0xFC with env := { Env.reset with tAccept := ⟨[2, 0], 0⟩ } }
     s.seq.seqOp = 0 ∧ s.pge.consistent = true ∧ s.env.notifies = true ∧ s.env.rst = ⟨[], false⟩ ∧
     decode s.params.maxTicks 0x130000000000 = .ok .pgbusy ∧ decode s.params.maxTicks 0 = .error .undefinedOpcode ∧
     (stepsFrom 3 { s with env := { s.env with cmds := words } }).map (·.events) =
       some [.rsp 2 0, .rsp 0 1, .ckv false, .notify, .rsp 0 0]) := by decide +kernel

end Sys2Proof.Tests
end

section
/-! The sequence SEQ performs does not depend on timing (00_scope.md R12, R14, 60_exceptions.md R208). The outlook of a
state is all that a command but PGBUSY reads in it: SEQ's registers and events, the parameters, and the inputs that carry
values. Every micro-step of the commands leaves an outlook that is a function of the outlook before it; so does a program,
and two states with the same outlook run to the same end. -/

namespace Sys2Proof.Machine

/-! ### The outlook -/

/-- The inputs SEQ takes values from; the others, which only say when things happen, at a fixed value. -/
def Env.values (e : Env) : Env :=
  { Env.reset with
    variant := e.variant, busInitOk := e.busInitOk, pgAllocOk := e.pgAllocOk, busCurbuf := e.busCurbuf }

def View.outlook (v : View) : View := { v with inputs := v.inputs.values }

def State.outlook (s : State) : View := s.view.outlook

theorem outlook_of_view {s t : State} (h : t.view = s.view) : t.outlook = s.outlook := congrArg View.outlook h

/-- Plain actions do not look beyond the outlook. -/
theorem plainView_outlook (x : Action) (v : View) :
    plainView x v.outlook = (plainView x v).map View.outlook := by
  cases x <;> rfl

theorem plainViews_outlook (xs : List Action) : ∀ v : View,
    plainViews xs v.outlook = (plainViews xs v).map View.outlook := by
  induction xs with
  | nil => exact fun _ => rfl
  | cons x xs ih =>
    intro v
    rw [plainViews, plainViews, plainView_outlook]
    cases plainView x v with
    | none => rfl
    | some w => exact ih w

/-- Whether an action is one of the plain ones, which no view decides. -/
def Action.isPlain (x : Action) : Bool := (plainView x State.reset.view).isSome

theorem plainView_isSome (x : Action) (v : View) : (plainView x v).isSome = x.isPlain := by
  cases x <;> rfl

theorem plainViews_isSome {xs : List Action} (h : xs.all Action.isPlain = true) :
    ∀ v : View, (plainViews xs v).isSome = true := by
  induction xs with
  | nil => exact fun _ => rfl
  | cons x xs ih =>
    intro v
    obtain ⟨hx, hxs⟩ := Bool.and_eq_true_iff.mp h
    obtain ⟨w, hw⟩ := Option.isSome_iff_exists.mp ((plainView_isSome x v).trans hx)
    simpa [plainViews, hw] using ih hxs w

/-- Plain actions leave the generator's status alone. -/
theorem plainView_pgSt (x : Action) (v w : View) (h : plainView x v = some w) : w.regs.pgSt = v.regs.pgSt := by
  cases x <;> simp only [plainView, reduceCtorEq, Option.some.injEq] at h <;> subst h
  case dirOut p => cases p <;> rfl
  case pinOut p b => cases p <;> rfl
  all_goals rfl

theorem plainViews_pgSt (xs : List Action) : ∀ v w : View, plainViews xs v = some w → w.regs.pgSt = v.regs.pgSt := by
  induction xs with
  | nil => intro v w h; cases h; rfl
  | cons x xs ih =>
    intro v w h
    rw [plainViews] at h
    cases hx : plainView x v with
    | none => simp [hx] at h
    | some u => exact (ih u w (by simpa [hx] using h)).trans (plainView_pgSt x v u hx)

/-! ### Runs that go on -/

/-- What a run in whole-command steps keeps from one micro-step to the next: the engine is consistent, a pulse is in flight
on a ready generator only, and the environment is fair (70_reset_and_hazards.md R250). -/
structure Going (s : State) : Prop where
  budget : s.budget = none
  consistent : s.pge.consistent = true
  inFlight : s.pge.pgDone = true ∨ s.seq.pgSt = .ready
  notifies : s.env.notifies = true
  settles : s.env.busSettles = true
  answers : s.env.answers = true

theorem Going.goes {p : List Event} {s t : State} (h : Going s) (g : Goes p s t)
    (hp : s.seq.pgSt ≠ .ready → p = []) (hr : s.seq.pgSt = .ready → t.seq.pgSt = .ready) : Going t where
  budget := g.budget h.budget
  consistent := g.consistent h.consistent
  inFlight := by
    by_cases h0 : s.seq.pgSt = .ready
    · exact .inr (hr h0)
    · have hd : s.pge.pgDone = true := h.inFlight.resolve_right h0
      rw [(g.idle (quiet_of_done h.consistent hd).1 (hp h0)).1]
      exact .inl hd
  notifies := g.notifies h.notifies
  settles := by rw [g.settles]; exact h.settles
  answers := by rw [g.answers]; exact h.answers

/-- A calm stretch that leaves a ready generator ready. -/
theorem Going.calm {s t : State} (h : Going s) (c : Calm s t) (hr : s.seq.pgSt = .ready → t.seq.pgSt = .ready) : Going t :=
  h.goes c (fun _ => rfl) hr

theorem pgSt_of_view {s : State} {v : View} (h : s.view = v) : s.seq.pgSt = v.regs.pgSt := by rw [← h]; rfl

theorem Going.nextStep {s : State} (h : Going s) : Going (nextStep s) := h.calm (nextStep_calm s) id

/-- With no generator bound, no pulse is in flight. -/
theorem Going.idle_of_uninit {s : State} (h : Going s) (hu : s.seq.pgSt = .uninit) : s.pge.pgPh = .idle :=
  (quiet_of_done h.consistent (h.inFlight.resolve_right (by simp [hu]))).1

/-- A command of a fair run starts in a run that goes on. -/
theorem going_accept (i : Instr) {s : State} (h : s.fairRun = true) : Going (accept i (openStep s)) := by
  simp only [State.fairRun, State.whole, Env.fair, Bool.and_eq_true, Bool.or_eq_true, beq_iff_eq] at h
  obtain ⟨⟨⟨hg, hc⟩, hf⟩, ⟨hn, hs⟩, ha⟩ := h
  exact
    { budget := by simp [openStep_budget, hg], consistent := by simpa using hc
      inFlight := by simpa [accept_seq] using hf, notifies := by simpa using hn
      settles := by simpa using hs, answers := by simpa using ha }

/-! ### Micro-steps -/

/-- From every state of a run that goes on, the micro-step is completed, and the outlook it leaves is one function of the
outlook before. -/
def Foreseen (l : Line) : Prop :=
  ∃ F : View → View, ∀ s, Going s → ∃ t, runLine l s = .go t ∧ t.outlook = F s.outlook ∧ Going t

/-- A micro-step whose view is known, as a function that does not look beyond the outlook. -/
theorem Foreseen.of_view {l : Line} (F : View → View) (hF : ∀ v, (F v).outlook = F v.outlook)
    (h : ∀ s, Going s → ∃ t, runLine l s = .go t ∧ t.view = F s.view ∧ Going t) : Foreseen l :=
  ⟨F, fun s hs => by
    obtain ⟨t, ht, hv, hg⟩ := h s hs
    refine ⟨t, ht, ?_, hg⟩
    rw [State.outlook, hv, hF, State.outlook]⟩

/-- A micro-step of plain actions. -/
@[simp] theorem foreseen_plain {l : Line} (h : l.all Action.isPlain = true) : Foreseen l := by
  have hl := plainViews_isSome h
  refine Foreseen.of_view (fun v => (plainViews l v).get (hl v)) (fun v => ?_) (fun s hs => ?_)
  · simp [plainViews_outlook]
  · have hw : plainViews l s.view = some ((plainViews l s.view).get (hl s.view)) := (Option.some_get _).symm
    obtain ⟨t, hp, hv, hc⟩ := passes_plain l s _ hs.budget hw
    refine ⟨t, hp.line, hv, hs.calm hc fun hr => ?_⟩
    rw [pgSt_of_view hv, plainViews_pgSt l _ _ hw]
    exact hr

@[simp] theorem foreseen_push (src : WordSource) : Foreseen (pushLine src) :=
  foreseen_plain (by cases src <;> rfl)

@[simp] theorem foreseen_delay (n : Half) : Foreseen (delayLine n) := by
  refine Foreseen.of_view (fun v => { v with events := v.events ++ [.delay n] }) (fun _ => rfl) (fun s hs => ?_)
  obtain ⟨t, hp, hv, hc, -⟩ := passes_delay n s hs.budget
  exact ⟨t, hp.line, hv, hs.calm hc fun hr => (pgSt_of_view hv).trans hr⟩

/-- However long the engine stays busy and the notification takes, `WaitIdle` changes nothing of SEQ's. -/
@[simp] theorem foreseen_waitIdle : Foreseen [.waitIdle] := by
  refine Foreseen.of_view id (fun _ => rfl) (fun s hs => ?_)
  obtain ⟨t, hp, hv, hc, -⟩ := passes_waitIdle s hs.budget hs.consistent (.inl hs.notifies) hs.settles
  exact ⟨t, hp.line, hv, hs.calm hc fun hr => (pgSt_of_view hv).trans hr⟩

/-- `Emit` starts the same pulse however far the one in flight is. -/
@[simp] theorem foreseen_emit (h l : Half) (w : Bool) : Foreseen (emitLine h l w) := by
  refine Foreseen.of_view
    (fun v => { v with regs := afterEmit h l v.regs, events := v.events ++ pulseEvents v.regs.pgSt h l })
    (fun _ => rfl) (fun s hs => ?_)
  obtain ⟨t, ht, hv, hg, -⟩ := run_emit h l w s hs.budget hs.consistent (.inl hs.notifies)
  refine ⟨t, ht, hv, hs.goes hg (fun h0 => by simp [pulseTale, h0]) fun hr => ?_⟩
  rw [pgSt_of_view hv, afterEmit_pgSt]
  exact hr

/-! ### The two calls that are answered from outside -/

/-- The polls that are left after an answer. -/
def afterAnswer : List (Option Bool) → List (Option Bool)
  | [] => []
  | some _ :: later => later
  | none :: later => afterAnswer later

/-- `answer_go`, for a property that speaks of the polls still to come. -/
theorem answer_go_afterAnswer (pop : State → State) (got : Bool → State → State) (rest : Option Bool) (ok : Bool)
    (P : List (Option Bool) → State → Prop) (hb : ∀ l s, P l s → s.budget = none)
    (hp : ∀ a l s, P (a :: l) s → P l (pop s)) (ht : ∀ l s, P l s → P l (spinTurn s)) (later : List (Option Bool)) :
    ∀ s, P later s → answerOf rest later = some ok →
      ∃ t, answerTurns pop got rest later s = .go (got ok t) ∧ P (afterAnswer later) t := by
  induction later with
  | nil =>
    intro s hs ha
    exact ⟨s, by simp [answerTurns, show rest = some ok from ha], hs⟩
  | cons a later ih =>
    intro s hs ha
    cases a with
    | some b =>
      have hbo : b = ok := Option.some.inj ha
      exact ⟨pop s, by simp [answerTurns, hasBudget_none s (hb _ s hs), hbo], hp _ _ s hs⟩
    | none =>
      obtain ⟨t, h1, h2⟩ := ih (spinTurn (pop s)) (ht _ _ (hp _ _ s hs)) ha
      exact ⟨t, by simpa [answerTurns, hasBudget_none s (hb _ s hs)] using h1, h2⟩

theorem answerOf_isSome {rest : Option Bool} (h : rest.isSome = true) (later : List (Option Bool)) :
    ∃ ok, answerOf rest later = some ok := by
  induction later with
  | nil => exact Option.isSome_iff_exists.mp h
  | cons a later ih =>
    cases a with
    | some ok => exact ⟨ok, rfl⟩
    | none => exact ih

/-- The answer a call gets, when it is answered. -/
def Feed.answer (f : Feed (Option Bool)) : Bool := (answerOf f.rest f.next).getD false

theorem Feed.answerOf_eq {f : Feed (Option Bool)} (h : f.rest.isSome = true) :
    answerOf f.rest f.next = some f.answer := by
  obtain ⟨ok, hk⟩ := answerOf_isSome h f.next
  simp [Feed.answer, hk]

/-- The polls after an answered call. -/
def Feed.answered (f : Feed (Option Bool)) : Feed (Option Bool) := { f with next := afterAnswer f.next }

/-- An answered call uses up its polls as far as the answer. -/
theorem answer_feed (pop : State → State) (got : Bool → State → State) (feed : State → Feed (Option Bool))
    (hpop : ∀ s, feed (pop s) = (feed s).pop ∧ (pop s).budget = s.budget)
    (hgot : ∀ ok s, feed (got ok s) = feed s ∧ (got ok s).budget = s.budget)
    (hview : ∀ s t : State, t.view = s.view → feed t = feed s) (s : State) (hb : s.budget = none)
    (ha : (feed s).rest.isSome = true) :
    ∃ t, answerTurns pop got (feed s).rest (feed s).next s = .go t ∧ t.budget = none ∧ feed t = (feed s).answered := by
  obtain ⟨t, ht, hbt, hft⟩ := answer_go_afterAnswer pop got (feed s).rest (feed s).answer
    (fun l t => t.budget = none ∧ feed t = { feed s with next := l }) (fun _ _ h => h.1)
    (fun a l t ⟨hbt, hft⟩ => ⟨(hpop t).2.trans hbt, by rw [(hpop t).1, hft]; rfl⟩)
    (fun l t ⟨hbt, hft⟩ => ⟨(spinTurn_calm t hbt).budget hbt, (hview t _ (spinTurn_view t hbt)).trans hft⟩)
    (feed s).next s ⟨hb, rfl⟩ (Feed.answerOf_eq ha)
  exact ⟨_, ht, (hgot _ t).2.trans hbt, (hgot _ t).1.trans hft⟩

theorem busInitOk_of_view {s : State} {v : View} (h : s.view = v) : s.env.busInitOk = v.inputs.busInitOk := by
  rw [← h]; rfl

theorem pgAllocOk_of_view {s : State} {v : View} (h : s.view = v) : s.env.pgAllocOk = v.inputs.pgAllocOk := by
  rw [← h]; rfl

theorem Going.busInit_answers {s : State} (h : Going s) : s.env.busInitOk.rest.isSome = true :=
  (Bool.and_eq_true_iff.mp h.answers).1

theorem Going.pgAlloc_answers {s : State} (h : Going s) : s.env.pgAllocOk.rest.isSome = true :=
  (Bool.and_eq_true_iff.mp h.answers).2

theorem busInit_polls (w : BitVec 17) {s t : State} (hs : Going s) (h : runLine (busInitLine w) s = .go t) :
    t.env.busInitOk = s.env.busInitOk.answered := by
  obtain ⟨s1, p1, v1, c1⟩ := passes_plain [.busInitReq w] s _ hs.budget rfl
  have f1 : s1.env.busInitOk = s.env.busInitOk := busInitOk_of_view v1
  have b1 := c1.budget hs.budget
  obtain ⟨t1, ht, hb, hf⟩ := answer_feed
    (fun t => { t with env := { t.env with busInitOk := t.env.busInitOk.pop } }) busInitDone (·.env.busInitOk)
    (fun _ => ⟨rfl, rfl⟩) (fun ok _ => by cases ok <;> exact ⟨rfl, rfl⟩) (fun _ _ hv => busInitOk_of_view hv) s1 b1
    (by rw [f1]; exact hs.busInit_answers)
  have hrun := (p1.trans (Passes.one (x := .busInitAns) b1 ht)).line
  obtain rfl : afterAction t1 = t := Flow.go.inj (hrun.symm.trans h)
  rw [← f1]
  exact (busInitOk_of_view (afterAction_view t1 hb)).trans hf

theorem pgInit_polls (pin : Byte) {s t : State} (hs : Going s) (hu : s.seq.pgSt = .uninit)
    (h : runLine (pgInitLine pin) s = .go t) : t.env.pgAllocOk = s.env.pgAllocOk.answered := by
  have p0 : Passes [.pgInitGuard] s (afterAction s) := Passes.one hs.budget (by simp [doAction, hu])
  have b0 := (afterAction_calm s hs.budget).budget hs.budget
  obtain ⟨s1, p1, v1, c1⟩ := passes_plain [.pgSetPin pin, .pgAllocReq pin] (afterAction s) _ b0 rfl
  have f1 : s1.env.pgAllocOk = s.env.pgAllocOk :=
    (pgAllocOk_of_view v1).trans (pgAllocOk_of_view (afterAction_view s hs.budget))
  have b1 := c1.budget b0
  obtain ⟨t1, ht, hb, hf⟩ := answer_feed
    (fun t => { t with env := { t.env with pgAllocOk := t.env.pgAllocOk.pop } }) pgAllocDone (·.env.pgAllocOk)
    (fun _ => ⟨rfl, rfl⟩) (fun ok _ => by cases ok <;> exact ⟨rfl, rfl⟩) (fun _ _ hv => pgAllocOk_of_view hv) s1 b1
    (by rw [f1]; exact hs.pgAlloc_answers)
  have hrun := ((p0.trans p1).trans (Passes.one (x := .pgAllocAns) b1 ht)).line
  obtain rfl : afterAction t1 = t := Flow.go.inj (hrun.symm.trans h)
  rw [← f1]
  exact (pgAllocOk_of_view (afterAction_view t1 hb)).trans hf

/-- The bus engine's answer decides, however many turns it takes (20_memory.md R67). -/
@[simp] theorem foreseen_busInit (w : BitVec 17) : Foreseen (busInitLine w) := by
  refine Foreseen.of_view
    (fun v => { v with
      regs := { v.regs with busFail := v.regs.busFail || !v.inputs.busInitOk.answer }
      events := v.events ++ [.busInit w]
      inputs := { v.inputs with busInitOk := v.inputs.busInitOk.answered } })
    (fun _ => rfl) (fun s hs => ?_)
  obtain ⟨t, f, ht, hv, hc⟩ := run_busInit w s.env.busInitOk.answer s hs.budget (Feed.answerOf_eq hs.busInit_answers)
  have hf : f = s.env.busInitOk.answered := (busInitOk_of_view hv).symm.trans (busInit_polls w hs ht)
  subst hf
  exact ⟨t, ht, hv, hs.calm hc fun hr => (pgSt_of_view hv).trans hr⟩

/-- What the first `PgInit` leaves, said of the view. -/
def pgInitView (pin : Byte) (v : View) : View :=
  { v with
    regs := { v.regs with
      pgPin := pin, pgSt := if v.inputs.pgAllocOk.answer then .ready else .failed
      dirCkv := v.regs.dirCkv || v.inputs.pgAllocOk.answer }
    events := v.events ++ [.pgAlloc pin] ++ (if v.inputs.pgAllocOk.answer then [.dir .ckv] else [])
    inputs := { v.inputs with pgAllocOk := v.inputs.pgAllocOk.answered } }

/-- The allocator's answer decides, however many turns it takes (20_memory.md R71). -/
@[simp] theorem foreseen_pgInit (pin : Byte) : Foreseen (pgInitLine pin) := by
  refine Foreseen.of_view
    (fun v => if v.regs.pgSt = .uninit then pgInitView pin v else { v with regs := { v.regs with misuse := true } })
    (fun v => ?_) (fun s hs => ?_)
  · show View.outlook (ite (v.regs.pgSt = .uninit) _ _) = ite (v.regs.pgSt = .uninit) _ _
    split <;> rfl
  · by_cases hu : s.seq.pgSt = .uninit
    · obtain ⟨t, f, ht, hv, hc⟩ := run_pgInit_first pin s.env.pgAllocOk.answer s hs.budget hu (hs.idle_of_uninit hu)
        hs.consistent (Feed.answerOf_eq hs.pgAlloc_answers)
      have hf : f = s.env.pgAllocOk.answered := (pgAllocOk_of_view hv).symm.trans (pgInit_polls pin hs hu ht)
      subst hf
      exact ⟨t, ht, hv.trans (if_pos hu).symm, hs.calm hc fun hr => by simp [hu] at hr⟩
    · obtain ⟨t, ht, hv, hc⟩ := run_pgInit_again pin s hs.budget hu
      exact ⟨t, ht, hv.trans (if_neg hu).symm, hs.calm hc fun hr => (pgSt_of_view hv).trans hr⟩

/-! ### Programs -/

/-- From every state of a run that goes on, the registers and events SEQ ends with are one function of the outlook. -/
def Settled (p : Program) : Prop :=
  ∃ F : View → SeqRegs × List Event, ∀ s, Going s → ((runProgram p s).seq, (runProgram p s).seqEvents) = F s.outlook

theorem Settled.eq {p : Program} (h : Settled p) {s u : State} (hs : Going s) (hu : Going u) (ho : u.outlook = s.outlook) :
    (runProgram p u).seq = (runProgram p s).seq ∧ (runProgram p u).seqEvents = (runProgram p s).seqEvents := by
  obtain ⟨F, hF⟩ := h
  have hrun : ((runProgram p u).seq, (runProgram p u).seqEvents) = ((runProgram p s).seq, (runProgram p s).seqEvents) := by
    rw [hF u hu, hF s hs, ho]
  exact Prod.mk.inj hrun

theorem Settled.cons {l : Line} {ls : Program} (hl : Foreseen l) (h : Settled ls) : Settled (l :: ls) := by
  obtain ⟨F, hF⟩ := hl
  obtain ⟨G, hG⟩ := h
  refine ⟨fun v => G (F v), fun s hs => ?_⟩
  obtain ⟨t, ht, ho, hg⟩ := hF s hs
  have hrun : runProgram (l :: ls) s = runProgram ls (nextStep t) := by simp [runProgram, ht]
  rw [hrun, hG _ hg.nextStep, outlook_of_view (nextStep_view t), ho]

/-- The response the outlook gives; PGBUSY's, which tells the completion flag, is no such response. -/
def foreseenResponse (r : Response) (v : View) : BitVec 2 × BitVec 32 :=
  responseOf r { State.reset with seq := v.regs, env := v.inputs, params := v.params }

theorem responseOf_outlook (r : Response) (s : State) (hr : r ≠ .busy) :
    responseOf r s = foreseenResponse r s.outlook := by
  cases r
  case busy => exact absurd rfl hr
  all_goals rfl

/-- Every response but PGBUSY's is told by the outlook (20_memory.md R77). -/
theorem settled_done (o : Opcode) {r : Response} (hr : r ≠ .busy) : Settled [[.done o r]] := by
  refine ⟨fun v => (idleAfter (psmAfter o v.regs.psm) v.regs,
    v.events ++ [.rsp (foreseenResponse r v).1 (foreseenResponse r v).2]), fun s hs => ?_⟩
  rw [done_run o r s hs.budget, finish_seq, finish_seqEvents, responseOf_outlook r s hr]
  rfl

/-- A program of foreseen micro-steps that ends in a response. -/
theorem settled_of_lines {p : Program} (o : Opcode) {r : Response} (hr : r ≠ .busy)
    (hp : p = p.dropLast ++ [[.done o r]]) (h : ∀ l ∈ p.dropLast, Foreseen l) : Settled p := by
  rw [hp]
  generalize p.dropLast = ls at h
  clear hp
  induction ls with
  | nil => exact settled_done o hr
  | cons l ls ih =>
    exact Settled.cons (h l List.mem_cons_self) (ih fun m hm => h m (List.mem_cons_of_mem l hm))

/-- Every command but PGBUSY is settled. -/
theorem settled_programOf (i : Instr) (hi : i ≠ .pgbusy) (s : State) : Settled (programOf i s) := by
  cases i with
  | pgbusy => exact absurd rfl hi
  | pginit pin => exact settled_of_lines .pginit (r := .pgInit) nofun rfl (by simp (disch := decide) [programOf, pginitProgram])
  | emit h l w => exact settled_of_lines .emit (r := .plain) nofun rfl (by simp (disch := decide) [programOf, emitProgram])
  | emitus h l w => exact settled_of_lines .emitus (r := .plain) nofun rfl (by simp (disch := decide) [programOf, emitusProgram])
  | push w => exact settled_of_lines .push (r := .plain) nofun rfl (by simp (disch := decide) [programOf, pushProgram])
  | init n => exact settled_of_lines .init (r := .init) nofun rfl (by simp (disch := decide) [programOf, initProgram])
  | pon => exact settled_of_lines .pon (r := .plain) nofun rfl (by simp (disch := decide) [programOf, ponProgram])
  | poff => exact settled_of_lines .poff (r := .plain) nofun rfl (by simp (disch := decide) [programOf, poffProgram])
  | poffa => exact settled_of_lines .poffa (r := .plain) nofun rfl (by simp (disch := decide) [programOf, poffaProgram])
  | sfrm => exact settled_of_lines .sfrm (r := .plain) nofun rfl (by simp (disch := decide) [programOf, sfrmProgram])
  | skip => exact settled_of_lines .skip (r := .plain) nofun rfl (by simp (disch := decide) [programOf, skipProgram])
  | orow t => exact settled_of_lines .orow (r := .plain) nofun rfl (by simp (disch := decide) [programOf, orowProgram])
  | efrm => exact settled_of_lines .efrm (r := .plain) nofun rfl (by simp (disch := decide) [programOf, efrmProgram])
  | swbuf => exact settled_of_lines .swbuf (r := .plain) nofun rfl (by simp (disch := decide) [programOf, swbufProgram])
  | curbuf => exact settled_of_lines .curbuf (r := .curBuf) nofun rfl (by simp (disch := decide) [programOf, curbufProgram])

/-! ### The obligation -/

/-- Acceptance, said of the outlook. -/
theorem accept_outlook (i : Instr) (s : State) :
    (accept i (openStep s)).outlook = { s.outlook with
      regs := { acceptedRegs i s.seq with
        psm := psmDuring i.opcode s.seq.psm, seqOp := i.opcode.code, seqStep := 0, seqSub := 0 } } := by
  rw [State.outlook, accept_view]
  rfl

/-- A second INIT answers what is recorded, at once. -/
theorem ignoreSecondInit_seq (i : Instr) (s : State) :
    (ignoreSecondInit i s).seq = { s.seq with misuse := true, a := i.fieldA, b := i.fieldB, w := i.fieldW } := by
  simp [ignoreSecondInit, respond_seq]

theorem ignoreSecondInit_seqEvents (i : Instr) (s : State) :
    (ignoreSecondInit i s).seqEvents =
      s.seqEvents ++ [.rsp (responseOf .init s).1 (responseOf .init s).2] :=
  respond_seqEvents .init (flagMisuse s)

/-- Settles O45: both commands are accepted with the same outlook, and a settled program ends alike from there; a second
INIT answers from the registers. -/
theorem timingChangesNoSequence : Obligations.TimingChangesNoSequence := by
  unfold Obligations.TimingChangesNoSequence
  intro i s u _ hi hfs hfu hseq hev hparams hvariant hbus halloc hptr
  have ho : u.outlook = s.outlook := by
    simp [State.outlook, View.outlook, State.view, Env.untimed, Env.values, hseq, hev, hparams, hvariant, hbus, halloc,
      hptr]
  rw [exec_eq, exec_eq, hseq]
  split
  · refine ⟨_, _, rfl, rfl, ?_, ?_⟩
    · rw [closeStep_seq, closeStep_seq, ignoreSecondInit_seq, ignoreSecondInit_seq, hseq]
    · show (ignoreSecondInit i u).seqEvents = (ignoreSecondInit i s).seqEvents
      simp [ignoreSecondInit_seqEvents, responseOf, hseq, hev]
  · rw [programOf_eq i hparams (fun _ => by rw [hseq])]
    obtain ⟨hregs, hevents⟩ := (settled_programOf i hi s).eq (going_accept i hfs) (going_accept i hfu)
      (by rw [accept_outlook, accept_outlook, hseq, ho])
    exact ⟨_, _, rfl, rfl, hregs, hevents⟩

end Sys2Proof.Machine
end

section
/-! What a step does to SEQ's registers and events, said once and for every grain (10_state.md R25). An action that goes on
changes the registers by `Action.regsAfter` and adds the events `Action.eventsAfter`; `Performs` is any number of such
actions of one command, `Course` such a stretch with or without the response at its end, and `Effect` everything a step
with `rst` low can do. -/

namespace Sys2Proof.Machine

/-! ### The round trip of the encoding -/

/-- A decoded command is legal (30_encoding.md R104 step 4). -/
theorem wf_of_decode {m : Half} {c : CmdWord} {i : Instr} (h : decode m c = .ok i) : i.wf m = true := by
  obtain ⟨he, -⟩ | ⟨o, -, -, he⟩ | ⟨o, -, -, he⟩ := decode_cases m c <;> rw [he] at h
  · cases h
  · cases h
  · split at h
    · cases h; assumption
    · cases h

/-- A decoded command has the opcode byte of its word (30_encoding.md R92). -/
theorem opcode_of_decode {m : Half} {c : CmdWord} {i : Instr} (h : decode m c = .ok i) :
    i.opcode.code = (fieldsOf c).opc := by
  obtain ⟨he, -⟩ | ⟨o, -, -, he⟩ | ⟨o, ho, -, he⟩ := decode_cases m c <;> rw [he] at h
  · cases h
  · cases h
  · split at h
    · cases h
      rw [buildInstr_opcode]
      exact code_of_ofCode _ o ho
    · cases h

/-- The word of a legal command decodes to it. -/
theorem decode_encode {m : Half} {i : Instr} (h : i.wf m = true) : decode m (encode i) = .ok i := by
  obtain ⟨hf, hz, hb⟩ := Laws.EncodeFields.all i
  have ho : Opcode.ofCode (fieldsOf (encode i)).opc = some i.opcode := by rw [hf]; exact ofCode_code _
  simp [decode, ho, hz, hb, h]

/-- `step_cases` with its premise on the encoding discharged. -/
theorem stepped {s t : State} (hr : s.env.rst.head = false) (h : step s = .next t) : Stepped s t :=
  step_cases (fun _ _ hd => decode_encode (wf_of_decode hd)) hr h

theorem latchedInstr_code {m : Half} {r : SeqRegs} {i : Instr} (h : latchedInstr m r = some i) :
    r.seqOp = i.opcode.code := by
  unfold latchedInstr at h
  split at h
  · rename_i j hd
    cases h
    rw [opcode_of_decode hd, fieldsOf_wordOf]
  · cases h

theorem code_eq_iff {o p : Opcode} : o.code = p.code ↔ o = p :=
  ⟨fun h => Option.some.inj (by rw [← ofCode_code o, h, ofCode_code]), congrArg _⟩

/-! ### One action -/

/-- SEQ's registers after an action that goes on. `b` is what the action samples: the variant, or the answer of the bus
engine or of the allocator. -/
def Action.regsAfter (x : Action) (b : Bool) (r : SeqRegs) : SeqRegs :=
  match x with
  | .latchVariant => { r with variantL := b }
  | .cfgPut w => { r with cfg := w }
  | .cfgSet m => { r with cfg := flagSet m r.cfg }
  | .cfgClear m => { r with cfg := flagClear m r.cfg }
  | .dirOut p => setDir p r
  | .pinOut p v => setLatch p v r
  | .dataBit src i => setLatch .cfgData ((pushWord src r).getLsbD i) r
  | .program h l => { r with pgD0 := symbolD0 h l, pgD1 := symbolD1 h l, pgP1p := symbolP1p h }
  | .busInitAns => if b then r else { r with busFail := true }
  | .pgSetPin pin => { r with pgPin := pin }
  | .pgAllocAns => if b then { setDir .ckv r with pgSt := .ready } else { r with pgSt := .failed }
  | .psmPut p => { r with psm := p }
  | _ => r

/-- The events SEQ adds in an action that goes on. -/
def Action.eventsAfter (x : Action) (b : Bool) (r : SeqRegs) : List Event :=
  match x with
  | .dirOut p => [.dir p]
  | .pinOut p v => [.pin p v]
  | .dataBit src i => [.pin .cfgData ((pushWord src r).getLsbD i)]
  | .delayLoad n => [.delay n]
  | .start => [.pulse r.pgD0 r.pgD1 r.pgP1p]
  | .busInitReq w => [.busInit w]
  | .pgAllocReq pin => [.pgAlloc pin]
  | .pgAllocAns => if b then [.dir .ckv] else []
  | .busStart => [.busStart]
  | .busSwitch => [.busSwitch]
  | _ => []

/-- `t` is what action `x` makes of `s`, as far as SEQ's registers and events go. -/
def Acts (x : Action) (s t : State) : Prop :=
  ∃ b, t.seq = x.regsAfter b s.seq ∧ t.seqEvents = s.seqEvents ++ x.eventsAfter b s.seq

theorem busInitDone_acts (ok : Bool) (s : State) : Acts .busInitAns s (busInitDone ok s) := by
  refine ⟨ok, ?_⟩
  cases ok <;> exact ⟨rfl, (List.append_nil _).symm⟩

theorem pgAllocDone_acts (ok : Bool) (s : State) : Acts .pgAllocAns s (pgAllocDone ok s) := by
  refine ⟨ok, ?_⟩
  cases ok
  · exact ⟨rfl, (List.append_nil _).symm⟩
  · exact ⟨rfl, seqEvents_emit _ _ rfl⟩

/-- The start of a pulse is one event of SEQ; CKV(1) is PGE's. -/
theorem start_acts (s : State) :
    Acts .start s (startPulse (emitEvent (.pulse s.seq.pgD0 s.seq.pgD1 s.seq.pgP1p) s)) :=
  ⟨false, rfl, (seqEvents_emit_pge _ _ rfl).trans (seqEvents_emit _ _ rfl)⟩

theorem Acts.after_still {x : Action} {s t u : State} (h : Still s t) (k : Acts x t u) : Acts x s u := by
  obtain ⟨b, hr, he⟩ := k
  exact ⟨b, by rw [hr, h.seq], by rw [he, h.seq, h.seqEvents]⟩

/-- Waiting is all that an action without a register or an event of its own does. -/
theorem Still.acts {x : Action} {s t : State} (h : Still s t) (hr : x.regsAfter false s.seq = s.seq)
    (he : x.eventsAfter false s.seq = []) : Acts x s t :=
  ⟨false, h.seq.trans hr.symm, by rw [h.seqEvents, he, List.append_nil]⟩

/-- Everything an action that goes on does to SEQ's registers and events. -/
theorem doAction_go_acts {x : Action} {s t : State} (h : doAction x s = .go t) : Acts x s t := by
  cases x
  case waitIdle => exact ((waitIdleTurns_waits _ s).go t h).1.acts rfl rfl
  case awaitDone => exact ((awaitDone_waits s).go t h).1.acts rfl rfl
  case busInitAns =>
    obtain ⟨ok, u, rfl, hu⟩ := (busInitAns_answers s).go t h
    exact (busInitDone_acts ok u).after_still hu
  case pgAllocAns =>
    obtain ⟨ok, u, rfl, hu⟩ := (pgAllocAns_answers s).go t h
    exact (pgAllocDone_acts ok u).after_still hu
  case delayWait =>
    obtain ⟨u, hu, hs⟩ | ⟨u, hu, -⟩ := delayWait_flow s <;> rw [hu] at h <;> cases h
    exact hs.acts rfl rfl
  case emitGuard =>
    simp only [doAction] at h
    split at h <;> cases h
    exact (Still.refl s).acts rfl rfl
  case pgInitGuard =>
    simp only [doAction] at h
    split at h <;> cases h
    exact (Still.refl s).acts rfl rfl
  case start => cases h; exact start_acts s
  case latchVariant => cases h; exact ⟨s.env.variant.head, rfl, (List.append_nil _).symm⟩
  case done o r => cases h
  case pick | cfgPut | cfgSet | cfgClear | program | clearDone | pgSetPin | psmPut =>
    cases h; exact ⟨false, rfl, (List.append_nil _).symm⟩
  case dirOut | pinOut | dataBit | delayLoad | busInitReq | pgAllocReq | busStart | busSwitch =>
    cases h; exact ⟨false, rfl, seqEvents_emit _ _ rfl⟩

/-- No action before `done` answers. -/
theorem eventsAfter_unanswered (x : Action) (b : Bool) (r : SeqRegs) : (x.eventsAfter b r).filter Event.isRsp = [] := by
  cases x
  case pgAllocAns => cases b <;> rfl
  all_goals rfl

theorem regsAfter_seqOp (x : Action) (b : Bool) (r : SeqRegs) : (x.regsAfter b r).seqOp = r.seqOp := by
  cases x
  case dirOut p => cases p <;> rfl
  case pinOut p v => cases p <;> rfl
  case busInitAns | pgAllocAns => cases b <;> rfl
  all_goals rfl

theorem regsAfter_cfg (x : Action) (b : Bool) (r : SeqRegs) : (x.regsAfter b r).cfg = x.cfgAfter r.cfg := by
  cases x
  case dirOut p => cases p <;> rfl
  case pinOut p v => cases p <;> rfl
  case busInitAns | pgAllocAns => cases b <;> rfl
  all_goals rfl

theorem regsAfter_busFail {x : Action} (hx : x ≠ .busInitAns) (b : Bool) (r : SeqRegs) :
    (x.regsAfter b r).busFail = r.busFail := by
  cases x
  case busInitAns => exact absurd rfl hx
  case dirOut p => cases p <;> rfl
  case pinOut p v => cases p <;> rfl
  case pgAllocAns => cases b <;> rfl
  all_goals rfl

/-! ### What the programs confine to some commands -/

/-- What an action of command `i` keeps to: `done` is the command's own, BUS_FAIL is INIT's, CFG is the panel protocol's,
SPL is only raised, and PSM is not put to UNINIT. -/
def Action.confined (i : Instr) : Action → Bool
  | .done o _ => o == i.opcode
  | .busInitAns => i.opcode == .init
  | .cfgPut _ => isPanel i.opcode
  | .cfgSet _ => isPanel i.opcode
  | .cfgClear _ => isPanel i.opcode
  | .pinOut .spl v => v
  | .psmPut p => p != .uninit
  | _ => true

theorem programOf_confined (i : Instr) (s : State) :
    (programOf i s).all (fun l => l.all (Action.confined i)) = true := by
  cases i with
  | emit h l w => cases w <;> rfl
  | emitus h l w => cases w <;> rfl
  | orow t => simp only [programOf, orowProgram]; cases s.params.orWait <;> rfl
  | _ => rfl

theorem At.confined {i : Instr} {x : Action} {xs : Line} {ls : Program} {s : State} (h : At i ((x :: xs) :: ls) s) :
    x.confined i = true := by
  obtain ⟨k, line, lines, -, hd, hp⟩ := h.place
  obtain ⟨hx, -⟩ := List.cons.inj hp
  have hl : line ∈ programOf i s := List.mem_of_mem_drop (i := k) (by rw [hd]; exact List.mem_cons_self)
  have hm : x ∈ line := List.mem_of_mem_drop (i := s.seq.seqSub) (by rw [← hx]; exact List.mem_cons_self)
  exact List.all_eq_true.mp (List.all_eq_true.mp (programOf_confined i s) line hl) x hm

theorem cfgAfter_of_confined {i : Instr} {x : Action} (hx : x.confined i = true) (hi : isPanel i.opcode = false)
    (c : Byte) : x.cfgAfter c = c := by
  cases x
  case cfgPut | cfgSet | cfgClear => simp [Action.confined, hi] at hx
  all_goals rfl

/-! ### A stretch of a command -/

/-- From `r` to `q`, SEQ has performed actions of command `i` with the events `es`, and not ended it. -/
inductive Performs (i : Instr) (r : SeqRegs) : SeqRegs → List Event → Prop
  | start : Performs i r r []
  | action {q : SeqRegs} {es : List Event} (x : Action) (b : Bool) : Performs i r q es → x.confined i = true →
      Performs i r (x.regsAfter b q) (es ++ x.eventsAfter b q)
  | misuse {q : SeqRegs} {es : List Event} : Performs i r q es → Performs i r { q with misuse := true } es
  | position {q : SeqRegs} {es : List Event} (k n : Nat) : Performs i r q es →
      Performs i r { q with seqStep := k, seqSub := n } es

/-- What SEQ does of command `i` in one step: it performs actions, and then the command is still in execution or ends with
its response (10_state.md R25). -/
inductive Course (i : Instr) (r : SeqRegs) : SeqRegs → List Event → Prop
  | going {q : SeqRegs} {es : List Event} : Performs i r q es → Course i r q es
  | ended {q : SeqRegs} {es : List Event} (status : BitVec 2) (data : BitVec 32) : Performs i r q es →
      Course i r (idleAfter (psmAfter i.opcode q.psm) q) (es ++ [.rsp status data])

/-- The registers and events of `u` are those of a stretch of command `i` from `s` on. -/
def Follows (D : SeqRegs → SeqRegs → List Event → Prop) (s u : State) : Prop :=
  ∃ es, u.seqEvents = s.seqEvents ++ es ∧ D s.seq u.seq es

theorem Follows.start (i : Instr) (s : State) : Follows (Performs i) s s := ⟨[], by simp, .start⟩

theorem afterAction_seqEvents (s : State) : (afterAction s).seqEvents = s.seqEvents := by
  obtain ⟨t, ht, hs⟩ := afterAction_still s
  rw [ht, hs.seqEvents]
  rfl

theorem Follows.afterAction {i : Instr} {s t : State} (h : Follows (Performs i) s t) :
    Follows (Performs i) s (afterAction t) := by
  obtain ⟨es, he, hp⟩ := h
  refine ⟨es, (afterAction_seqEvents t).trans he, ?_⟩
  rw [afterAction_seq]
  exact hp.position _ _

theorem Follows.go {i : Instr} {x : Action} {s t u : State} (h : Follows (Performs i) s t) (hx : x.confined i = true)
    (hd : doAction x t = .go u) : Follows (Performs i) s (Machine.afterAction u) := by
  obtain ⟨es, he, hp⟩ := h
  obtain ⟨b, hr, hev⟩ := doAction_go_acts hd
  refine Follows.afterAction ⟨es ++ x.eventsAfter b t.seq, by rw [hev, he, List.append_assoc], ?_⟩
  rw [hr]
  exact hp.action x b hx

theorem Follows.skip {i : Instr} {x : Action} {s t u : State} (h : Follows (Performs i) s t)
    (hd : doAction x t = .skip u) : Follows (Performs i) s (Machine.afterAction u) := by
  obtain ⟨es, he, hp⟩ := h
  obtain ⟨-, -, rfl⟩ | ⟨-, -, rfl⟩ | ⟨-, -, rfl⟩ := doAction_skip x t u hd
  · exact Follows.afterAction ⟨es, he, hp⟩
  all_goals exact Follows.afterAction ⟨es, he, hp.misuse⟩

theorem Follows.nextStep {i : Instr} {s t : State} (h : Follows (Performs i) s t) :
    Follows (Performs i) s (nextStep t) := by
  obtain ⟨es, he, hp⟩ := h
  exact ⟨es, he, hp.position _ _⟩

theorem Follows.stop {i : Instr} {x : Action} {s t u : State} (h : Follows (Performs i) s t) (hx : x.confined i = true)
    (hd : doAction x t = .stop u) : Follows (Course i) s u := by
  obtain ⟨es, he, hp⟩ := h
  obtain hs | ⟨o, r, rfl, rfl⟩ := doAction_stop x t u hd
  · refine ⟨es, hs.seqEvents.trans he, ?_⟩
    rw [hs.seq]
    exact .going hp
  · obtain rfl : o = i.opcode := by simpa [Action.confined] using hx
    refine ⟨es ++ [.rsp (responseOf r t).1 (responseOf r t).2], ?_, ?_⟩
    · rw [finish_seqEvents, he, List.append_assoc]
    · rw [finish_seq]
      exact .ended _ _ hp

/-- Whatever the budget, a run takes the course of its command. -/
theorem run_follows {i : Instr} {l : Line} {ls : Program} {s : State} (ha : At i (l :: ls) s) (he : Ends (l :: ls))
    (hne : l ≠ [] ∨ ls ≠ []) : Follows (Course i) s (runProgram (l :: ls) s) :=
  run_induct i (fun _ u => Follows (Performs i) s u) (Follows (Course i) s)
    (go := fun _ _ _ _ _ hat _ hI hd _ => hI.go hat.confined hd)
    (skip := fun _ _ _ _ _ _ _ hI hd => hI.skip hd)
    (next := fun _ _ _ _ hI _ => hI.nextStep)
    (stop := fun _ _ _ _ _ hat _ hI hd => hI.stop hat.confined hd)
    (pause := fun _ _ _ _ _ _ ⟨es, hev, hp⟩ _ => ⟨es, hev, .going hp⟩)
    ls l s ha he hne (Follows.start i s)

/-! ### One step -/

/-- SEQ's registers at acceptance (10_state.md R26, 42_panel_protocol.md R161, R162). -/
def begunRegs (i : Instr) (r : SeqRegs) : SeqRegs :=
  { acceptedRegs i r with psm := psmDuring i.opcode r.psm, seqOp := i.opcode.code, seqStep := 1, seqSub := 0 }

/-- Everything a step with `rst` low can do to SEQ's registers, with the events of SEQ it adds. -/
inductive Effect (s : State) : SeqRegs → List Event → Prop
  | idle : s.seq.seqOp = 0 → s.env.turn = none → Effect s s.seq []
  | illegal (c : CmdWord) (e : Reject) : s.seq.seqOp = 0 → s.env.turn = some c →
      decode s.params.maxTicks c = .error e → Effect s { s.seq with illegal := true } [.rsp 2 0]
  | second (c : CmdWord) (n : Half) : s.seq.seqOp = 0 → s.env.turn = some c →
      decode s.params.maxTicks c = .ok (.init n) → s.seq.psm ≠ .uninit →
      Effect s { s.seq with misuse := true, a := (Instr.init n).fieldA, b := (Instr.init n).fieldB
                            w := (Instr.init n).fieldW } [.rsp (responseOf .init s).1 (responseOf .init s).2]
  | command {q : SeqRegs} {es : List Event} (c : CmdWord) (i : Instr) : s.seq.seqOp = 0 → s.env.turn = some c →
      decode s.params.maxTicks c = .ok i → (∀ n, i = .init n → s.seq.psm = .uninit) →
      Course i (begunRegs i s.seq) q es → Effect s q es
  | busy {q : SeqRegs} {es : List Event} (i : Instr) : latchedInstr s.params.maxTicks s.seq = some i →
      Course i s.seq q es → Effect s q es

/-- The state in which the command that a step accepts begins. -/
theorem begun_state (i : Instr) (s : State) :
    (accept i (openStep (passAccept s.takeRst.dropCmd))).seq = begunRegs i s.seq ∧
    (accept i (openStep (passAccept s.takeRst.dropCmd))).seqEvents = s.seqEvents := by
  constructor
  · simp [accept_seq, begunRegs, acceptedRegs, legalStates_contains, -List.contains_eq_mem]
  · have hs := (passAccept_still s.takeRst.dropCmd).seqEvents
    simpa [State.seqEvents, State.events] using hs

theorem step_effect {s t : State} (hr : s.env.rst.head = false) (h : step s = .next t) :
    ∃ es, t.seqEvents = s.seqEvents ++ es ∧ Effect s t.seq es := by
  have hw : (passAccept s.takeRst.dropCmd).seqEvents = s.seqEvents := (passAccept_still s.takeRst.dropCmd).seqEvents
  cases stepped hr h with
  | idle hop hturn =>
    have hs := elapse_still 1 s.takeRst.dropCmd
    refine ⟨[], by rw [hs.seqEvents, List.append_nil]; rfl, ?_⟩
    rw [hs.seq]
    exact .idle hop hturn
  | illegal c e hop hturn hd =>
    refine ⟨[.rsp 2 0], ?_, ?_⟩
    · rw [illegalWord, seqEvents_emit _ _ rfl, ← hw]
      rfl
    · rw [illegalWord_seq, passAccept_seq]
      exact .illegal c e hop hturn hd
  | second c n hop hturn hd hpsm =>
    refine ⟨_, (ignoreSecondInit_seqEvents (.init n) _).trans (by rw [hw]), ?_⟩
    rw [closeStep_seq, ignoreSecondInit_seq]
    simp only [responseOf, passAccept_seq, dropCmd_seq, takeRst_seq]
    exact .second c n hop hturn hd hpsm
  | command c i l ls hop hturn hd hinit _ ha he hne =>
    obtain ⟨es, hev, hcourse⟩ := run_follows ha he hne
    obtain ⟨hseq, hbegin⟩ := begun_state i s
    rw [hbegin] at hev
    rw [hseq] at hcourse
    exact ⟨es, hev, .command c i hop hturn hd hinit hcourse⟩
  | busy i x xs ls hop _ ha he =>
    obtain ⟨es, hev, hcourse⟩ := run_follows ha he (.inl (List.cons_ne_nil x xs))
    exact ⟨es, hev, .busy i ha.instr hcourse⟩

/-! ### The response -/

theorem Performs.unanswered {i : Instr} {r q : SeqRegs} {es : List Event} (h : Performs i r q es) :
    es.filter Event.isRsp = [] := by
  induction h with
  | start => rfl
  | action x b _ _ ih => rw [List.filter_append, ih, eventsAfter_unanswered, List.append_nil]
  | misuse _ ih => exact ih
  | position _ _ _ ih => exact ih

theorem Performs.seqOp {i : Instr} {r q : SeqRegs} {es : List Event} (h : Performs i r q es) : q.seqOp = r.seqOp := by
  induction h with
  | start => rfl
  | action x b _ _ ih => rw [regsAfter_seqOp, ih]
  | misuse _ ih => exact ih
  | position _ _ _ ih => exact ih

/-- A command in execution stays in execution without a response, or is idle with one. -/
theorem Course.answers {i : Instr} {r q : SeqRegs} {es : List Event} (h : Course i r q es) :
    ((es.filter Event.isRsp).length = 0 ∧ q.seqOp = r.seqOp) ∨ ((es.filter Event.isRsp).length = 1 ∧ q.seqOp = 0) := by
  cases h with
  | going hp => exact .inl ⟨by rw [hp.unanswered]; rfl, hp.seqOp⟩
  | ended st d hp => exact .inr ⟨by rw [List.filter_append, hp.unanswered]; rfl, rfl⟩

/-- Settles O11: of the effects a step can have, only the course of a command leaves SEQ busy or finds it so, and a course
has one response exactly when it ends. -/
theorem onlyItsResponseEndsACommand : Obligations.OnlyItsResponseEndsACommand := by
  unfold Obligations.OnlyItsResponseEndsACommand
  intro s t hr h
  obtain ⟨es, hev, heff⟩ := step_effect hr h
  refine ⟨es, hev, ?_⟩
  generalize t.seq = q at heff ⊢
  cases heff with
  | idle hop _ => simp [hop]
  | illegal c e hop _ _ => exact ⟨Nat.le_refl 1, fun _ => hop, fun hb => absurd hop hb, fun hb => absurd hop hb⟩
  | second c n hop _ _ _ => exact ⟨Nat.le_refl 1, fun _ => hop, fun hb => absurd hop hb, fun hb => absurd hop hb⟩
  | command c i hop _ _ _ hc =>
    have hcode := code_ne_zero i.opcode
    obtain ⟨hn, hq⟩ | ⟨hn, hq⟩ := hc.answers <;> simp [hn, hq, hop]
  | busy i hi hc =>
    have hcode := latchedInstr_code hi
    obtain ⟨hn, hq⟩ | ⟨hn, hq⟩ := hc.answers <;> simp [hn, hq, hcode]

end Sys2Proof.Machine
end

section
/-! Which of SEQ's registers last: the sticky flags, the direction bits, SPL and a left UNINIT (10_state.md R24, R32, R33,
R37), BUS_FAIL and CFG. Each is a fact about one action that the course of a command, and so every step, inherits. -/

namespace Sys2Proof.Machine

/-! ### What no step but a reset takes back -/

/-- What is set in `r` is set in `q`, in the registers that only a reset clears. -/
structure Lasting (r q : SeqRegs) : Prop where
  misuse : r.misuse = true → q.misuse = true
  illegal : r.illegal = true → q.illegal = true
  busFail : r.busFail = true → q.busFail = true
  spl : r.spl = true → q.spl = true
  dirCfgData : r.dirCfgData = true → q.dirCfgData = true
  dirCfgClk : r.dirCfgClk = true → q.dirCfgClk = true
  dirCfgStr : r.dirCfgStr = true → q.dirCfgStr = true
  dirSpl : r.dirSpl = true → q.dirSpl = true
  dirCkv : r.dirCkv = true → q.dirCkv = true
  psm : r.psm ≠ .uninit → q.psm ≠ .uninit

theorem Lasting.refl (r : SeqRegs) : Lasting r r := ⟨id, id, id, id, id, id, id, id, id, id⟩

theorem Lasting.trans {r q p : SeqRegs} (h : Lasting r q) (k : Lasting q p) : Lasting r p :=
  ⟨k.misuse ∘ h.misuse, k.illegal ∘ h.illegal, k.busFail ∘ h.busFail, k.spl ∘ h.spl, k.dirCfgData ∘ h.dirCfgData,
    k.dirCfgClk ∘ h.dirCfgClk, k.dirCfgStr ∘ h.dirCfgStr, k.dirSpl ∘ h.dirSpl, k.dirCkv ∘ h.dirCkv, k.psm ∘ h.psm⟩

theorem setDir_lasting (p : Pin) (r : SeqRegs) : Lasting r (setDir p r) := by
  cases p <;> constructor <;> simp [setDir]

/-- A latch is written without any other register; SPL lasts when it is raised. -/
theorem setLatch_lasting (p : Pin) (v : Bool) (r : SeqRegs) (h : p = .spl → v = true) : Lasting r (setLatch p v r) := by
  cases p
  case spl => constructor <;> simp [setLatch, h rfl]
  all_goals constructor <;> simp [setLatch]

/-- No action a program has takes anything back. -/
theorem regsAfter_lasting {i : Instr} {x : Action} (hx : x.confined i = true) (b : Bool) (r : SeqRegs) :
    Lasting r (x.regsAfter b r) := by
  cases x
  case dirOut p => exact setDir_lasting p r
  case pinOut p v => exact setLatch_lasting p v r (fun hp => by subst hp; exact hx)
  case dataBit src k => exact setLatch_lasting .cfgData _ r nofun
  case busInitAns =>
    cases b
    · exact { Lasting.refl r with busFail := fun _ => rfl }
    · exact Lasting.refl r
  case pgAllocAns =>
    cases b
    · exact { Lasting.refl r with }
    · exact { setDir_lasting .ckv r with }
  case psmPut p => exact { Lasting.refl r with psm := fun _ => show p ≠ .uninit by simpa [Action.confined] using hx }
  all_goals exact { Lasting.refl r with }

theorem psmAfter_ne_uninit (o : Opcode) {p : Psm} (h : p ≠ .uninit) : psmAfter o p ≠ .uninit := by
  cases o <;> simp [psmAfter, h]

theorem psmDuring_ne_uninit (o : Opcode) {p : Psm} (h : p ≠ .uninit) : psmDuring o p ≠ .uninit := by
  cases o <;> simp [psmDuring, h]

theorem Performs.lasting {i : Instr} {r q : SeqRegs} {es : List Event} (h : Performs i r q es) : Lasting r q := by
  induction h with
  | start => exact Lasting.refl r
  | action x b _ hx ih => exact ih.trans (regsAfter_lasting hx b _)
  | misuse _ ih => exact { ih with misuse := fun _ => rfl }
  | position k n _ ih => exact { ih with }

theorem Course.lasting {i : Instr} {r q : SeqRegs} {es : List Event} (h : Course i r q es) : Lasting r q := by
  cases h with
  | going hp => exact hp.lasting
  | ended st d hp => exact { hp.lasting with psm := fun hr => psmAfter_ne_uninit _ (hp.lasting.psm hr) }

theorem begunRegs_lasting (i : Instr) (r : SeqRegs) : Lasting r (begunRegs i r) :=
  { Lasting.refl r with
    misuse := fun h => by simp [begunRegs, acceptedRegs, h]
    psm := psmDuring_ne_uninit i.opcode }

theorem Effect.lasting {s : State} {q : SeqRegs} {es : List Event} (h : Effect s q es) : Lasting s.seq q := by
  cases h with
  | idle _ _ => exact Lasting.refl _
  | illegal c e _ _ _ => exact { Lasting.refl s.seq with illegal := fun _ => rfl }
  | second c n _ _ _ _ => exact { Lasting.refl s.seq with misuse := fun _ => rfl }
  | command c i _ _ _ _ hc => exact (begunRegs_lasting i s.seq).trans hc.lasting
  | busy i _ hc => exact hc.lasting

theorem step_lasting {s t : State} (hr : s.env.rst.head = false) (h : step s = .next t) : Lasting s.seq t.seq := by
  obtain ⟨_, -, heff⟩ := step_effect hr h
  exact heff.lasting

/-- Settles O19: no action, no acceptance and no response clears a sticky flag. -/
theorem stickyFlagsStay : Obligations.StickyFlagsStay := by
  unfold Obligations.StickyFlagsStay
  intro s t hr h
  have hl := step_lasting hr h
  exact ⟨hl.misuse, hl.illegal, hl.busFail⟩

/-! ### CFG -/

/-- Outside the panel protocol no action of a command writes CFG (10_state.md R23, 41_shift_register.md R151). -/
theorem Performs.cfg {i : Instr} {r q : SeqRegs} {es : List Event} (h : Performs i r q es)
    (hi : isPanel i.opcode = false) : q.cfg = r.cfg := by
  induction h with
  | start => rfl
  | action x b _ hx ih => rw [regsAfter_cfg, cfgAfter_of_confined hx hi, ih]
  | misuse _ ih => exact ih
  | position k n _ ih => exact ih

theorem Course.isPanel_of_cfg {i : Instr} {r q : SeqRegs} {es : List Event} (h : Course i r q es) (hq : q.cfg ≠ r.cfg) :
    isPanel i.opcode = true := by
  by_contra hi
  have hi : isPanel i.opcode = false := by simpa using hi
  cases h with
  | going hp => exact hq (hp.cfg hi)
  | ended st d hp => exact hq (hp.cfg hi)

/-- The opcodes of the panel protocol are 0x30 and above (30_encoding.md R92). -/
theorem isPanel_code {o : Opcode} (h : isPanel o = true) : 0x30 ≤ o.code.toNat := by
  revert h
  cases o <;> decide

/-- Settles O21: a step changes CFG only in the course of a command of the panel protocol. -/
theorem cfgIsWrittenByPanelCommandsOnly : Obligations.CfgIsWrittenByPanelCommandsOnly := by
  unfold Obligations.CfgIsWrittenByPanelCommandsOnly
  intro s t hr h hcfg
  obtain ⟨_, -, heff⟩ := step_effect hr h
  generalize t.seq = q at heff hcfg
  cases heff with
  | idle _ _ => exact absurd rfl hcfg
  | illegal c e _ _ _ => exact absurd rfl hcfg
  | second c n _ _ _ _ => exact absurd rfl hcfg
  | command c i hop hturn hd _ hc => exact .inr ⟨c, i, hop, hturn, hd, hc.isPanel_of_cfg hcfg⟩
  | busy i hi hc =>
    rw [latchedInstr_code hi]
    exact .inl ⟨code_ne_zero _, isPanel_code (hc.isPanel_of_cfg hcfg)⟩

/-! ### BUS_FAIL -/

/-- BUS_FAIL is INIT's (42_panel_protocol.md R170 micro-step 4). -/
theorem Performs.busFail {i : Instr} {r q : SeqRegs} {es : List Event} (h : Performs i r q es) (hi : i.opcode ≠ .init) :
    q.busFail = r.busFail := by
  induction h with
  | start => rfl
  | action x b _ hx ih =>
    refine (regsAfter_busFail ?_ b _).trans ih
    rintro rfl
    exact hi (by simpa [Action.confined] using hx)
  | misuse _ ih => exact ih
  | position k n _ ih => exact ih

theorem Course.busFail {i : Instr} {r q : SeqRegs} {es : List Event} (h : Course i r q es) (hi : i.opcode ≠ .init) :
    q.busFail = r.busFail := by
  cases h with
  | going hp => exact hp.busFail hi
  | ended st d hp => exact hp.busFail hi

theorem opcode_eq_init {i : Instr} (h : i.opcode = .init) : ∃ n, i = .init n := by
  cases i with
  | init n => exact ⟨n, rfl⟩
  | _ => cases h

/-- `State.sessionOk` as a fact about SEQ's registers. -/
def SeqRegs.Session (r : SeqRegs) : Prop := r.busFail = true → r.psm ≠ .uninit ∨ r.seqOp = Opcode.code .init

theorem sessionOk_iff (s : State) : s.sessionOk = true ↔ s.seq.Session := by
  cases h : s.seq.busFail <;> simp [State.sessionOk, SeqRegs.Session, h]

/-- The course of INIT leaves INIT in execution or PSM out of UNINIT; the course of any other command leaves BUS_FAIL. -/
theorem Course.session {i : Instr} {r q : SeqRegs} {es : List Event} (h : Course i r q es)
    (hcode : r.seqOp = i.opcode.code) (hr : r.Session) : q.Session := by
  intro hf
  by_cases hi : i.opcode = .init
  · cases h with
    | going hp => exact .inr (by rw [hp.seqOp, hcode, hi])
    | ended st d hp => exact .inl (by simp [idleAfter, hi, psmAfter])
  · rw [h.busFail hi] at hf
    have hne : r.seqOp ≠ Opcode.code .init := fun hc => hi (code_eq_iff.mp (hcode.symm.trans hc))
    exact .inl (h.lasting.psm ((hr hf).resolve_right hne))

/-- Acceptance from idle keeps the session. -/
theorem begunRegs_session (i : Instr) {r : SeqRegs} (hop : r.seqOp = 0) (hr : r.Session) : (begunRegs i r).Session := by
  intro hf
  refine .inl (psmDuring_ne_uninit _ ((hr hf).resolve_right ?_))
  rw [hop]
  exact (code_ne_zero _).symm

theorem Effect.session {s : State} {q : SeqRegs} {es : List Event} (h : Effect s q es) (hs : s.seq.Session) :
    q.Session := by
  cases h with
  | idle _ _ => exact hs
  | illegal c e _ _ _ => exact hs
  | second c n _ _ _ _ => exact hs
  | command c i hop _ _ _ hc => exact hc.session rfl (begunRegs_session i hop hs)
  | busy i hi hc => exact hc.session (latchedInstr_code hi) hs

/-- A step with `rst` asserted ends in the reset state of SEQ. -/
theorem step_rst {s t : State} (hr : s.env.rst.head = true) (h : step s = .next t) : t = applyReset s.takeRst := by
  simp only [step, hr, if_true, Host.Outcome.next.injEq] at h
  exact h.symm

theorem step_session {s t : State} (hs : s.sessionOk = true) (h : step s = .next t) : t.sessionOk = true := by
  rw [sessionOk_iff] at hs ⊢
  cases hr : s.env.rst.head with
  | true =>
    rw [step_rst hr h, applyReset_seq]
    exact nofun
  | false =>
    obtain ⟨_, -, heff⟩ := step_effect hr h
    exact heff.session hs

/-- A step that raises BUS_FAIL runs INIT. -/
theorem step_raises_busFail {s t : State} (h : step s = .next t) (h0 : s.seq.busFail = false)
    (h1 : t.seq.busFail = true) :
    s.seq.seqOp = Opcode.code .init ∨
      ∃ c n, s.seq.seqOp = 0 ∧ s.env.turn = some c ∧ decode s.params.maxTicks c = .ok (.init n) := by
  cases hr : s.env.rst.head with
  | true => rw [step_rst hr h, applyReset_seq] at h1; cases h1
  | false =>
    obtain ⟨_, -, heff⟩ := step_effect hr h
    have raises : ∀ {i r es}, Course i r t.seq es → r.busFail = false → i.opcode = .init := fun hc hr0 => by
      by_contra hi
      rw [hc.busFail hi, hr0] at h1
      cases h1
    generalize t.seq = q at heff h1 raises
    cases heff with
    | idle _ _ => rw [h0] at h1; cases h1
    | illegal c e _ _ _ => rw [h0] at h1; cases h1
    | second c n _ _ _ _ => rw [h0] at h1; cases h1
    | command c i hop hturn hd _ hc =>
      obtain ⟨n, rfl⟩ := opcode_eq_init (raises hc h0)
      exact .inr ⟨c, n, hop, hturn, hd⟩
    | busy i hi hc => exact .inl (by rw [latchedInstr_code hi, raises hc h0])

/-- Settles O17: only INIT's wait for the bus engine sets BUS_FAIL, and INIT ends with PSM out of UNINIT. -/
theorem busFailComesFromInit : Obligations.BusFailComesFromInit := by
  unfold Obligations.BusFailComesFromInit
  exact ⟨fun _ _ => step_session, fun _ _ => step_raises_busFail⟩

end Sys2Proof.Machine
end

section
/-! The pulse engine between any two actions (10_state.md R33, R34, R36, 40_pulse_generator.md R122, R130). Each action
needs the engine in some condition and leaves it in some condition; along every micro-step of every command the conditions
fit together, so the engine invariant holds wherever a step ends. -/

namespace Sys2Proof.Machine

/-! ### Conditions of the engine -/

/-- How the engine and the generator stand between two actions of SEQ. -/
inductive Cond
  /-- Nothing more than that the two are consistent. -/
  | free
  /-- The generator is ready. -/
  | ready
  /-- The generator is ready and no pulse is in flight. -/
  | quiet
  /-- The flag is cleared and the pulse not yet started (log 24). -/
  | cleared
  /-- The generator has never been initialised. -/
  | unbound

/-- What a condition says. -/
def Cond.holds (c : Cond) (p : PgeRegs) (st : PgSt) : Prop :=
  match c with
  | .free => p.consistent = true ∧ (p.pgDone = true ∨ st = .ready)
  | .ready => p.consistent = true ∧ st = .ready
  | .quiet => p.consistent = true ∧ p.pgDone = true ∧ st = .ready
  | .cleared => p.pgPh = .idle ∧ p.pgDone = false ∧ p.ckv = false ∧ st = .ready
  | .unbound => p.consistent = true ∧ p.pgDone = true ∧ st = .uninit

abbrev Cond.metBy (c : Cond) (s : State) : Prop := c.holds s.pge s.seq.pgSt

/-- Whether the first condition is as strong as the second. -/
def Cond.covers : Cond → Cond → Bool
  | .cleared, .cleared => true
  | .cleared, _ => false
  | _, .free => true
  | .ready, .ready => true
  | .quiet, .ready => true
  | .quiet, .quiet => true
  | .unbound, .unbound => true
  | _, _ => false

/-- The condition an action needs: what `State.engineOk` says of the action SEQ does next. -/
def Action.needs : Action → Cond
  | .start => .cleared
  | .program _ _ => .quiet
  | .clearDone => .quiet
  | .awaitDone => .ready
  | .pgSetPin _ => .unbound
  | .pgAllocReq _ => .unbound
  | .pgAllocAns => .unbound
  | _ => .free

/-- The condition an action leaves when it goes on. -/
def Action.leaves : Action → Cond
  | .emitGuard => .ready
  | .awaitDone => .quiet
  | .program _ _ => .quiet
  | .clearDone => .cleared
  | .start => .ready
  | .pgInitGuard => .unbound
  | .pgSetPin _ => .unbound
  | .pgAllocReq _ => .unbound
  | _ => .free

/-- Along a line each action finds the condition it needs, and the line ends in `free`. -/
def Cond.fits : Cond → Line → Bool
  | c, [] => c.covers .free
  | c, x :: xs => c.covers x.needs && x.leaves.fits xs

theorem Cond.covers_refl (c : Cond) : c.covers c = true := by cases c <;> rfl

theorem Cond.holds_of_covers {c d : Cond} {p : PgeRegs} {st : PgSt} (h : c.covers d = true) (hc : c.holds p st) :
    d.holds p st := by
  cases c <;> cases d <;> simp_all [Cond.covers, Cond.holds]

/-- The clause of `State.engineOk` for the actions with a given need. -/
def Cond.clause (c : Cond) (p : PgeRegs) (st : PgSt) : Bool :=
  match c with
  | .free => p.pgDone == (p.pgPh == .idle)
  | .ready => (p.pgDone == (p.pgPh == .idle)) && st == .ready
  | .quiet => p.pgPh == .idle && p.pgDone && st == .ready
  | .cleared => p.pgPh == .idle && !p.pgDone
  | .unbound => p.pgPh == .idle && p.pgDone && st == .uninit

/-- The clause, with the two clauses every state has, is the condition: outside `cleared` a completion flag that is as
PG_PH says makes the engine consistent, and in `cleared` the flag is 0, so the generator is ready. -/
theorem Cond.holds_iff (c : Cond) (p : PgeRegs) (st : PgSt) :
    ((p.ckv == (p.pgPh == .ph0)) && (p.pgDone || st == .ready) && c.clause p st) = true ↔ c.holds p st := by
  cases c <;> simp only [Cond.clause, Cond.holds, PgeRegs.consistent, Bool.and_eq_true, Bool.or_eq_true, beq_iff_eq] <;>
    grind

/-- The engine invariant is the condition that the next action needs; `free` when there is none. -/
theorem engineOk_iff (s : State) : s.engineOk = true ↔ ((s.nextAction.map Action.needs).getD .free).metBy s := by
  refine Iff.trans ?_ (Cond.holds_iff _ _ _)
  unfold State.engineOk
  cases s.nextAction with
  | none => exact Iff.rfl
  | some x => cases x <;> exact Iff.rfl

/-- An idle SEQ has no next action (10_state.md R25). -/
theorem nextAction_idle {s : State} (h : s.seq.seqOp = 0) : s.nextAction = none := by
  have hl : latchedInstr s.params.maxTicks s.seq = none := by
    cases hi : latchedInstr s.params.maxTicks s.seq with
    | none => rfl
    | some i => exact absurd ((latchedInstr_code hi).symm.trans h) (code_ne_zero _)
  simp [State.nextAction, remaining, hl]

theorem engineOk_idle {s : State} (h : s.seq.seqOp = 0) : s.engineOk = true ↔ Cond.free.metBy s := by
  rw [engineOk_iff, nextAction_idle h]
  rfl

theorem engineOk_of_remaining {s : State} {x : Action} {xs : Line} {ls : Program} (h : remaining s = (x :: xs) :: ls) :
    s.engineOk = true ↔ x.needs.metBy s := by
  have hn : s.nextAction = some x := by simp [State.nextAction, h]
  rw [engineOk_iff, hn]
  rfl

/-! ### Every program fits -/

theorem programOf_fits (i : Instr) (s : State) : (programOf i s).all Cond.free.fits = true := by
  cases i with
  | emit h l w => cases w <;> rfl
  | emitus h l w => cases w <;> rfl
  | orow t => simp only [programOf, orowProgram]; cases s.params.orWait <;> rfl
  | _ => rfl

theorem fits_of_mem {i : Instr} {s : State} {l : Line} (h : l ∈ programOf i s) : Cond.free.fits l = true :=
  List.all_eq_true.mp (programOf_fits i s) l h

/-- From any action on, the rest of a fitting line fits the condition that action needs. -/
theorem fits_drop {c : Cond} {l : Line} (h : c.fits l = true) : ∀ {n : Nat} {x : Action} {xs : Line},
    l.drop n = x :: xs → x.needs.fits (x :: xs) = true := by
  induction l generalizing c with
  | nil => intro n x xs hd; simp at hd
  | cons y ys ih =>
    intro n x xs hd
    obtain ⟨-, hys⟩ := Bool.and_eq_true_iff.mp h
    cases n with
    | zero =>
      obtain ⟨rfl, rfl⟩ := List.cons.inj hd
      exact Bool.and_eq_true_iff.mpr ⟨Cond.covers_refl _, hys⟩
    | succ n => exact ih hys hd

theorem At.fits {i : Instr} {x : Action} {xs : Line} {ls : Program} {s : State} (h : At i ((x :: xs) :: ls) s) :
    x.needs.fits (x :: xs) = true := by
  obtain ⟨k, line, lines, -, hd, hp⟩ := h.place
  obtain ⟨hx, -⟩ := List.cons.inj hp
  exact fits_drop (fits_of_mem (List.mem_of_mem_drop (i := k) (by rw [hd]; exact List.mem_cons_self))) hx.symm

/-- The next micro-step starts from the condition `free`. -/
theorem Within.fits {i : Instr} {l : Line} {ls : Program} {s : State} (h : Within i (l :: ls) s) :
    Cond.free.fits l = true := by
  obtain ⟨-, k, line, -, hd⟩ := h
  have hl : l ∈ (programOf i s).drop k := by rw [hd]; exact List.mem_cons_of_mem _ List.mem_cons_self
  exact fits_of_mem (List.mem_of_mem_drop hl)

/-! ### What changes a condition -/

theorem Still.pge_of_done {s t : State} (h : Still s t) (hc : s.pge.consistent = true) (hd : s.pge.pgDone = true) :
    t.pge = s.pge := (h.calm.idle (quiet_of_done hc hd).1 rfl).1

/-- Time takes no condition away. -/
theorem Still.metBy {c : Cond} {s t : State} (hs : Still s t) (h : c.metBy s) : c.metBy t := by
  unfold Cond.metBy at *
  rw [hs.seq]
  cases c with
  | free =>
    obtain ⟨hc, hor⟩ := h
    refine ⟨hs.calm.consistent hc, hor.imp_left fun hd => ?_⟩
    rw [hs.pge_of_done hc hd]
    exact hd
  | ready =>
    obtain ⟨hc, hr⟩ := h
    exact ⟨hs.calm.consistent hc, hr⟩
  | quiet | unbound =>
    obtain ⟨hc, hd, -⟩ := id h
    rw [hs.pge_of_done hc hd]
    exact h
  | cleared =>
    obtain ⟨hi, -⟩ := id h
    rw [(hs.calm.idle hi rfl).1]
    exact h

theorem Cond.metBy_afterAction {c : Cond} {s : State} (h : c.metBy s) : c.metBy (afterAction s) := by
  obtain ⟨t, ht, hs⟩ := afterAction_still s
  rw [ht]
  exact hs.metBy h

/-- The allocator's answer ends PG_UNINIT with no pulse in flight (40_pulse_generator.md R120). -/
theorem pgAllocDone_free (ok : Bool) {s : State} (h : Cond.unbound.metBy s) : Cond.free.metBy (pgAllocDone ok s) := by
  obtain ⟨hc, hd, -⟩ := h
  have hckv : s.pge.ckv = false := by rw [consistent_ckv hc, (quiet_of_done hc hd).1]; rfl
  have hpge : ({ s.pge with ckv := false } : PgeRegs) = s.pge := by rw [← hckv]
  cases ok
  · exact ⟨hc, .inl hd⟩
  · exact ⟨(congrArg PgeRegs.consistent hpge).trans hc, .inl hd⟩

theorem busInitDone_free (ok : Bool) {s : State} (h : Cond.free.metBy s) : Cond.free.metBy (busInitDone ok s) := by
  cases ok <;> exact h

/-- An action that finds what it needs and goes on leaves what it promises. -/
theorem doAction_go_leaves {x : Action} {s t : State} (h : x.needs.metBy s) (hd : doAction x s = .go t) :
    x.leaves.metBy t := by
  cases x
  case waitIdle => exact ((waitIdleTurns_waits _ s).go t hd).1.metBy h
  case awaitDone =>
    obtain ⟨hs, hdone⟩ := (awaitDone_waits s).go t hd
    obtain ⟨hc, hr⟩ := hs.metBy h
    exact ⟨hc, hdone, hr⟩
  case busInitAns =>
    obtain ⟨ok, u, rfl, hu⟩ := (busInitAns_answers s).go t hd
    exact busInitDone_free ok (hu.metBy h)
  case pgAllocAns =>
    obtain ⟨ok, u, rfl, hu⟩ := (pgAllocAns_answers s).go t hd
    exact pgAllocDone_free ok (hu.metBy h)
  case delayWait =>
    obtain ⟨u, hu, hs⟩ | ⟨u, hu, -⟩ := delayWait_flow s <;> rw [hu] at hd <;> cases hd
    exact hs.metBy h
  case emitGuard =>
    simp only [doAction] at hd
    split at hd <;> cases hd
    exact ⟨h.1, by assumption⟩
  case pgInitGuard =>
    simp only [doAction] at hd
    split at hd <;> cases hd
    rename_i hu
    exact ⟨h.1, h.2.resolve_right (by simp [hu]), hu⟩
  case clearDone =>
    cases hd
    obtain ⟨hc, hdone, hr⟩ := h
    have hi := (quiet_of_done hc hdone).1
    exact ⟨hi, rfl, by simp [consistent_ckv hc, hi], hr⟩
  case start =>
    cases hd
    obtain ⟨-, hdone, -, hr⟩ := h
    exact ⟨by simp [PgeRegs.consistent, hdone], hr⟩
  case dirOut p => cases hd; cases p <;> exact h
  case pinOut p v => cases hd; cases p <;> exact h
  case done o r => cases hd
  case pick | latchVariant | cfgPut | cfgSet | cfgClear | dataBit | delayLoad | program | busInitReq | pgSetPin |
      pgAllocReq | busStart | busSwitch | psmPut =>
    cases hd; exact h

/-- Only a guard skips its line, and it leaves the engine alone. -/
theorem doAction_skip_free {x : Action} {s t : State} (h : x.needs.metBy s) (hd : doAction x s = .skip t) :
    Cond.free.metBy t := by
  obtain ⟨rfl, -, rfl⟩ | ⟨rfl, -, rfl⟩ | ⟨rfl, -, rfl⟩ := doAction_skip x s t hd <;> exact h

theorem finish_free {o : Opcode} {r : Response} {s : State} (h : Cond.free.metBy s) : Cond.free.metBy (finish o r s) := by
  refine (passStep_still _).metBy ?_
  unfold Cond.metBy
  rw [respond_pge, respond_seq]
  exact h

/-! ### The generator's status and pin -/

/-- Once initialised, the generator's status and pin are as before (10_state.md R28, R29). -/
def BoundStays (s t : State) : Prop :=
  s.seq.pgSt ≠ .uninit → t.seq.pgSt = s.seq.pgSt ∧ t.seq.pgPin = s.seq.pgPin

theorem BoundStays.of_eq {s t : State} (hst : t.seq.pgSt = s.seq.pgSt) (hpin : t.seq.pgPin = s.seq.pgPin) :
    BoundStays s t := fun _ => ⟨hst, hpin⟩

theorem BoundStays.trans {s t u : State} (h : BoundStays s t) (k : BoundStays t u) : BoundStays s u := fun hu => by
  obtain ⟨hst, hpin⟩ := h hu
  obtain ⟨kst, kpin⟩ := k (by rwa [hst])
  exact ⟨kst.trans hst, kpin.trans hpin⟩

theorem Still.boundStays {s t : State} (h : Still s t) : BoundStays s t :=
  .of_eq (congrArg _ h.seq) (congrArg _ h.seq)

theorem afterAction_boundStays (s : State) : BoundStays s (afterAction s) :=
  .of_eq (by rw [afterAction_seq]) (by rw [afterAction_seq])

theorem regsAfter_generator {x : Action} (hx : x.needs ≠ .unbound) (b : Bool) (r : SeqRegs) :
    (x.regsAfter b r).pgSt = r.pgSt ∧ (x.regsAfter b r).pgPin = r.pgPin := by
  cases x
  case pgSetPin | pgAllocAns => exact absurd rfl hx
  case dirOut p => cases p <;> exact ⟨rfl, rfl⟩
  case pinOut p v => cases p <;> exact ⟨rfl, rfl⟩
  case busInitAns => cases b <;> exact ⟨rfl, rfl⟩
  all_goals exact ⟨rfl, rfl⟩

/-- The generator is written only where it has never been initialised (40_pulse_generator.md R120). -/
theorem doAction_go_boundStays {x : Action} {s t : State} (h : x.needs.metBy s) (hd : doAction x s = .go t) :
    BoundStays s t := by
  intro hb
  obtain ⟨b, hseq, -⟩ := doAction_go_acts hd
  rw [hseq]
  refine regsAfter_generator (fun hx => hb ?_) b s.seq
  rw [hx] at h
  exact h.2.2

theorem doAction_skip_boundStays {x : Action} {s t : State} (hd : doAction x s = .skip t) : BoundStays s t := by
  obtain ⟨-, -, rfl⟩ | ⟨-, -, rfl⟩ | ⟨-, -, rfl⟩ := doAction_skip x s t hd <;> exact .of_eq rfl rfl

/-! ### A run -/

/-- Before the rest `p` of a program: the engine is in a condition that the rest of the line fits, and the generator is as
it was in `s`. -/
def Running (s : State) (p : Program) (u : State) : Prop :=
  match p with
  | [] => True
  | l :: _ => (∃ c : Cond, c.metBy u ∧ c.fits l = true) ∧ BoundStays s u

/-- What holds where a run from `s` ends. -/
structure Rested (s u : State) : Prop where
  engine : u.engineOk = true
  bound : BoundStays s u

theorem Running.needs {s u : State} {x : Action} {xs : Line} {ls : Program} (h : Running s ((x :: xs) :: ls) u) :
    x.needs.metBy u := by
  obtain ⟨⟨c, hc, hf⟩, -⟩ := h
  exact Cond.holds_of_covers (Bool.and_eq_true_iff.mp hf).1 hc

theorem Running.go {s u v : State} {x : Action} {xs : Line} {ls : Program} (h : Running s ((x :: xs) :: ls) u)
    (hd : doAction x u = .go v) : Running s (xs :: ls) (afterAction v) := by
  have hn := h.needs
  obtain ⟨⟨c, -, hf⟩, hb⟩ := h
  exact ⟨⟨x.leaves, Cond.metBy_afterAction (doAction_go_leaves hn hd), (Bool.and_eq_true_iff.mp hf).2⟩,
    (hb.trans (doAction_go_boundStays hn hd)).trans (afterAction_boundStays v)⟩

theorem Running.skip {s u v : State} {x : Action} {xs : Line} {ls : Program} (h : Running s ((x :: xs) :: ls) u)
    (hd : doAction x u = .skip v) : Running s ([] :: ls) (afterAction v) :=
  ⟨⟨.free, Cond.metBy_afterAction (doAction_skip_free h.needs hd), rfl⟩,
    (h.2.trans (doAction_skip_boundStays hd)).trans (afterAction_boundStays v)⟩

theorem Running.next {i : Instr} {s u : State} {ls : Program} (h : Running s ([] :: ls) u) (hw : Within i ls u) :
    Running s ls (nextStep u) := by
  obtain ⟨⟨c, hc, hf⟩, hb⟩ := h
  cases ls with
  | nil => trivial
  | cons l ls => exact ⟨⟨.free, Cond.holds_of_covers hf hc, hw.fits⟩, hb.trans (.of_eq rfl rfl)⟩

/-- A wait leaves SEQ at the same action. -/
theorem Still.remaining {s t : State} (h : Still s t) : remaining t = remaining s := by
  have hp : ∀ i, programOf i t = programOf i s := fun i => programOf_eq i h.calm.params (fun _ => by rw [h.seq])
  simp [Machine.remaining, h.seq, h.calm.params, hp]

theorem Running.pause {i : Instr} {s u : State} {x : Action} {xs : Line} {ls : Program}
    (h : Running s ((x :: xs) :: ls) u) (ha : At i ((x :: xs) :: ls) u) : Rested s u :=
  ⟨(engineOk_of_remaining ha.remaining).mpr h.needs, h.2⟩

theorem Running.stop {i : Instr} {s u v : State} {x : Action} {xs : Line} {ls : Program}
    (h : Running s ((x :: xs) :: ls) u) (ha : At i ((x :: xs) :: ls) u) (hd : doAction x u = .stop v) : Rested s v := by
  obtain hs | ⟨o, r, rfl, rfl⟩ := doAction_stop x u v hd
  · exact ⟨(engineOk_of_remaining (hs.remaining.trans ha.remaining)).mpr (hs.metBy h.needs),
      h.2.trans hs.boundStays⟩
  · have hseq := finish_seq o r u
    exact ⟨(engineOk_idle (by rw [hseq]; rfl)).mpr (finish_free h.needs),
      h.2.trans (.of_eq (by rw [hseq]; rfl) (by rw [hseq]; rfl))⟩

/-- Whatever the budget, a run that begins in a fitting condition ends with the engine consistent. -/
theorem run_rested {i : Instr} {l : Line} {ls : Program} {s : State} (ha : At i (l :: ls) s) (he : Ends (l :: ls))
    (hne : l ≠ [] ∨ ls ≠ []) {c : Cond} (hc : c.metBy s) (hf : c.fits l = true) : Rested s (runProgram (l :: ls) s) :=
  run_induct i (Running s) (Rested s)
    (go := fun _ _ _ _ _ _ _ hI hd _ => hI.go hd)
    (skip := fun _ _ _ _ _ _ _ hI hd => hI.skip hd)
    (next := fun _ _ _ hw hI _ => hI.next hw)
    (stop := fun _ _ _ _ _ hat _ hI hd => hI.stop hat hd)
    (pause := fun _ _ _ _ hat _ hI _ => hI.pause hat)
    ls l s ha he hne ⟨⟨c, hc, hf⟩, .of_eq rfl rfl⟩

/-! ### A step -/

theorem Rested.of_idle {s t : State} (hop : t.seq.seqOp = 0) (h : Cond.free.metBy t) (hb : BoundStays s t) : Rested s t :=
  ⟨(engineOk_idle hop).mpr h, hb⟩

theorem closeStep_rested {s t : State} (h : Rested s t) : Rested s (closeStep t) := ⟨h.engine, h.bound⟩

/-- The accepting turn leaves the engine consistent. -/
theorem passAccept_free {s : State} (h : Cond.free.metBy s) : Cond.free.metBy (passAccept s.takeRst.dropCmd) :=
  (passAccept_still s.takeRst.dropCmd).metBy h

theorem Rested.after {s t u : State} (hst : t.seq.pgSt = s.seq.pgSt) (hpin : t.seq.pgPin = s.seq.pgPin)
    (h : Rested t u) : Rested s u := ⟨h.engine, (BoundStays.of_eq hst hpin).trans h.bound⟩

/-- A step with `rst` low keeps the engine invariant, and the generator once it is initialised. -/
theorem step_rested {s t : State} (h : s.engineOk = true) (hr : s.env.rst.head = false) (hs : step s = .next t) :
    Rested s t := by
  cases stepped hr hs with
  | idle hop _ =>
    have hstill := elapse_still 1 s.takeRst.dropCmd
    exact .of_idle ((congrArg _ hstill.seq).trans hop) (hstill.metBy (s := s.takeRst.dropCmd) ((engineOk_idle hop).mp h))
      (.of_eq (congrArg _ hstill.seq) (congrArg _ hstill.seq))
  | illegal c e hop _ _ =>
    exact .of_idle (by simpa using hop) (passAccept_free ((engineOk_idle hop).mp h)) (.of_eq (by simp) (by simp))
  | second c n hop _ _ _ =>
    refine closeStep_rested (.of_idle ?_ ?_ (.of_eq ?_ ?_))
    · simpa [ignoreSecondInit_seq] using hop
    · exact passAccept_free ((engineOk_idle hop).mp h)
    · simp [ignoreSecondInit_seq]
    · simp [ignoreSecondInit_seq]
  | command c i l ls hop _ _ _ hp ha he hne =>
    have hbegin := (begun_state i s).1
    have hfree := passAccept_free ((engineOk_idle hop).mp h)
    refine closeStep_rested (.after (by rw [hbegin]; rfl) (by rw [hbegin]; rfl)
      (run_rested ha he hne (c := .free) ?_ (fits_of_mem (s := s) (by rw [hp]; exact List.mem_cons_self))))
    unfold Cond.metBy
    rw [accept_pge, hbegin]
    simpa [Cond.metBy, begunRegs, acceptedRegs] using hfree
  | busy i x xs ls _ hrem ha he =>
    exact closeStep_rested (.after (t := openStep s.takeRst) rfl rfl
      (run_rested ha he (.inl (List.cons_ne_nil x xs)) ((engineOk_of_remaining hrem).mp h) ha.fits))

/-- Settles O15: along every line each action leaves the engine as the next one needs it, and a reset makes it quiet. -/
theorem engineStaysConsistent : Obligations.EngineStaysConsistent := by
  unfold Obligations.EngineStaysConsistent
  intro s t h hs
  cases hr : s.env.rst.head with
  | false => exact (step_rested h hr hs).engine
  | true =>
    rw [step_rst hr hs]
    exact (engineOk_idle rfl).mpr ⟨rfl, .inl rfl⟩

/-- Settles O20: the generator is bound where it has never been initialised, and no action takes the others back. -/
theorem oneWayRegisters : Obligations.OneWayRegisters := by
  unfold Obligations.OneWayRegisters
  intro s t h hr hs
  have hl := step_lasting hr hs
  exact ⟨(step_rested h hr hs).bound, hl.spl, hl.dirCfgData, hl.dirCfgClk, hl.dirCfgStr, hl.dirSpl, hl.dirCkv, hl.psm⟩

/-! ### The reset state -/

/-- Settles O13: R41's table, register by register; every direction bit is 0, so no pad is driven. -/
theorem resetStateValues : Obligations.ResetStateValues := by
  unfold Obligations.ResetStateValues
  have hpads : ∀ p, State.reset.pad p = none := fun p => by cases p <;> rfl
  exact ⟨rfl, rfl, rfl, rfl, rfl, rfl, rfl, rfl, rfl, rfl, rfl, rfl, hpads, rfl, rfl, rfl, rfl, rfl⟩

/-- Settles O14: the reset state is idle with a quiet engine, both rails off and BUS_FAIL clear. -/
theorem resetMeetsTheInvariants : Obligations.ResetMeetsTheInvariants := by
  unfold Obligations.ResetMeetsTheInvariants
  exact ⟨(engineOk_idle rfl).mpr ⟨rfl, .inl rfl⟩, by decide, (sessionOk_iff _).mpr nofun⟩

end Sys2Proof.Machine
end

section
/-! The command port (20_memory.md R60, 10_state.md R26): an idle SEQ runs the word presented to it, and a busy one leaves
the words still to come and its operand latch as they are. -/

namespace Sys2Proof.Machine

/-- Settles O8: with `rst` low and SEQ idle a step is the acceptance of the word in HOST's turn. -/
theorem stepRunsTheDecodedCommand : Obligations.StepRunsTheDecodedCommand := by
  unfold Obligations.StepRunsTheDecodedCommand
  intro s c i hr hop hturn hd
  rw [← passAccept_turn]
  simp [step, hr, hop, hturn, acceptWord, hd]

/-- What a command in execution leaves alone to its end: the operand latch, the parameters and the words HOST is to
present. -/
structure Reserved (s t : State) : Prop where
  cmds : t.env.cmds = s.env.cmds
  cmdsLater : t.env.cmdsLater = s.env.cmdsLater
  a : t.seq.a = s.seq.a
  b : t.seq.b = s.seq.b
  w : t.seq.w = s.seq.w
  params : t.params = s.params

theorem Reserved.refl (s : State) : Reserved s s := ⟨rfl, rfl, rfl, rfl, rfl, rfl⟩

theorem Reserved.trans {s t u : State} (h : Reserved s t) (k : Reserved t u) : Reserved s u :=
  ⟨k.cmds.trans h.cmds, k.cmdsLater.trans h.cmdsLater, k.a.trans h.a, k.b.trans h.b, k.w.trans h.w,
    k.params.trans h.params⟩

theorem Steady.reserved {s t : State} (h : Steady s t) : Reserved s t := ⟨h.cmds, h.cmdsLater, h.a, h.b, h.w, h.params⟩

theorem afterAction_reserved (s : State) : Reserved s (afterAction s) := by
  obtain ⟨t, ht, hs⟩ := afterAction_still s
  rw [ht]
  exact Reserved.trans (t := { s with seq := { s.seq with seqSub := s.seq.seqSub + 1 } }) ⟨rfl, rfl, rfl, rfl, rfl, rfl⟩
    hs.steady.reserved

/-- The response moves PSM and SEQ's position only. -/
theorem finish_reserved (o : Opcode) (r : Response) (s : State) : Reserved s (finish o r s) where
  cmds := congrArg (·.cmds) (finish_calm o r s).held
  cmdsLater := congrArg (·.cmdsLater) (finish_calm o r s).held
  a := by rw [finish_seq]; rfl
  b := by rw [finish_seq]; rfl
  w := by rw [finish_seq]; rfl
  params := (finish_calm o r s).params

theorem doAction_stop_reserved {x : Action} {s t : State} (h : doAction x s = .stop t) : Reserved s t := by
  obtain hs | ⟨o, r, -, rfl⟩ := doAction_stop x s t h
  · exact hs.steady.reserved
  · exact finish_reserved o r s

/-- Whatever the budget, a run leaves the latch and the words alone. -/
theorem run_reserved {i : Instr} {l : Line} {ls : Program} {s : State} (ha : At i (l :: ls) s) (he : Ends (l :: ls))
    (hne : l ≠ [] ∨ ls ≠ []) : Reserved s (runProgram (l :: ls) s) :=
  run_induct i (fun _ u => Reserved s u) (Reserved s)
    (go := fun x _ _ u v _ _ hI hd _ => (hI.trans (doAction_go_steady x u v hd).reserved).trans (afterAction_reserved v))
    (skip := fun x _ _ u v _ _ hI hd => (hI.trans (doAction_skip_steady x u v hd).reserved).trans (afterAction_reserved v))
    (next := fun _ _ _ _ hI _ => hI.trans ⟨rfl, rfl, rfl, rfl, rfl, rfl⟩)
    (stop := fun _ _ _ _ _ _ _ hI hd => hI.trans (doAction_stop_reserved hd))
    (pause := fun _ _ _ _ _ _ hI _ => hI)
    ls l s ha he hne (Reserved.refl s)

/-- A step of a busy SEQ with `rst` low uses up no word and loads no latch. -/
theorem step_busy_reserved {s t : State} (hr : s.env.rst.head = false) (hop : s.seq.seqOp ≠ 0) (h : step s = .next t) :
    Reserved s t := by
  cases stepped hr h with
  | idle h0 | illegal _ _ h0 | second _ _ h0 | command _ _ _ _ h0 => exact absurd h0 hop
  | busy i x xs ls _ _ ha he =>
    have begun : Reserved s (openStep s.takeRst) := ⟨rfl, rfl, rfl, rfl, rfl, rfl⟩
    have closed : ∀ u, Reserved u (closeStep u) := fun _ => ⟨rfl, rfl, rfl, rfl, rfl, rfl⟩
    exact (begun.trans (run_reserved ha he (.inl (List.cons_ne_nil x xs)))).trans (closed _)

/-- Settles O10: a busy step runs on with the latched command, and `cmd_ready` is 0 while SEQ_OP is not. -/
theorem busyStepLeavesWordAndLatch : Obligations.BusyStepLeavesWordAndLatch := by
  unfold Obligations.BusyStepLeavesWordAndLatch
  intro s t hr hop h
  obtain ⟨hcmds, hlater, ha, hb, hw, hparams⟩ := step_busy_reserved hr hop h
  exact ⟨hcmds, hlater, ha, hb, hw, hparams, by rw [State.cmdReady, beq_false_of_ne hop, Bool.false_and]⟩

end Sys2Proof.Machine
end

section
/-! Every command ends (70_reset_and_hazards.md R250). In a fair environment and whole-command steps no action but `done`
stops SEQ, from any position: a wait finds the engine in the condition it needs (`Cond`), and what it waits for comes. So a
run ends in the one response of its command (20_memory.md R61). -/

namespace Sys2Proof.Machine

/-! ### A fair run stays fair -/

/-- A whole-command step in a fair environment. Unlike `Going` it says nothing of the engine, and so holds between any two
actions. -/
structure Unhindered (s : State) : Prop where
  budget : s.budget = none
  fair : s.env.fair = true

theorem Unhindered.calm {s t : State} (h : Unhindered s) (c : Calm s t) : Unhindered t where
  budget := c.budget h.budget
  fair := by
    obtain ⟨hns, ha⟩ := Bool.and_eq_true_iff.mp h.fair
    obtain ⟨hn, hs⟩ := Bool.and_eq_true_iff.mp hns
    simp [Env.fair, c.notifies hn, c.settles, c.answers, hs, ha]

theorem Unhindered.notifies {s : State} (h : Unhindered s) : s.env.notifies = true :=
  (Bool.and_eq_true_iff.mp (Bool.and_eq_true_iff.mp h.fair).1).1

theorem Unhindered.settles {s : State} (h : Unhindered s) : s.env.busSettles = true :=
  (Bool.and_eq_true_iff.mp (Bool.and_eq_true_iff.mp h.fair).1).2

theorem Unhindered.answers {s : State} (h : Unhindered s) : s.env.answers = true := (Bool.and_eq_true_iff.mp h.fair).2

theorem Unhindered.busInit_answers {s : State} (h : Unhindered s) : s.env.busInitOk.rest.isSome = true :=
  (Bool.and_eq_true_iff.mp h.answers).1

theorem Unhindered.pgAlloc_answers {s : State} (h : Unhindered s) : s.env.pgAllocOk.rest.isSome = true :=
  (Bool.and_eq_true_iff.mp h.answers).2

theorem Going.unhindered {s : State} (h : Going s) : Unhindered s where
  budget := h.budget
  fair := by simp [Env.fair, h.notifies, h.settles, h.answers]

theorem Unhindered.afterAction {s : State} (h : Unhindered s) : Unhindered (afterAction s) :=
  h.calm (afterAction_calm s h.budget)

theorem Unhindered.go {x : Action} {s t : State} (h : Unhindered s) (hd : doAction x s = .go t) : Unhindered t := by
  cases x
  case waitIdle => exact h.calm ((waitIdleTurns_waits _ s).go t hd).1.calm
  case awaitDone => exact h.calm ((awaitDone_waits s).go t hd).1.calm
  case busInitAns =>
    obtain ⟨ok, u, rfl, hu⟩ := (busInitAns_answers s).go t hd
    have hw := h.calm hu.calm
    cases ok <;> exact ⟨hw.budget, hw.fair⟩
  case pgAllocAns =>
    obtain ⟨ok, u, rfl, hu⟩ := (pgAllocAns_answers s).go t hd
    have hw := h.calm hu.calm
    cases ok <;> exact ⟨hw.budget, hw.fair⟩
  case delayWait =>
    obtain ⟨u, hu, hs⟩ | ⟨u, hu, -⟩ := delayWait_flow s <;> rw [hu] at hd <;> cases hd
    exact h.calm hs.calm
  case emitGuard | pgInitGuard => simp only [doAction] at hd; split at hd <;> cases hd; exact h
  case done o r => cases hd
  case pick | latchVariant | cfgPut | cfgSet | cfgClear | dirOut | pinOut | dataBit | delayLoad | program | clearDone |
      start | busInitReq | pgSetPin | pgAllocReq | busStart | busSwitch | psmPut =>
    cases hd; exact ⟨h.budget, h.fair⟩

theorem Unhindered.skip {x : Action} {s t : State} (h : Unhindered s) (hd : doAction x s = .skip t) : Unhindered t := by
  obtain ⟨-, -, rfl⟩ | ⟨-, -, rfl⟩ | ⟨-, -, rfl⟩ := doAction_skip x s t hd <;> exact ⟨h.budget, h.fair⟩

/-! ### Only `done` stops SEQ -/

/-- A call whose engine answers at last goes on (20_memory.md R67, R71). -/
theorem answerTurns_goes (pop : State → State) (got : Bool → State → State) (hpop : ∀ s, (pop s).budget = s.budget)
    {rest : Option Bool} (hr : rest.isSome = true) (later : List (Option Bool)) {s : State} (hb : s.budget = none) :
    ∃ t, answerTurns pop got rest later s = .go t := by
  obtain ⟨ok, hok⟩ := answerOf_isSome hr later
  obtain ⟨t, ht, -⟩ := answer_go pop got rest ok (·.budget = none) (fun _ h => h) (fun u h => (hpop u).trans h)
    (fun u h => (spinTurn_calm u h).budget h) later s hb hok
  exact ⟨_, ht⟩

/-- A delay ends in the tick in which DLY_CNT reaches 0 (10_state.md R27). -/
theorem delayWait_goes {s : State} (hb : s.budget = none) : ∃ t, doAction .delayWait s = .go t := by
  have h0 : (elapse s.dlyCnt.toNat s).dlyCnt = 0 := by simp [elapse_dlyCnt]
  exact ⟨_, by rw [doAction, waitTicks_none _ s hb, if_pos h0]⟩

/-- With the engine as the action needs it, only the end of the command stops an unhindered SEQ. -/
theorem Unhindered.stop {x : Action} {s t : State} (h : Unhindered s) (hn : x.needs.metBy s)
    (hd : doAction x s = .stop t) : ∃ o r, x = .done o r ∧ t = finish o r s := by
  have goes : (∃ u, doAction x s = .go u) → False := fun ⟨u, hu⟩ => by rw [hu] at hd; cases hd
  cases x
  case done o r => cases hd; exact ⟨o, r, rfl, rfl⟩
  case waitIdle =>
    obtain ⟨u, hu, -⟩ := waitIdle_go s.env.busBusy.next s h.budget hn.1 (.inl h.notifies) h.settles
    exact (goes ⟨u, hu⟩).elim
  case awaitDone =>
    obtain ⟨u, hu, -⟩ := await_go s h.budget hn.1 (.inl h.notifies)
    exact (goes ⟨u, hu⟩).elim
  case busInitAns =>
    exact (goes (answerTurns_goes (fun u => { u with env := { u.env with busInitOk := u.env.busInitOk.pop } }) busInitDone
      (fun _ => rfl) h.busInit_answers _ h.budget)).elim
  case pgAllocAns =>
    exact (goes (answerTurns_goes (fun u => { u with env := { u.env with pgAllocOk := u.env.pgAllocOk.pop } }) pgAllocDone
      (fun _ => rfl) h.pgAlloc_answers _ h.budget)).elim
  case delayWait => exact (goes (delayWait_goes h.budget)).elim
  case emitGuard | pgInitGuard => simp only [doAction] at hd; split at hd <;> cases hd
  case pick | latchVariant | cfgPut | cfgSet | cfgClear | dirOut | pinOut | dataBit | delayLoad | program | clearDone |
      start | busInitReq | pgSetPin | pgAllocReq | busStart | busSwitch | psmPut =>
    cases hd

/-! ### A run to the response -/

/-- The status of a command is 0 or 1 (30_encoding.md R100). -/
theorem responseOf_status (r : Response) (s : State) : (responseOf r s).1 = 0 ∨ (responseOf r s).1 = 1 := by
  cases r with
  | plain | busy | curBuf => exact .inl rfl
  | pgInit | init => simp only [responseOf]; split <;> simp

/-- From `s` to `t` the command in execution has ended, with one response and nothing of SEQ's after it. -/
def Answered (s t : State) : Prop :=
  t.seq.seqOp = 0 ∧ ∃ es st d, t.seqEvents = s.seqEvents ++ es ++ [.rsp st d] ∧ (∀ e ∈ es, e.isRsp = false) ∧
    (st = 0 ∨ st = 1)

/-- A stretch of a command without its response, then `done`. -/
theorem Follows.finish {i : Instr} {s u : State} (h : Follows (Performs i) s u) (o : Opcode) (r : Response) :
    Answered s (finish o r u) := by
  obtain ⟨es, he, hp⟩ := h
  refine ⟨by rw [finish_seq]; rfl, es, (responseOf r u).1, (responseOf r u).2, ?_, fun e hm => ?_,
    responseOf_status r u⟩
  · rw [finish_seqEvents, he]
  · simpa using List.filter_eq_nil_iff.mp hp.unanswered e hm

/-- An unhindered run that begins in a fitting condition of the engine ends in its response. -/
theorem run_answered {i : Instr} {l : Line} {ls : Program} {s : State} (ha : At i (l :: ls) s) (he : Ends (l :: ls))
    (hne : l ≠ [] ∨ ls ≠ []) {c : Cond} (hc : c.metBy s) (hf : c.fits l = true) (hs : Unhindered s) :
    Answered s (runProgram (l :: ls) s) :=
  run_induct i (fun p u => Running s p u ∧ Unhindered u ∧ Follows (Performs i) s u) (Answered s)
    (go := fun _ _ _ _ _ hat _ ⟨hrun, hu, hfol⟩ hd _ => ⟨hrun.go hd, (hu.go hd).afterAction, hfol.go hat.confined hd⟩)
    (skip := fun _ _ _ _ _ _ _ ⟨hrun, hu, hfol⟩ hd => ⟨hrun.skip hd, (hu.skip hd).afterAction, hfol.skip hd⟩)
    (next := fun _ u _ hw ⟨hrun, hu, hfol⟩ _ => ⟨hrun.next hw, hu.calm (nextStep_calm u), hfol.nextStep⟩)
    (stop := fun _ _ _ _ _ _ _ ⟨hrun, hu, hfol⟩ hd => by
      obtain ⟨o, r, -, rfl⟩ := hu.stop hrun.needs hd
      exact hfol.finish o r)
    (pause := fun _ _ _ u _ _ ⟨_, hu, _⟩ hb => by simp [hasBudget_none u hu.budget] at hb)
    ls l s ha he hne ⟨⟨⟨c, hc, hf⟩, .of_eq rfl rfl⟩, hs, Follows.start i s⟩

/-! ### The obligation -/

/-- A second INIT answers what is recorded and leaves SEQ as it was (42_panel_protocol.md R162). -/
theorem ignoreSecondInit_answered (i : Instr) {s : State} (hop : s.seq.seqOp = 0) : Answered s (ignoreSecondInit i s) :=
  ⟨by simpa [ignoreSecondInit_seq] using hop, [], _, _, by rw [ignoreSecondInit_seqEvents, List.append_nil], by simp,
    responseOf_status .init s⟩

/-- A command of a fair run is answered in the step that accepts it. -/
theorem exec_answered {i : Instr} {s : State} (hwf : i.wf s.params.maxTicks = true) (hfair : s.fairRun = true)
    (hop : s.seq.seqOp = 0) : ∃ t, exec i s = .next t ∧ Answered s t := by
  rw [exec_eq]
  split
  · exact ⟨_, rfl, ignoreSecondInit_answered i hop⟩
  · obtain ⟨l, ls, hp, ha, he, hne⟩ := at_accept i s (decode_encode hwf)
    have hg := going_accept i hfair
    have hrun := run_answered ha he hne (c := .free) ⟨hg.consistent, hg.inFlight⟩
      (fits_of_mem (s := s) (by rw [hp]; exact List.mem_cons_self)) hg.unhindered
    have hev : (accept i (openStep s)).seqEvents = s.seqEvents := by simp [State.seqEvents, State.events]
    rw [Answered, hev] at hrun
    exact ⟨closeStep _, by rw [startCommand, hp], hrun⟩

/-- A step with `rst` low at a position that names an action runs on from there. -/
theorem step_of_remaining {s : State} {l : Line} {ls : Program} (hr : s.env.rst.head = false)
    (h : remaining s = l :: ls) : step s = .next (closeStep (runProgram (l :: ls) (openStep s.takeRst))) := by
  have hop : s.seq.seqOp ≠ 0 := fun h0 => by
    obtain ⟨i, x, xs, rfl, -, -⟩ := at_of_remaining h
    have hnext := nextAction_idle h0
    simp [State.nextAction, h] at hnext
  have hrem : remaining s.takeRst = l :: ls := h
  rw [step, if_neg (by simp [hr]), if_neg hop, resume, hrem]

/-- From any position that names an action, a whole-command step of a fair run ends in the response. -/
theorem step_answered {s : State} (hok : s.engineOk = true) (hwhole : s.whole = true) (hfair : s.env.fair = true)
    (hr : s.env.rst.head = false) (hrem : remaining s ≠ []) : ∃ t, step s = .next t ∧ Answered s t := by
  obtain ⟨l, ls, hl⟩ := List.exists_cons_of_ne_nil hrem
  obtain ⟨i, x, xs, rfl, ha, he⟩ := at_of_remaining hl
  have hgrain : s.grain = none := by simpa [State.whole] using hwhole
  have ha' : At i ((x :: xs) :: ls) (openStep s.takeRst) := ⟨ha.instr, ha.place⟩
  have hrun : Answered (openStep s.takeRst) (runProgram ((x :: xs) :: ls) (openStep s.takeRst)) :=
    run_answered ha' he (.inl (List.cons_ne_nil x xs)) ((engineOk_of_remaining hl).mp hok) ha.fits
      ⟨by simp [hgrain], hfair⟩
  exact ⟨_, step_of_remaining hr hl, hrun⟩

/-- Settles O43: no action but `done` stops a fair run, at the acceptance of a command or gone on with from anywhere. -/
theorem everyCommandAnswersOnce : Obligations.EveryCommandAnswersOnce := by
  unfold Obligations.EveryCommandAnswersOnce
  refine ⟨fun i s hwf hfair hop => ?_, fun s hok hwhole hfair hr hrem => ?_⟩
  · obtain ⟨t, ht, hidle, es, st, d, hes⟩ := exec_answered hwf hfair hop
    exact ⟨t, es, st, d, ht, hidle, hes⟩
  · obtain ⟨t, ht, hidle, es, st, d, hes⟩ := step_answered hok hwhole hfair hr hrem
    exact ⟨t, es, st, d, ht, hidle, hes⟩

end Sys2Proof.Machine
end

section
/-! The encoding (30_encoding.md R90 to R94, R101, R104). The decoder is described by the rows of R92: a row selects a word
when the word has the row's opcode and zeros in its format's must-be-zero fields (`row_selects_iff`); a word some row
selects is that row's command, up to the operand values (`decode_of_selects`), and every other word is rejected. -/

namespace Sys2Proof

/-! ### What the formats fix -/

theorem mustBeZeroOk_n {x : Fields} : mustBeZeroOk .n x = true ↔ x.a = 0 ∧ x.b = 0 ∧ x.z = 0 ∧ x.w = 0 := by
  simp [mustBeZeroOk, and_assoc, and_left_comm]

theorem mustBeZeroOk_p {x : Fields} : mustBeZeroOk .p x = true ↔ x.z = 0 := by simp [mustBeZeroOk]

theorem mustBeZeroOk_a16 {x : Fields} : mustBeZeroOk .a16 x = true ↔ x.b = 0 ∧ x.z = 0 ∧ x.w = 0 := by
  simp [mustBeZeroOk, and_left_comm]

theorem mustBeZeroOk_a8 {x : Fields} :
    mustBeZeroOk .a8 x = true ↔ x.a.extractLsb' 8 8 = 0 ∧ x.b = 0 ∧ x.z = 0 ∧ x.w = 0 := by
  simp [mustBeZeroOk, and_assoc, and_left_comm]

/-- Z is zero in every format (R91). -/
theorem z_eq_zero {f : Format} {x : Fields} (h : mustBeZeroOk f x = true) : x.z = 0 :=
  beq_iff_eq.mp (Bool.and_eq_true_iff.mp h).1

/-- The bits a format fixes, given the opcode: OPC and the must-be-zero fields (R91). -/
def Format.mask : Format → CmdWord
  | .n => 0xFFFFFFFFFFFF
  | .p => 0xFF00000000FE
  | .a16 => 0xFF0000FFFFFF
  | .a8 => 0xFFFF00FFFFFF

/-- The row of R92 with a given opcode. -/
def Opcode.row (o : Opcode) : Row := ⟨o, o.format.mask, wordOf o.code 0 0 false⟩

/-- The rows written out in R92 are those of the fifteen opcodes. -/
theorem mem_rows_iff {r : Row} : r ∈ rows ↔ r = r.op.row := by
  constructor
  · revert r
    decide
  · intro h
    rw [h]
    cases r.op <;> decide

theorem row_mem_rows (o : Opcode) : o.row ∈ rows := mem_rows_iff.mpr rfl

/-! ### Selection by mask and match, read on the fields -/

/-- A word with Z = 0 is known by its fields. -/
theorem eq_wordOf_iff {c : CmdWord} {o : Byte} {a b : Half} {w : Bool} :
    c = wordOf o a b w ↔ fieldsOf c = ⟨o, a, b, 0, BitVec.ofBool w⟩ := by
  constructor
  · rintro rfl
    exact fieldsOf_wordOf o a b w
  · intro h
    have hc := wordOf_fieldsOf c (by rw [h])
    rw [h] at hc
    simpa using hc.symm

theorem fieldsOf_and (c d : CmdWord) :
    fieldsOf (c &&& d) = ⟨(fieldsOf c).opc &&& (fieldsOf d).opc, (fieldsOf c).a &&& (fieldsOf d).a,
      (fieldsOf c).b &&& (fieldsOf d).b, (fieldsOf c).z &&& (fieldsOf d).z, (fieldsOf c).w &&& (fieldsOf d).w⟩ := by
  simp [fieldsOf, BitVec.extractLsb'_and]

theorem and_highByte_eq_zero_iff (a : Half) : a &&& 0xFF00#16 = 0#16 ↔ a.extractLsb' 8 8 = 0#8 := by
  rw [show 0xFF00#16 = BitVec.allOnes 8 ++ 0#8 from rfl]
  constructor
  · intro h
    have hx := congrArg (BitVec.extractLsb' 8 8) h
    rwa [BitVec.extractLsb'_and, BitVec.extractLsb'_append_eq_left, BitVec.and_allOnes, BitVec.extractLsb'_zero] at hx
  · intro h
    rw [← append_low_of_high_zero a h, BitVec.and_append]
    simp

/-- A row selects the words of its opcode whose must-be-zero fields are zero. -/
theorem row_selects_iff (o : Opcode) (c : CmdWord) :
    o.row.selects c = true ↔ (fieldsOf c).opc = o.code ∧ mustBeZeroOk o.format (fieldsOf c) = true := by
  simp only [Row.selects, Opcode.row, beq_iff_eq, eq_wordOf_iff, fieldsOf_and]
  cases o.format with
  | n =>
    rw [show fieldsOf Format.n.mask = ⟨.allOnes 8, .allOnes 16, .allOnes 16, .allOnes 7, .allOnes 1⟩ by decide]
    simp [mustBeZeroOk_n, -BitVec.reduceAllOnes]
  | p =>
    rw [show fieldsOf Format.p.mask = ⟨.allOnes 8, 0, 0, .allOnes 7, 0⟩ by decide]
    simp [mustBeZeroOk_p, -BitVec.reduceAllOnes]
  | a16 =>
    rw [show fieldsOf Format.a16.mask = ⟨.allOnes 8, 0, .allOnes 16, .allOnes 7, .allOnes 1⟩ by decide]
    simp [mustBeZeroOk_a16, -BitVec.reduceAllOnes]
  | a8 =>
    rw [show fieldsOf Format.a8.mask = ⟨.allOnes 8, 0xFF00, .allOnes 16, .allOnes 7, .allOnes 1⟩ by decide]
    simp [mustBeZeroOk_a8, and_highByte_eq_zero_iff, -BitVec.reduceAllOnes]

theorem selects_unique {o p : Opcode} {c : CmdWord} (ho : o.row.selects c = true) (hp : p.row.selects c = true) : o = p :=
  Machine.code_eq_iff.mp (((row_selects_iff o c).mp ho).1.symm.trans ((row_selects_iff p c).mp hp).1)

theorem row_selects_encode (i : Instr) : i.opcode.row.selects (encode i) = true := by
  obtain ⟨hf, hz, -⟩ := Laws.EncodeFields.all i
  exact (row_selects_iff _ _).mpr ⟨by rw [hf], hz⟩

/-! ### The decoder by rows -/

/-- Of a selected word only the operand values can be wrong (R104 steps 4 and 5). -/
theorem decode_of_selects (m : Half) {o : Opcode} {c : CmdWord} (h : o.row.selects c = true) :
    decode m c = if (buildInstr o (fieldsOf c)).wf m then .ok (buildInstr o (fieldsOf c)) else .error .operandValue := by
  obtain ⟨hopc, hz⟩ := (row_selects_iff o c).mp h
  simp [decode, hopc, hz]

theorem rejected_or_selected (m : Half) (c : CmdWord) :
    decode m c = .error .undefinedOpcode ∨ decode m c = .error .nonZeroField ∨ ∃ o : Opcode, o.row.selects c = true := by
  obtain ⟨he, -⟩ | ⟨-, -, -, he⟩ | ⟨o, ho, hz, -⟩ := decode_cases m c
  · exact .inl he
  · exact .inr (.inl he)
  · exact .inr (.inr ⟨o, (row_selects_iff o c).mpr ⟨(code_of_ofCode _ o ho).symm, hz⟩⟩)

/-- A decoded word is selected by a row, and its command is the one the row reads from its fields. -/
theorem selected_of_decode {m : Half} {c : CmdWord} {i : Instr} (h : decode m c = .ok i) :
    ∃ o : Opcode, o.row.selects c = true ∧ buildInstr o (fieldsOf c) = i := by
  obtain he | he | ⟨o, ho⟩ := rejected_or_selected m c
  · simp [he] at h
  · simp [he] at h
  · refine ⟨o, ho, ?_⟩
    rw [decode_of_selects m ho] at h
    split at h
    · exact Except.ok.inj h
    · cases h

/-- Decoding the word of any command: R93 and R94 decide. -/
theorem decode_encode_eq (m : Half) (i : Instr) :
    decode m (encode i) = if i.wf m then .ok i else .error .operandValue := by
  obtain ⟨-, -, hb⟩ := Laws.EncodeFields.all i
  rw [decode_of_selects m (row_selects_encode i), hb]

/-- Where the must-be-zero fields are zero, the row's command carries the whole of A, B and W. -/
theorem buildInstr_fields (o : Opcode) {x : Fields} (h : mustBeZeroOk o.format x = true) :
    (buildInstr o x).fieldA = x.a ∧ (buildInstr o x).fieldB = x.b ∧ (buildInstr o x).fieldW = (x.w == 1) := by
  cases o with
  | emit | emitus => exact ⟨rfl, rfl, rfl⟩
  | init | orow =>
    obtain ⟨hb, -, hw⟩ := mustBeZeroOk_a16.mp h
    exact ⟨rfl, hb.symm, by rw [hw]; rfl⟩
  | pginit | push =>
    obtain ⟨ha, hb, -, hw⟩ := mustBeZeroOk_a8.mp h
    exact ⟨append_low_of_high_zero x.a ha, hb.symm, by rw [hw]; rfl⟩
  | pgbusy | pon | poff | poffa | sfrm | skip | efrm | swbuf | curbuf =>
    obtain ⟨ha, hb, -, hw⟩ := mustBeZeroOk_n.mp h
    exact ⟨ha.symm, hb.symm, by rw [hw]; rfl⟩

/-- No bit of a selected word is lost in the row's command. -/
theorem encode_buildInstr {o : Opcode} {c : CmdWord} (h : o.row.selects c = true) :
    encode (buildInstr o (fieldsOf c)) = c := by
  obtain ⟨hopc, hz⟩ := (row_selects_iff o c).mp h
  obtain ⟨ha, hb, hw⟩ := buildInstr_fields o hz
  rw [encode, buildInstr_opcode, ← hopc, ha, hb, hw]
  exact wordOf_fieldsOf c (z_eq_zero hz)

theorem encode_of_decode {m : Half} {c : CmdWord} {i : Instr} (h : decode m c = .ok i) : encode i = c := by
  obtain ⟨o, ho, rfl⟩ := selected_of_decode h
  exact encode_buildInstr ho

/-! ### The round trip and the rows -/

/-- Settles O1: the fields of a command's word give the command back, and the operand checks pass. -/
theorem decodeOfEncodeIsTheCommand : Obligations.DecodeOfEncodeIsTheCommand := by
  unfold Obligations.DecodeOfEncodeIsTheCommand
  intro m i h
  exact Machine.decode_encode h

/-- Settles O2: the row's command carries every field of the word that is not zero by the format. -/
theorem decodedWordIsItsEncoding : Obligations.DecodedWordIsItsEncoding := by
  unfold Obligations.DecodedWordIsItsEncoding
  intro m c i h
  exact ⟨encode_of_decode h, Machine.wf_of_decode h⟩

/-- Settles O3: the rows are those of the opcodes, and each selects the words the decoder reads by it. -/
theorem rowsSelectTheDecodedCommand : Obligations.RowsSelectTheDecodedCommand := by
  unfold Obligations.RowsSelectTheDecodedCommand
  intro m c
  refine ⟨fun r hr q hq hrc hqc => ?_, fun r hr hrc => ?_, fun hnone => ?_, fun i hi => ?_⟩
  · rw [mem_rows_iff] at hr hq
    rw [hr] at hrc
    rw [hq] at hqc
    rw [hr, hq, selects_unique hrc hqc]
  · rw [mem_rows_iff.mp hr] at hrc
    rw [decode_of_selects m hrc]
    split
    · exact .inl ⟨_, rfl, buildInstr_opcode _ _⟩
    · exact .inr rfl
  · obtain he | he | ⟨o, ho⟩ := rejected_or_selected m c
    · exact .inl he
    · exact .inr he
    · simp [hnone _ (row_mem_rows o)] at ho
  · obtain ⟨o, ho, rfl⟩ := selected_of_decode hi
    exact ⟨o.row, row_mem_rows o, (buildInstr_opcode o _).symm, ho⟩

/-! ### The operand values of a pulse -/

theorem legalPulse_iff (m : Half) (h l : Nat) :
    legalPulse m h l = true ↔ h ≤ m.toNat ∧ l ≤ m.toNat ∧ ¬ (h = 0 ∧ l = 0) := by
  simp only [legalPulse, Bool.and_eq_true, Bool.not_eq_true', Bool.and_eq_false_iff, beq_eq_false_iff_ne, decide_eq_true_eq]
  omega

theorem emit_wf_iff (m a b : Half) (w : Bool) :
    (Instr.emit a b w).wf m = true ↔ a.toNat ≤ m.toNat ∧ b.toNat ≤ m.toNat ∧ ¬ (a = 0 ∧ b = 0) := by
  simp [Instr.wf, legalPulse_iff, BitVec.toNat_eq]

theorem emitus_wf_iff (m a b : Half) (w : Bool) :
    (Instr.emitus a b w).wf m = true ↔ 10 * a.toNat ≤ m.toNat ∧ 10 * b.toNat ≤ m.toNat ∧ ¬ (a = 0 ∧ b = 0) := by
  simp [Instr.wf, legalPulse_iff, BitVec.toNat_eq]

/-- Settles O4: the word is that of EMIT, and R93 is what its operand check asks. -/
theorem emitWordLegality : Obligations.EmitWordLegality := by
  unfold Obligations.EmitWordLegality
  intro m a b w
  simp only [← emit_wf_iff m a b w]
  exact decode_encode_eq m (.emit a b w)

/-- Settles O5: the word is that of EMITUS, and R94 is what its operand check asks. -/
theorem emitusWordLegality : Obligations.EmitusWordLegality := by
  unfold Obligations.EmitusWordLegality
  intro m a b w
  simp only [← emitus_wf_iff m a b w]
  exact decode_encode_eq m (.emitus a b w)

/-! ### Reserved opcodes -/

/-- The four reserved ranges of R101. -/
theorem ofCode_reserved {c : Byte}
    (h : c.toNat ≤ 0x0F ∨ (0x14 ≤ c.toNat ∧ c.toNat ≤ 0x1F) ∨ (0x21 ≤ c.toNat ∧ c.toNat ≤ 0x2F) ∨ 0x3A ≤ c.toNat) :
    Opcode.ofCode c = none := by
  revert c
  decide

theorem decode_reserved (m : Half) {c : CmdWord} (h : Opcode.ofCode (c.extractLsb' 40 8) = none) :
    decode m c = .error .undefinedOpcode := by
  simp [decode, fieldsOf, h]

end Sys2Proof
end

section
/-! What the machine makes of an operand and of an illegal word: the width of INIT (30_encoding.md R95) and the report of
a word that does not decode (R101). -/

namespace Sys2Proof.Machine

theorem paddedWidth_toNat (a : Half) : (paddedWidth a).toNat = a.toNat + 32 := by
  unfold paddedWidth
  bv_omega

/-- INIT asks the bus engine for one width. -/
theorem busInitReq_mem_initProgram (pin : Byte) (a : Half) (w : BitVec 17) :
    Action.busInitReq w ∈ (initProgram pin a).flatten ↔ w = paddedWidth a := by
  simp [initProgram, busInitLine, pgInitLine, pushLine]

/-- Settles O7: the one width INIT requests is `paddedWidth`, and 65535 + 32 fits 17 bits. -/
theorem paddedWidthNeverWraps : Obligations.PaddedWidthNeverWraps := by
  unfold Obligations.PaddedWidthNeverWraps
  intro pin a w
  rw [busInitReq_mem_initProgram, ← paddedWidth_toNat, BitVec.toNat_inj]

theorem step_illegal {s : State} {c : CmdWord} {e : Reject} (hr : s.env.rst.head = false) (hop : s.seq.seqOp = 0)
    (hturn : s.env.turn = some c) (hd : decode s.params.maxTicks c = .error e) :
    step s = .next (illegalWord (passAccept s.takeRst.dropCmd)) := by
  simp [step, hr, hop, hturn, acceptWord, hd]

/-- Settles O9: the accepting turn leaves SEQ and its events alone, then `illegalWord` reports; the rest is the opcode. -/
theorem illegalWordIsOnlyReported : Obligations.IllegalWordIsOnlyReported := by
  unfold Obligations.IllegalWordIsOnlyReported
  refine ⟨fun s c e hr hop hturn hd => ?_, fun m c h => decode_reserved m (ofCode_reserved h), fun m => ?_⟩
  · rw [← passAccept_turn]
    exact ⟨by simp, (passAccept_still s.takeRst.dropCmd).seqEvents, step_illegal hr hop hturn hd⟩
  · exact ⟨decode_reserved m (by decide), decode_reserved m (by decide)⟩

end Sys2Proof.Machine
end

section
/-! Every started pulse is played once (40_pulse_generator.md R126 to R130, 20_memory.md R78). Time does not change PGE's
events together with those of the pulse in flight, in any condition of the engine; of SEQ's actions only the start of a
pulse does, and it finds no pulse in flight. -/

namespace Sys2Proof.Machine

/-- PGE's events for the pulses that SEQ's events `es` start. -/
def pulsesOf (es : List Event) : List Event :=
  (List.replicate (es.filter Event.isPulse).length [Event.ckv true, .ckv false, .notify]).flatten

theorem pulsesOf_append (es fs : List Event) : pulsesOf (es ++ fs) = pulsesOf es ++ pulsesOf fs := by
  simp only [pulsesOf, List.filter_append, List.length_append, List.replicate_add, List.flatten_append]

/-- From `s` to `t` PGE's events, with those still to come of the pulse in flight, have grown by the pulses SEQ has
started. -/
def Tallies (s t : State) : Prop :=
  ∃ es, t.seqEvents = s.seqEvents ++ es ∧ t.pgeTale = s.pgeTale ++ pulsesOf es

/-- Neither an event of SEQ nor one of PGE's. -/
theorem Tallies.of_eq {s t : State} (hseq : t.seqEvents = s.seqEvents) (htale : t.pgeTale = s.pgeTale) : Tallies s t :=
  ⟨[], by rw [hseq, List.append_nil], by rw [htale]; exact (List.append_nil _).symm⟩

theorem Tallies.refl (s : State) : Tallies s s := .of_eq rfl rfl

theorem Tallies.trans {s t u : State} (h : Tallies s t) (k : Tallies t u) : Tallies s u := by
  obtain ⟨es, hes, htale⟩ := h
  obtain ⟨fs, hfs, ktale⟩ := k
  exact ⟨es ++ fs, by rw [hfs, hes, List.append_assoc], by rw [ktale, htale, pulsesOf_append, List.append_assoc]⟩

/-! ### One action -/

/-- Time changes the tale in no condition of the engine. -/
theorem Still.pgeTale {c : Cond} {s t : State} (h : Still s t) (hc : c.metBy s) : t.pgeTale = s.pgeTale := by
  have played : s.pge.consistent = true → t.pgeTale = s.pgeTale := fun hcons => by
    rw [h.calm.tale hcons, List.append_nil]
  cases c with
  | cleared =>
    obtain ⟨hpge, hev⟩ := h.calm.idle hc.1 rfl
    rw [State.pgeTale, State.pgeTale, hpge, hev]
  | free | ready | quiet | unbound => exact played hc.1

theorem Still.tallies {c : Cond} {s t : State} (h : Still s t) (hc : c.metBy s) : Tallies s t :=
  .of_eq h.seqEvents (h.pgeTale hc)

theorem afterAction_tallies {c : Cond} {s : State} (hc : c.metBy s) : Tallies s (afterAction s) := by
  obtain ⟨t, ht, hs⟩ := afterAction_still s
  rw [ht]
  exact .of_eq hs.seqEvents (hs.pgeTale (c := c) hc)

/-- An event of SEQ leaves PGE's tale alone. -/
theorem pgeTale_emit (e : Event) (s : State) (h : e.byPge = false) : (emitEvent e s).pgeTale = s.pgeTale := by
  rw [State.pgeTale, State.pgeTale, pgeEvents_emit e s h, emitEvent_pge]

theorem pgAllocDone_pgeTale (ok : Bool) (s : State) : (pgAllocDone ok s).pgeTale = s.pgeTale := by
  cases ok
  · rfl
  · exact pgeTale_emit (.dir .ckv) _ rfl

/-- Only the start of a pulse adds to the tale. -/
theorem doAction_go_pgeTale {x : Action} {s t : State} (hx : x ≠ .start) (h : x.needs.metBy s)
    (hd : doAction x s = .go t) : t.pgeTale = s.pgeTale := by
  cases x
  case start => exact absurd rfl hx
  case waitIdle => exact ((waitIdleTurns_waits _ s).go t hd).1.pgeTale h
  case awaitDone => exact ((awaitDone_waits s).go t hd).1.pgeTale h
  case busInitAns =>
    obtain ⟨ok, u, rfl, hu⟩ := (busInitAns_answers s).go t hd
    rw [← hu.pgeTale h]
    cases ok <;> rfl
  case pgAllocAns =>
    obtain ⟨ok, u, rfl, hu⟩ := (pgAllocAns_answers s).go t hd
    rw [pgAllocDone_pgeTale, hu.pgeTale h]
  case delayWait =>
    obtain ⟨u, hu, hs⟩ | ⟨u, hu, -⟩ := delayWait_flow s <;> rw [hu] at hd <;> cases hd
    exact hs.pgeTale h
  case emitGuard | pgInitGuard => simp only [doAction] at hd; split at hd <;> cases hd; rfl
  case done o r => cases hd
  case dirOut | pinOut | dataBit | delayLoad | busInitReq | pgAllocReq | busStart | busSwitch =>
    cases hd; exact (pgeTale_emit _ _ rfl).trans rfl
  case pick | latchVariant | cfgPut | cfgSet | cfgClear | program | clearDone | pgSetPin | psmPut => cases hd; rfl

/-- An action that is not the start of a pulse has no PULSE event. -/
theorem eventsAfter_pulseless {x : Action} (hx : x ≠ .start) (b : Bool) (r : SeqRegs) :
    (x.eventsAfter b r).filter Event.isPulse = [] := by
  cases x
  case start => exact absurd rfl hx
  case pgAllocAns => cases b <;> rfl
  all_goals rfl

/-- CKV(1) is played at the start step, and the rest of the pulse is still to come. -/
theorem startPulse_pgeTale (s : State) :
    (startPulse s).pgeTale = s.pgeEvents ++ [.ckv true, .ckv false, .notify] := by
  simp [State.pgeTale, startPulse, PgPh.ahead, State.pgeEvents, State.events, Event.byPge]

theorem pgeTale_idle {s : State} (h : s.pge.pgPh = .idle) : s.pgeTale = s.pgeEvents := by
  simp [State.pgeTale, h, PgPh.ahead]

/-- A pulse starts where none is in flight. -/
theorem start_tallies {s : State} (h : Cond.cleared.metBy s) :
    Tallies s (startPulse (emitEvent (.pulse s.seq.pgD0 s.seq.pgD1 s.seq.pgP1p) s)) := by
  obtain ⟨b, -, hev⟩ := start_acts s
  refine ⟨_, hev, ?_⟩
  rw [startPulse_pgeTale, pgeEvents_emit _ _ rfl, pgeTale_idle h.1]
  rfl

theorem doAction_go_tallies {x : Action} {s t : State} (h : x.needs.metBy s) (hd : doAction x s = .go t) :
    Tallies s t := by
  by_cases hx : x = .start
  · subst hx
    cases hd
    exact start_tallies h
  · obtain ⟨b, -, hev⟩ := doAction_go_acts hd
    refine ⟨_, hev, ?_⟩
    rw [doAction_go_pgeTale hx h hd, pulsesOf, eventsAfter_pulseless hx]
    exact (List.append_nil _).symm

theorem doAction_skip_tallies {x : Action} {s t : State} (hd : doAction x s = .skip t) : Tallies s t := by
  obtain ⟨-, -, rfl⟩ | ⟨-, -, rfl⟩ | ⟨-, -, rfl⟩ := doAction_skip x s t hd <;> exact .of_eq rfl rfl

/-- A response is an event of SEQ and no pulse. -/
theorem finish_tallies (o : Opcode) (r : Response) {s : State} (h : Cond.free.metBy s) : Tallies s (finish o r s) :=
  ⟨_, finish_seqEvents o r s, (finish_calm o r s).tale h.1⟩

theorem doAction_stop_tallies {x : Action} {s t : State} (h : x.needs.metBy s) (hd : doAction x s = .stop t) :
    Tallies s t := by
  obtain hs | ⟨o, r, rfl, rfl⟩ := doAction_stop x s t hd
  · exact hs.tallies h
  · exact finish_tallies o r h

/-! ### A run and a step -/

/-- Whatever the budget, a run that begins in a fitting condition plays the pulses it starts. -/
theorem run_tallies {i : Instr} {l : Line} {ls : Program} {s : State} (ha : At i (l :: ls) s) (he : Ends (l :: ls))
    (hne : l ≠ [] ∨ ls ≠ []) {c : Cond} (hc : c.metBy s) (hf : c.fits l = true) :
    Tallies s (runProgram (l :: ls) s) :=
  run_induct i (fun p u => Running s p u ∧ Tallies s u) (Tallies s)
    (go := fun _ _ _ _ _ _ _ ⟨hrun, htal⟩ hd _ =>
      ⟨hrun.go hd, (htal.trans (doAction_go_tallies hrun.needs hd)).trans
        (afterAction_tallies (doAction_go_leaves hrun.needs hd))⟩)
    (skip := fun _ _ _ _ _ _ _ ⟨hrun, htal⟩ hd =>
      ⟨hrun.skip hd, (htal.trans (doAction_skip_tallies hd)).trans
        (afterAction_tallies (doAction_skip_free hrun.needs hd))⟩)
    (next := fun _ _ _ hw ⟨hrun, htal⟩ _ => ⟨hrun.next hw, htal.trans (.of_eq rfl rfl)⟩)
    (stop := fun _ _ _ _ _ _ _ ⟨hrun, htal⟩ hd => htal.trans (doAction_stop_tallies hrun.needs hd))
    (pause := fun _ _ _ _ _ _ ⟨_, htal⟩ _ => htal)
    ls l s ha he hne ⟨⟨⟨c, hc, hf⟩, .of_eq rfl rfl⟩, .refl s⟩

/-- The accepting turn lets the pulse in flight play on. -/
theorem passAccept_tallies {s : State} (h : Cond.free.metBy s) : Tallies s (passAccept s.takeRst.dropCmd) :=
  .of_eq (passAccept_still s.takeRst.dropCmd).seqEvents ((passAccept_still s.takeRst.dropCmd).pgeTale (c := .free) h)

theorem illegalWord_tallies (s : State) : Tallies s (illegalWord s) :=
  ⟨[.rsp 2 0], seqEvents_emit _ _ rfl, (pgeTale_emit _ _ rfl).trans (List.append_nil _).symm⟩

theorem ignoreSecondInit_tallies (i : Instr) {s : State} (h : Cond.free.metBy s) : Tallies s (ignoreSecondInit i s) :=
  ⟨_, ignoreSecondInit_seqEvents i s, (respond_calm .init (flagMisuse s)).tale h.1⟩

theorem accept_tallies (i : Instr) (s : State) : Tallies s (accept i (openStep s)) :=
  .of_eq (by simp [State.seqEvents, State.events]) (by simp [State.pgeTale, State.pgeEvents, State.events])

theorem step_tallies {s t : State} (h : s.engineOk = true) (hr : s.env.rst.head = false) (hs : step s = .next t) :
    Tallies s t := by
  cases stepped hr hs with
  | idle hop _ => exact (elapse_still 1 s.takeRst.dropCmd).tallies (c := .free) ((engineOk_idle hop).mp h)
  | illegal c e hop _ _ => exact (passAccept_tallies ((engineOk_idle hop).mp h)).trans (illegalWord_tallies _)
  | second c n hop _ _ _ =>
    have hfree := (engineOk_idle hop).mp h
    exact (passAccept_tallies hfree).trans (ignoreSecondInit_tallies (.init n) (passAccept_free hfree))
  | command c i l ls hop _ _ _ hp ha he hne =>
    have hfree := (engineOk_idle hop).mp h
    refine ((passAccept_tallies hfree).trans (accept_tallies i _)).trans
      (run_tallies ha he hne (c := .free) ?_ (fits_of_mem (s := s) (by rw [hp]; exact List.mem_cons_self)))
    simpa [Cond.metBy, accept_seq] using passAccept_free hfree
  | busy i x xs ls _ hrem ha he =>
    exact run_tallies (s := openStep s.takeRst) ha he (.inl (List.cons_ne_nil x xs))
      ((engineOk_of_remaining hrem).mp h) ha.fits

/-- Settles O18: each action but the start of a pulse leaves the tale alone, and that one adds a whole pulse to it. -/
theorem everyPulseIsPlayedOnce : Obligations.EveryPulseIsPlayedOnce := by
  unfold Obligations.EveryPulseIsPlayedOnce
  exact fun s t => step_tallies

end Sys2Proof.Machine
end

section
/-! The four commands of the pulse generator in one step (40_pulse_generator.md R121, R123 to R125). None of them moves PSM,
so after `done` SEQ's registers are those its one sub-sequence leaves. -/

namespace Sys2Proof.Machine

/-- A command outside the panel protocol leaves PSM as it was (42_panel_protocol.md R161). -/
theorem psmAfter_psmDuring {o : Opcode} (h : isPanel o = false) (p : Psm) : psmAfter o (psmDuring o p) = p := by
  cases o
  case pginit | emit | emitus | pgbusy | push => cases p <;> rfl
  all_goals cases h

/-- In a whole-command step no budget is set. -/
theorem accept_unlimited (i : Instr) {s : State} (hg : s.grain = none) : (accept i (openStep s)).budget = none := by
  simp [hg]

/-- A command outside the panel protocol with one micro-step before `done`, whose view `v` is known. -/
theorem command_of_line (i : Instr) (r : Response) {l : Line} {p : List Event} {s u : State} {v : View}
    (hi : isPanel i.opcode = false) (hg : s.grain = none) (hrun : runLine l (accept i (openStep s)) = .go u)
    (hview : u.view = v) (hgoes : Goes p (accept i (openStep s)) u)
    (hpsm : v.regs.psm = psmDuring i.opcode s.seq.psm) :
    ∃ t, startCommand i [l, [.done i.opcode r]] s = .next t ∧ t.seq = idleAfter s.seq.psm v.regs ∧
      t.seqEvents = v.events ++ [.rsp (responseOf r u).1 (responseOf r u).2] ∧ Completed p s t ∧ Calm u t := by
  obtain ⟨t, ht, hseq, hev, hcomp, hcalm⟩ :=
    command_done i i.opcode r [l] p s (nextStep u) v hg (Stage.line hrun hview hgoes)
  exact ⟨t, ht, by rw [hseq, hpsm, psmAfter_psmDuring hi], hev, hcomp, (nextStep_calm u).trans hcalm⟩

/-! ### PGINIT -/

/-- The first PGINIT: the allocator's answer makes the generator ready or failed. -/
theorem pginit_first (pin : Byte) (ok : Bool) {s : State} (hg : s.grain = none) (hc : s.pge.consistent = true)
    (hi : s.pge.pgPh = .idle) (hst : s.seq.pgSt = .uninit)
    (ha : answerOf s.env.pgAllocOk.rest s.env.pgAllocOk.next = some ok) :
    ∃ t, exec (.pginit pin) s = .next t ∧
      t.seq = idleAfter s.seq.psm { acceptedRegs (.pginit pin) s.seq with
        pgPin := pin, pgSt := if ok then .ready else .failed, dirCkv := s.seq.dirCkv || ok } ∧
      t.seqEvents = s.seqEvents ++ [.pgAlloc pin] ++ (if ok then [.dir .ckv, .rsp 0 0] else [.rsp 1 2]) ∧
      t.pge = s.pge ∧ Completed [] s t := by
  obtain ⟨u, f, hrun, hview, hcalm⟩ := run_pgInit_first pin ok (accept (.pginit pin) (openStep s))
    (accept_unlimited _ hg) (by simpa [accept_seq] using hst) (by simpa using hi) (by simpa using hc) (by simpa using ha)
  rw [accept_view] at hview
  obtain ⟨t, ht, hseq, hev, hcomp, -⟩ := command_of_line (.pginit pin) .pgInit rfl hg hrun hview hcalm rfl
  have hpg : u.seq.pgSt = if ok then .ready else .failed := pgSt_of_view hview
  refine ⟨t, ht, hseq, ?_, hcomp.idle hi rfl, hcomp⟩
  rw [hev, List.append_assoc, responseOf, hpg]
  cases ok <;> rfl

/-- A later PGINIT asks nothing and answers what is recorded. -/
theorem pginit_again (pin : Byte) {s : State} (hg : s.grain = none) (hst : s.seq.pgSt ≠ .uninit) :
    ∃ t, exec (.pginit pin) s = .next t ∧
      t.seq = idleAfter s.seq.psm { acceptedRegs (.pginit pin) s.seq with misuse := true } ∧
      t.seqEvents = s.seqEvents ++ [if s.seq.pgSt = .failed then .rsp 1 2 else .rsp 0 0] ∧ Completed [] s t := by
  obtain ⟨u, hrun, hview, hcalm⟩ := run_pgInit_again pin (accept (.pginit pin) (openStep s))
    (accept_unlimited _ hg) (by simpa [accept_seq] using hst)
  rw [accept_view] at hview
  obtain ⟨t, ht, hseq, hev, hcomp, -⟩ := command_of_line (.pginit pin) .pgInit rfl hg hrun hview hcalm rfl
  have hpg : u.seq.pgSt = s.seq.pgSt := pgSt_of_view hview
  refine ⟨t, ht, hseq, ?_, hcomp⟩
  rw [hev, responseOf, hpg]
  by_cases hf : s.seq.pgSt = .failed
  · rw [if_pos hf, if_pos hf]; rfl
  · rw [if_neg hf, if_neg hf]; rfl

/-- Settles O23: the first call asks the allocator and records its answer, a later one only flags MISUSE. -/
theorem pginitBindsTheGeneratorOnce : Obligations.PginitBindsTheGeneratorOnce := by
  unfold Obligations.PginitBindsTheGeneratorOnce
  exact ⟨fun pin s ok => pginit_first pin ok, fun pin s => pginit_again pin⟩

/-! ### EMIT and EMITUS -/

/-- The end of a command whose only sub-sequence is `Emit(h, l, w)`: SEQ's registers and events, the pulse started, and the
engine with no pulse in flight where it has been waited for. -/
def EmitsPulse (i : Instr) (h l : Half) (w : Bool) (s t : State) : Prop :=
  t.seq = idleAfter s.seq.psm (afterEmit h l (acceptedRegs i s.seq)) ∧
  t.seqEvents = s.seqEvents ++ pulseEvents s.seq.pgSt h l ++ [.rsp 0 0] ∧
  Completed (pulseTale s.seq.pgSt) s t ∧
  (w = true → s.seq.pgSt = .ready → t.pge.pgDone = true ∧ t.pge.pgPh = .idle ∧ t.pge.ckv = false)

/-- `Emit` does not look at PSM or at SEQ's position. -/
theorem idleAfter_afterEmit (h l : Half) (p q : Psm) (o : Byte) (r : SeqRegs) :
    idleAfter p (afterEmit h l { r with psm := q, seqOp := o, seqStep := 0, seqSub := 0 }) =
      idleAfter p (afterEmit h l r) := by
  simp [idleAfter, afterEmit_eq]

/-- With no pulse in flight CKV is low (10_state.md R33). -/
theorem quiet_ckv {p : PgeRegs} (hc : p.consistent = true) (hq : p.quiet) : p.ckv = false := by
  rw [consistent_ckv hc, hq.1]
  rfl

/-- `Emit` as a command, on a generator in any state (40_pulse_generator.md R122). -/
theorem emit_command (i : Instr) (hi : isPanel i.opcode = false) (h l : Half) (w : Bool) {s : State}
    (hg : s.grain = none) (hc : s.pge.consistent = true)
    (hn : s.env.notifies = true ∨ (s.pge.pgDone = true ∧ w = false)) :
    ∃ t, startCommand i [emitLine h l w, [.done i.opcode .plain]] s = .next t ∧ EmitsPulse i h l w s t := by
  obtain ⟨u, hrun, hview, hgoes, hquiet⟩ := run_emit h l w (accept i (openStep s)) (accept_unlimited i hg)
    (by simpa using hc) (by simpa using hn)
  have hst : (accept i (openStep s)).seq.pgSt = s.seq.pgSt := by simp [accept_seq]
  rw [accept_view, hst] at hview
  rw [hst] at hgoes hquiet
  obtain ⟨t, ht, hseq, hev, hcomp, hcalm⟩ := command_of_line i .plain hi hg hrun hview hgoes (afterEmit_psm h l _)
  refine ⟨t, ht, by rw [hseq, idleAfter_afterEmit], hev, hcomp, fun hw hr => ?_⟩
  have hq : t.pge.quiet := by
    rw [(hcalm.idle (hquiet hw hr).1 rfl).1]
    exact hquiet hw hr
  exact ⟨hq.2, hq.1, quiet_ckv (hcomp.consistent hc) hq⟩

/-- Settles O24: EMIT is `Emit` and its response. -/
theorem emitStartsOnePulse : Obligations.EmitStartsOnePulse := by
  unfold Obligations.EmitStartsOnePulse
  intro h l w s _ hg hc hn
  exact emit_command (.emit h l w) rfl h l w hg hc hn

/-- A product that fits 16 bits is exact (30_encoding.md R94). -/
theorem usToTicks_of_toNat {a h : Half} (ha : h.toNat = 10 * a.toNat) : usToTicks a = h := by
  rw [usToTicks, ← ha, BitVec.ofNat_toNat, BitVec.setWidth_eq]

/-- Settles O25: EMITUS is `Emit` of the exact products and its response. -/
theorem emitusStartsThePulseInMicroseconds : Obligations.EmitusStartsThePulseInMicroseconds := by
  unfold Obligations.EmitusStartsThePulseInMicroseconds
  intro a b h l w s _ ha hb hg hc hn
  have hexec : exec (.emitus a b w) s = startCommand (.emitus a b w) [emitLine h l w, [.done .emitus .plain]] s := by
    rw [← usToTicks_of_toNat ha, ← usToTicks_of_toNat hb]
    rfl
  rw [hexec]
  exact emit_command (.emitus a b w) rfl h l w hg hc hn

/-! ### PGBUSY -/

/-- A step of the model covers at least one action. -/
theorem hasBudget_openStep (s : State) : hasBudget (openStep s) = true := by
  cases hg : s.grain <;> simp [hasBudget, hg]

theorem hasBudget_accept (i : Instr) (s : State) : hasBudget (accept i (openStep s)) = true := by
  rw [hasBudget, accept_budget]
  exact hasBudget_openStep s

/-- At every grain PGBUSY is its response. -/
theorem exec_pgbusy (s : State) :
    exec .pgbusy s = .next (closeStep (finish .pgbusy .busy (accept .pgbusy (openStep s)))) := by
  simp [exec, execPgbusy, startCommand, pgbusyProgram, runProgram, runLine, hasBudget_accept, doAction]

/-- PGBUSY answered, its T_STEP still to pass. -/
def pgbusyAnswered (s : State) : State :=
  emitEvent (.rsp 0 (if s.pge.pgDone then 0 else 1))
    { s with
      seq := idleAfter s.seq.psm (acceptedRegs .pgbusy s.seq)
      env := { s.env with tStep := s.env.tStep.pop }, budget := s.grain.map (max 1) }

theorem finish_pgbusy (s : State) :
    finish .pgbusy .busy (accept .pgbusy (openStep s)) = elapse s.env.tStep.head (pgbusyAnswered s) := by
  have hpsm : psmAfter .pgbusy (psmDuring .pgbusy s.seq.psm) = s.seq.psm := psmAfter_psmDuring rfl _
  rw [pgbusyAnswered, acceptedRegs, legalStates_contains, show legalSet Instr.pgbusy.opcode s.seq.psm = true from rfl,
    Bool.not_true, Bool.or_false]
  conv => rhs; rw [← hpsm]
  rfl

/-- From its answer on, PGBUSY lets the engine play as it does without PGBUSY. -/
theorem pgbusyAnswered_abreast (s : State) : Abreast s (pgbusyAnswered s) s (pgbusyAnswered s) :=
  Abreast.of_eq rfl rfl rfl rfl rfl rfl

theorem pgbusy_completed {s : State} (hg : s.grain = none) :
    Completed [] s (closeStep (elapse s.env.tStep.head (pgbusyAnswered s))) := by
  obtain ⟨t, ht, -, -, hcomp, -⟩ :=
    command_done .pgbusy .pgbusy .busy [] [] s (accept .pgbusy (openStep s)) _ hg (Stage.nil _)
  have he := exec_pgbusy s
  rw [finish_pgbusy] at he
  cases ht.symm.trans he
  exact hcomp

/-- Settles O26: PGBUSY is its response, and in its T_STEP the engine plays as it does without PGBUSY. -/
theorem pgbusyAnswersTheFlagInverted : Obligations.PgbusyAnswersTheFlagInverted := by
  unfold Obligations.PgbusyAnswersTheFlagInverted
  intro s hg
  have hplay := (pgbusyAnswered_abreast s).elapse s.env.tStep.head
  have hdrift := elapse_drift s.env.tStep.head (pgbusyAnswered s)
  refine ⟨closeStep (elapse s.env.tStep.head (pgbusyAnswered s)), by rw [exec_pgbusy, finish_pgbusy], hdrift.seq, ?_,
    elapse_now _ _, hplay.pge, ?_, hplay.dly, ?_, pgbusy_completed hg⟩
  · refine hdrift.seqEvents.trans ((seqEvents_emit _ _ rfl).trans ?_)
    cases s.pge.pgDone <;> rfl
  · exact hplay.pgeEvents (pgeEvents_emit _ _ rfl)
  · exact hdrift.env

end Sys2Proof.Machine
end

section
/-! The waveform of one pulse, tick by tick (40_pulse_generator.md R126 to R129, R132). Told backwards: what `n` ticks show of
a pulse whose notification is `d` ticks away, once CKV has fallen, and of one whose CKV is still high. -/

namespace Sys2Proof.Machine

/-- The event of the tick `d` after the tick `t`, when `n` ticks have passed since `t`. -/
def shownBy (n t d : Nat) (e : Event) : List Stamped := if d ≤ n then [⟨t + d, e⟩] else []

theorem shownBy_now (n t : Nat) (e : Event) : shownBy n t 0 e = [⟨t, e⟩] := rfl

theorem shownBy_later (t d : Nat) (e : Event) : shownBy 0 t (d + 1) e = [] := rfl

theorem shownBy_succ (n t d : Nat) (e : Event) : shownBy (n + 1) t (d + 1) e = shownBy n (t + 1) d e := by
  simp only [shownBy, Nat.add_le_add_iff_right, Nat.add_assoc, Nat.add_comm 1]

/-! ### After CKV has fallen -/

/-- From `s` on CKV is low, and the completion flag and NOTIFY come in the tick `d` and not before; `tr` is the trace
before NOTIFY. -/
def NotifiesIn (d : Nat) (tr : List Stamped) (s : State) : Prop :=
  ∀ n, (elapse n s).pge.ckv = false ∧ (elapse n s).pge.pgDone = decide (d ≤ n) ∧
    (elapse n s).trace = tr ++ shownBy n s.now d .notify

/-- A waveform that is over and not yet notified: CKV is low and the flag 0. -/
def PgeRegs.pending (p : PgeRegs) : Prop := p.ckv = false ∧ p.pgDone = false

/-- The notify step has just been taken. -/
theorem notifiesIn_notifyStep {s : State} (hck : s.pge.ckv = false) : NotifiesIn 0 s.trace (notifyStep s) := by
  intro n
  obtain ⟨hpge, htrace, -⟩ := (elapse_drift n (notifyStep s)).idle rfl
  rw [hpge, htrace]
  exact ⟨hck, by simp, rfl⟩

/-- One tick more. -/
theorem NotifiesIn.of_tick {d : Nat} {s : State} (hp : s.pge.pending) (h : NotifiesIn d s.trace (tick s)) :
    NotifiesIn (d + 1) s.trace s := by
  intro n
  cases n with
  | zero => exact ⟨hp.1, hp.2, (List.append_nil _).symm⟩
  | succ n =>
    obtain ⟨hck, hdone, htrace⟩ := h n
    rw [elapse_succ]
    exact ⟨hck, by simpa using hdone, by rw [htrace, tick_now, shownBy_succ]⟩

/-- In PG_NOTIFY the notify step comes when its latency is over (R129). -/
theorem notifyIfDue_notifiesIn (k : Nat) : ∀ s : State, s.pge.pgPh = .notify → s.env.tNotify.head = some k →
    s.pge.pending → NotifiesIn k s.trace (notifyIfDue s) := by
  induction k with
  | zero =>
    intro s _ hk hp
    rw [notifyIfDue, hk]
    exact notifiesIn_notifyStep hp.1
  | succ k ih =>
    intro s hph hk hp
    rw [notifyIfDue_succ s k hk]
    refine .of_tick hp ?_
    simp only [tick, pgeTick, hph, hk]
    exact ih _ hph rfl hp

theorem enterNotify_notifiesIn (k : Nat) {s : State} (hk : s.env.tNotify.head = some k) (hp : s.pge.pending) :
    NotifiesIn k s.trace (enterNotify s) :=
  notifyIfDue_notifiesIn k { s with pge := { s.pge with pgCnt := 0, pgPh := .notify } } rfl hk hp

/-- In phase 1 the count and the latency are still to pass (R128). -/
theorem ph1_notifiesIn (k c : Nat) : ∀ s : State, s.pge.pgPh = .ph1 → s.pge.pgCnt.toNat = c + 1 →
    s.env.tNotify.head = some k → s.pge.pending → NotifiesIn (c + 1 + k) s.trace s := by
  induction c with
  | zero =>
    intro s hph hc hk hp
    rw [show 0 + 1 + k = k + 1 by omega]
    refine .of_tick hp ?_
    simp only [tick, pgeTick, hph, hc, Nat.zero_add, Nat.le_refl, if_true]
    exact enterNotify_notifiesIn k hk hp
  | succ c ih =>
    intro s hph hc hk hp
    obtain ⟨hpge, henv, htrace⟩ := tick_counting s (.inr hph) (by omega)
    rw [show c + 1 + 1 + k = c + 1 + k + 1 by omega]
    refine .of_tick hp ?_
    rw [← htrace]
    refine ih (tick s) (by rw [hpge]; exact hph) ?_ (by rw [henv]; exact hk) (by rw [hpge]; exact hp)
    rw [hpge, sub_one_toNat _ (by omega)]
    omega

/-- How long after the end of phase 0 the notification comes: phase 1, if present, and T_NOTIFY (R127, R128). -/
def State.tailTicks (s : State) (k : Nat) : Nat := (if s.seq.pgP1p then s.seq.pgD1.toNat else 0) + k

theorem endPhase0_notifiesIn (k : Nat) {s : State} (hk : s.env.tNotify.head = some k) (hd : s.pge.pgDone = false) :
    NotifiesIn (s.tailTicks k) (s.trace ++ [⟨s.now, .ckv false⟩]) (endPhase0 s) := by
  by_cases h : s.seq.pgP1p = true ∧ s.seq.pgD1 ≠ 0
  · have h0 : s.seq.pgD1.toNat ≠ 0 := by simpa [BitVec.toNat_eq] using h.2
    rw [endPhase0, if_pos h, State.tailTicks, if_pos h.1, show s.seq.pgD1.toNat = s.seq.pgD1.toNat - 1 + 1 by omega]
    exact ph1_notifiesIn k _
      (emitEvent (.ckv false) { s with pge := { s.pge with ckv := false, pgPh := .ph1, pgCnt := s.seq.pgD1 } }) rfl
      (show s.seq.pgD1.toNat = _ by omega) hk ⟨rfl, hd⟩
  · have hz : s.tailTicks k = k := by
      rw [State.tailTicks]
      split
      · rename_i hp
        have : s.seq.pgD1 = 0 := by simpa [hp] using h
        simp [this]
      · exact Nat.zero_add k
    rw [endPhase0, if_neg h, hz]
    exact enterNotify_notifiesIn k (s := emitEvent (.ckv false) { s with pge := { s.pge with ckv := false } }) hk ⟨rfl, hd⟩

/-! ### While CKV is high -/

/-- From `s` on CKV is high for `c` ticks, and the notification comes `d` ticks after it has fallen. -/
def FallsIn (c d : Nat) (s : State) : Prop :=
  ∀ n, (elapse n s).pge.ckv = decide (n < c) ∧ (elapse n s).pge.pgDone = decide (c + d ≤ n) ∧
    (elapse n s).trace = s.trace ++ shownBy n s.now c (.ckv false) ++ shownBy n s.now (c + d) .notify

/-- CKV falls in the coming tick. -/
theorem fallsIn_one {d : Nat} {s : State} (hck : s.pge.ckv = true) (hd : s.pge.pgDone = false)
    (h : NotifiesIn d (s.trace ++ [⟨s.now + 1, .ckv false⟩]) (tick s)) : FallsIn 1 d s := by
  intro n
  rw [Nat.add_comm 1 d]
  cases n with
  | zero => exact ⟨hck, hd, by rw [shownBy_later, shownBy_later, List.append_nil, List.append_nil]; rfl⟩
  | succ n =>
    obtain ⟨hlow, hdone, htrace⟩ := h n
    rw [elapse_succ]
    exact ⟨by simpa using hlow, by simpa using hdone, by rw [htrace, tick_now, shownBy_succ, shownBy_succ, shownBy_now]⟩

/-- One tick more. -/
theorem FallsIn.of_tick {c d : Nat} {s : State} (hck : s.pge.ckv = true) (hd : s.pge.pgDone = false)
    (ht : (tick s).trace = s.trace) (h : FallsIn c d (tick s)) : FallsIn (c + 1) d s := by
  intro n
  rw [Nat.add_right_comm]
  cases n with
  | zero => exact ⟨hck.trans (by simp), hd, by rw [shownBy_later, shownBy_later, List.append_nil, List.append_nil]; rfl⟩
  | succ n =>
    obtain ⟨hhigh, hdone, htrace⟩ := h n
    rw [elapse_succ]
    exact ⟨by simpa using hhigh, by simpa using hdone, by rw [htrace, ht, tick_now, shownBy_succ, shownBy_succ]⟩

/-- Phase 0 with `c + 1` ticks left (R126, R127). -/
theorem ph0_fallsIn (k c : Nat) : ∀ s : State, s.pge.pgPh = .ph0 → s.pge.pgCnt.toNat = c + 1 →
    s.env.tNotify.head = some k → s.pge.ckv = true → s.pge.pgDone = false → FallsIn (c + 1) (s.tailTicks k) s := by
  induction c with
  | zero =>
    intro s hph hc hk hck hd
    refine fallsIn_one hck hd ?_
    simp only [tick, pgeTick, hph, hc, Nat.zero_add, Nat.le_refl, if_true]
    exact endPhase0_notifiesIn k
      (s := { s with now := s.now + 1, dlyCnt := if s.dlyCnt = 0 then 0 else s.dlyCnt - 1 }) hk hd
  | succ c ih =>
    intro s hph hc hk hck hd
    obtain ⟨hpge, henv, htrace⟩ := tick_counting s (.inl hph) (by omega)
    have htail : (tick s).tailTicks k = s.tailTicks k := by rw [State.tailTicks, (tick_drift s).seq, State.tailTicks]
    refine .of_tick hck hd htrace ?_
    rw [← htail]
    refine ih (tick s) (by rw [hpge]; exact hph) ?_ (by rw [henv]; exact hk) (by rw [hpge]; exact hck)
      (by rw [hpge]; exact hd)
    rw [hpge, sub_one_toNat _ (by omega)]
    omega

/-! ### From the start step on -/

/-- In a state that meets the engine invariant a pulse starts where none is in flight (R122, log 24). -/
theorem cleared_of_start {s : State} (hok : s.engineOk = true) (hs : s.nextAction = some .start) : Cond.cleared.metBy s := by
  rw [engineOk_iff, hs] at hok
  exact hok

/-- Settles O28: the start step enters phase 0 with the count PG_D0. -/
theorem waveformOfOnePulse : Obligations.WaveformOfOnePulse := by
  unfold Obligations.WaveformOfOnePulse
  intro s k n hok hs h0 hk
  obtain ⟨-, hdone, hckv, -⟩ := cleared_of_start hok hs
  refine ⟨hckv, _, rfl, ?_⟩
  have hpos : s.seq.pgD0.toNat ≠ 0 := by simpa [BitVec.toNat_eq] using h0
  obtain ⟨hhigh, hflag, htrace⟩ := ph0_fallsIn k (s.seq.pgD0.toNat - 1)
    (startPulse (emitEvent (.pulse s.seq.pgD0 s.seq.pgD1 s.seq.pgP1p) s)) rfl
    (show s.seq.pgD0.toNat = _ by omega) hk rfl hdone n
  rw [show s.seq.pgD0.toNat - 1 + 1 = s.seq.pgD0.toNat by omega] at hhigh hflag htrace
  rw [State.tailTicks, ← Nat.add_assoc] at hflag htrace
  refine ⟨hhigh, hflag, htrace.trans ?_⟩
  rw [startPulse_trace, emitEvent_trace, List.append_assoc s.trace]
  rfl

end Sys2Proof.Machine
end

section
/-! A failed generator is inert (40_pulse_generator.md R131). No action that the engine's conditions allow on it needs a
generator, and so none of them touches the engine or waits for a notification. -/

namespace Sys2Proof.Machine

/-! ### One action -/

/-- On a failed generator only what needs no generator is done. -/
theorem needs_free_of_failed {x : Action} {s : State} (h : x.needs.metBy s) (hf : s.seq.pgSt = .failed) :
    x.needs = .free := by
  cases hx : x.needs <;> rw [hx] at h
  case ready => exact absurd (hf.symm.trans h.2) nofun
  case quiet | unbound => exact absurd (hf.symm.trans h.2.2) nofun
  case cleared => exact absurd (hf.symm.trans h.2.2.2) nofun

/-- From `s` to `u`, in whole-command steps and with the bus engine and the calls of `Env.answers` as the claim wants them,
the failed generator and the engine have been left alone. -/
structure Inert (s u : State) : Prop where
  budget : u.budget = none
  settles : u.env.busSettles = true
  answers : u.env.answers = true
  failed : u.seq.pgSt = .failed
  pge : u.pge = s.pge
  tale : u.pgeTale = s.pgeTale

theorem Inert.skip {s u v : State} {x : Action} (h : Inert s u) (hd : doAction x u = .skip v) : Inert s v := by
  obtain ⟨-, -, rfl⟩ | ⟨-, -, rfl⟩ | ⟨-, -, rfl⟩ := doAction_skip x u v hd
  · exact h
  all_goals exact ⟨h.budget, h.settles, h.answers, h.failed, h.pge, h.tale⟩

section
variable {s u v : State} {x : Action} (hq : s.pge.consistent = true ∧ s.pge.quiet)
include hq

theorem Inert.calm (h : Inert s u) (c : Calm u v) (hf : v.seq.pgSt = .failed) : Inert s v where
  budget := c.budget h.budget
  settles := by rw [c.settles]; exact h.settles
  answers := by rw [c.answers]; exact h.answers
  failed := hf
  pge := (c.idle (by rw [h.pge]; exact hq.2.1) rfl).1.trans h.pge
  tale := by rw [c.tale (by rw [h.pge]; exact hq.1), List.append_nil, h.tale]

theorem Inert.still (h : Inert s u) (hs : Still u v) : Inert s v := h.calm hq hs.calm (by rw [hs.seq]; exact h.failed)

theorem Inert.afterAction (h : Inert s u) : Inert s (afterAction u) :=
  h.calm hq (afterAction_calm u h.budget) (by rw [afterAction_seq]; exact h.failed)

theorem Inert.go (h : Inert s u) (hn : x.needs.metBy u) (hd : doAction x u = .go v) : Inert s v := by
  have hfree := needs_free_of_failed hn h.failed
  have htale : v.pgeTale = s.pgeTale :=
    (doAction_go_pgeTale (by rintro rfl; cases hfree) hn hd).trans h.tale
  have hst : v.seq.pgSt = .failed := ((doAction_go_boundStays hn hd) (by simp [h.failed])).1.trans h.failed
  cases x
  case waitIdle => exact h.still hq ((waitIdleTurns_waits _ u).go v hd).1
  case busInitAns =>
    obtain ⟨ok, w, rfl, hw⟩ := (busInitAns_answers u).go v hd
    have hi := h.still hq hw
    cases ok <;> exact ⟨hi.budget, hi.settles, hi.answers, hst, hi.pge, htale⟩
  case delayWait =>
    obtain ⟨w, hw, hs⟩ | ⟨w, hw, -⟩ := delayWait_flow u <;> rw [hw] at hd <;> cases hd
    exact h.still hq hs
  case emitGuard | pgInitGuard => simp only [doAction, h.failed] at hd; cases hd
  case done o r => cases hd
  case awaitDone | program | clearDone | start | pgSetPin | pgAllocReq | pgAllocAns => cases hfree
  case pick | latchVariant | cfgPut | cfgSet | cfgClear | dirOut | pinOut | dataBit | delayLoad | busInitReq | busStart |
      busSwitch | psmPut =>
    cases hd; exact ⟨h.budget, h.settles, h.answers, hst, h.pge, htale⟩

/-- Only the end of the command stops SEQ: with no pulse in flight `WaitIdle` waits for the bus engine alone. -/
theorem Inert.stop (h : Inert s u) (hn : x.needs.metBy u) (hd : doAction x u = .stop v) :
    ∃ o r, x = .done o r ∧ v = finish o r u := by
  have hfree := needs_free_of_failed hn h.failed
  have goes : (∃ w, doAction x u = .go w) → False := fun ⟨w, hw⟩ => by rw [hw] at hd; cases hd
  cases x
  case done o r => cases hd; exact ⟨o, r, rfl, rfl⟩
  case waitIdle =>
    obtain ⟨w, hw, -⟩ := waitIdle_go u.env.busBusy.next u h.budget hn.1 (.inr (by rw [h.pge]; exact hq.2.2)) h.settles
    exact (goes ⟨w, hw⟩).elim
  case busInitAns =>
    exact (goes (answerTurns_goes (fun w => { w with env := { w.env with busInitOk := w.env.busInitOk.pop } }) busInitDone
      (fun _ => rfl) (Bool.and_eq_true_iff.mp h.answers).1 _ h.budget)).elim
  case delayWait => exact (goes (delayWait_goes h.budget)).elim
  case emitGuard | pgInitGuard => simp only [doAction, h.failed] at hd; cases hd
  case awaitDone | program | clearDone | start | pgSetPin | pgAllocReq | pgAllocAns => cases hfree
  case pick | latchVariant | cfgPut | cfgSet | cfgClear | dirOut | pinOut | dataBit | delayLoad | busInitReq | busStart |
      busSwitch | psmPut =>
    cases hd

/-! ### A command -/

/-- A run on a failed generator comes to its end. -/
theorem run_inert {i : Instr} {l : Line} {ls : Program} (ha : At i (l :: ls) s) (he : Ends (l :: ls))
    (hne : l ≠ [] ∨ ls ≠ []) (hf : Cond.free.fits l = true) (h : Inert s s) :
    Inert s (runProgram (l :: ls) s) ∧ (runProgram (l :: ls) s).seq.seqOp = 0 :=
  run_induct i (fun p u => Running s p u ∧ Inert s u) (fun u => Inert s u ∧ u.seq.seqOp = 0)
    (go := fun _ _ _ _ _ _ _ ⟨hrun, hI⟩ hd _ => ⟨hrun.go hd, (hI.go hq hrun.needs hd).afterAction hq⟩)
    (skip := fun _ _ _ _ _ _ _ ⟨hrun, hI⟩ hd => ⟨hrun.skip hd, (hI.skip hd).afterAction hq⟩)
    (next := fun _ _ _ hw ⟨hrun, hI⟩ _ => ⟨hrun.next hw, hI.calm hq (nextStep_calm _) hI.failed⟩)
    (stop := fun _ _ _ w _ _ _ ⟨hrun, hI⟩ hd => by
      obtain ⟨o, r, -, rfl⟩ := hI.stop hq hrun.needs hd
      have hseq := finish_seq o r w
      exact ⟨hI.calm hq (finish_calm o r w) (by rw [hseq]; exact hI.failed), by rw [hseq]; rfl⟩)
    (pause := fun _ _ _ w _ _ ⟨_, hI⟩ hb => by simp [hasBudget_none w hI.budget] at hb)
    ls l s ha he hne ⟨⟨⟨.free, ⟨hq.1, .inl hq.2.2⟩, hf⟩, .of_eq rfl rfl⟩, h⟩

end

/-- From `s` to `t` a command has ended, and the failed generator and the engine are as before. -/
structure Spared (s t : State) : Prop where
  idle : t.seq.seqOp = 0
  failed : t.seq.pgSt = .failed
  pge : t.pge = s.pge
  tale : t.pgeTale = s.pgeTale
  tallies : Tallies s t

theorem ignoreSecondInit_spared (i : Instr) {s : State} (hop : s.seq.seqOp = 0) (hf : s.seq.pgSt = .failed)
    (hc : Cond.free.metBy s) : Spared s (closeStep (ignoreSecondInit i s)) where
  idle := by simpa [ignoreSecondInit_seq] using hop
  failed := by simpa [ignoreSecondInit_seq] using hf
  pge := respond_pge .init (flagMisuse s)
  tale := ((respond_calm .init (flagMisuse s)).tale hc.1).trans (List.append_nil _)
  tallies := ignoreSecondInit_tallies i hc

/-- Every command on a failed generator ends, and spares it. -/
theorem exec_spared {i : Instr} {s : State} (hwf : i.wf s.params.maxTicks = true) (hg : s.grain = none)
    (hop : s.seq.seqOp = 0) (hf : s.seq.pgSt = .failed) (hc : s.pge.consistent = true) (hd : s.pge.pgDone = true)
    (hs : s.env.busSettles = true) (ha : s.env.answers = true) : ∃ t, exec i s = .next t ∧ Spared s t := by
  rw [exec_eq]
  split
  · exact ⟨_, rfl, ignoreSecondInit_spared i hop hf ⟨hc, .inl hd⟩⟩
  · obtain ⟨l, ls, hp, hat, he, hne⟩ := at_accept i s (decode_encode hwf)
    have hfits : Cond.free.fits l = true := fits_of_mem (s := s) (by rw [hp]; exact List.mem_cons_self)
    have hbegin : Inert (accept i (openStep s)) (accept i (openStep s)) :=
      ⟨accept_unlimited i hg, by simpa using hs, by simpa using ha, by simpa [accept_seq] using hf, rfl, rfl⟩
    obtain ⟨hend, hidle⟩ := run_inert ⟨by simpa using hc, by simpa using quiet_of_done hc hd⟩ hat he hne hfits hbegin
    have htally := (accept_tallies i s).trans
      (run_tallies hat he hne (c := .free) ⟨by simpa using hc, .inl (by simpa using hd)⟩ hfits)
    have htale : (accept i (openStep s)).pgeTale = s.pgeTale := by
      simp [State.pgeTale, State.pgeEvents, State.events]
    exact ⟨closeStep _, by rw [startCommand, hp], hidle, hend.failed, hend.pge.trans (by simp), hend.tale.trans htale, htally⟩

/-- Without a pulse in the tale there is no PULSE event. -/
theorem pulseless_of_pulsesOf {es : List Event} (h : pulsesOf es = []) : ∀ e ∈ es, e.isPulse = false := by
  intro e he
  by_contra hp
  have hm : e ∈ es.filter Event.isPulse := List.mem_filter.mpr ⟨he, by simpa using hp⟩
  obtain ⟨k, hk⟩ := Nat.exists_eq_succ_of_ne_zero (List.length_pos_of_mem hm).ne'
  rw [pulsesOf, hk] at h
  simp [List.replicate_succ] at h

/-- A pulse would have added to the tale. -/
theorem Spared.pulseless {s t : State} (h : Spared s t) :
    ∃ es, t.seqEvents = s.seqEvents ++ es ∧ ∀ e ∈ es, e.isPulse = false := by
  obtain ⟨es, hes, htale⟩ := h.tallies
  exact ⟨es, hes, pulseless_of_pulsesOf (List.self_eq_append_right.mp (h.tale.symm.trans htale))⟩

/-- Settles O27: a command spares the failed generator; PGBUSY's answer is that of a set completion flag. -/
theorem failedGeneratorIsInert : Obligations.FailedGeneratorIsInert := by
  unfold Obligations.FailedGeneratorIsInert
  intro i s hwf hg hop hf hc hd hs ha
  obtain ⟨t, ht, hsp⟩ := exec_spared hwf hg hop hf hc hd hs ha
  obtain ⟨es, hes, hpulse⟩ := hsp.pulseless
  have hidle : s.pge.pgPh = .idle := (quiet_of_done hc hd).1
  refine ⟨t, es, ht, hsp.idle, hes, hpulse, ?_, hsp.pge, hsp.failed, ?_⟩
  · rw [← pgeTale_idle hidle, ← hsp.tale, pgeTale_idle (by rw [hsp.pge]; exact hidle)]
  · rintro rfl
    obtain ⟨u, hu, -, hev, -⟩ := pgbusyAnswersTheFlagInverted s hg
    cases ht.symm.trans hu
    rw [hd] at hev
    exact List.append_cancel_left (hes.symm.trans hev)

end Sys2Proof.Machine
end

section
/-! The notification of a pulse in flight: withheld, it keeps an EMIT in its wait for ever (40_pulse_generator.md R122,
R130); coming at all, it comes while HOST polls (R129). -/

namespace Sys2Proof.Machine

/-! ### Withheld -/

/-- SEQ stands at the wait of `Emit` for a pulse whose notification is withheld, and `rst` stays low. -/
structure Awaiting (s : State) : Prop where
  withheld : Withheld s
  rst : s.env.rst = ⟨[], false⟩
  atWait : ∃ xs ls, remaining s = (.awaitDone :: xs) :: ls

/-- `t` is `s` after some waiting. -/
structure Stuck (s t : State) : Prop where
  awaiting : Awaiting t
  seqEvents : t.seqEvents = s.seqEvents
  seqOp : t.seq.seqOp = s.seq.seqOp

theorem Stuck.trans {s t u : State} (h : Stuck s t) (k : Stuck t u) : Stuck s u :=
  ⟨k.awaiting, k.seqEvents.trans h.seqEvents, k.seqOp.trans h.seqOp⟩

/-- A run that begins at the wait stays there. -/
theorem run_stuck {s : State} {xs : Line} {ls : Program} (hb : hasBudget s = true) (hw : Withheld s)
    (hrst : s.env.rst = ⟨[], false⟩) (hrem : remaining s = (.awaitDone :: xs) :: ls) :
    Stuck s (runProgram ((.awaitDone :: xs) :: ls) s) := by
  obtain ⟨t, ht, hwt⟩ := awaitDone_withheld s hw
  have hs := (awaitDone_waits s).stop t ht
  have hrun : runProgram ((.awaitDone :: xs) :: ls) s = t := by
    simp [runProgram, runLine, hb, doAction, ht]
  rw [hrun]
  exact ⟨⟨hwt, hs.steady.rst.trans hrst, xs, ls, hs.remaining.trans hrem⟩, hs.seqEvents, congrArg _ hs.seq⟩

theorem closeStep_stuck {s t : State} (h : Stuck s t) : Stuck s (closeStep t) :=
  ⟨⟨⟨h.awaiting.withheld.flight, h.awaiting.withheld.never, h.awaiting.withheld.flag⟩, h.awaiting.rst,
    h.awaiting.atWait⟩, h.seqEvents, h.seqOp⟩

theorem step_stuck {s : State} (h : Awaiting s) : ∃ t, step s = .next t ∧ Stuck s t := by
  obtain ⟨⟨hflight, hnever, hflag⟩, hrst, xs, ls, hrem⟩ := h
  have hrun := run_stuck (s := openStep s.takeRst) (hasBudget_openStep _) ⟨hflight, hnever, hflag⟩
    (by simp [hrst, Feed.pop]) hrem
  exact ⟨_, step_of_remaining (by rw [hrst]; rfl) hrem, closeStep_stuck ⟨hrun.awaiting, hrun.seqEvents, hrun.seqOp⟩⟩

theorem stepsFrom_stuck (n : Nat) : ∀ {s : State}, Awaiting s → ∃ t, stepsFrom n s = some t ∧ Stuck s t := by
  induction n with
  | zero => exact fun h => ⟨_, rfl, h, rfl, rfl⟩
  | succ n ih =>
    intro s h
    obtain ⟨t, ht, hst⟩ := step_stuck h
    obtain ⟨u, hu, htu⟩ := ih hst.awaiting
    exact ⟨u, by simpa [stepsFrom, ht] using hu, hst.trans htu⟩

theorem runProgram_go {x : Action} {xs : Line} {ls : Program} {s t : State} (hb : hasBudget s = true)
    (h : doAction x s = .go t) : runProgram ((x :: xs) :: ls) s = runProgram (xs :: ls) (afterAction t) := by
  simp only [runProgram, runLine, hb, h, if_true]

theorem afterAction_withheld {s : State} (hb : s.budget = none) (h : Withheld s) : Withheld (afterAction s) := by
  rw [afterAction_eq s hb]
  exact elapse_withheld _ _ ⟨h.flight, h.never, h.flag⟩

/-- An accepted EMIT passes its guard and stops at its wait. -/
theorem emit_stuck {h l : Half} {w : Bool} {s : State} (hwf : (Instr.emit h l w).wf s.params.maxTicks = true)
    (hg : s.grain = none) (hr : s.seq.pgSt = .ready) (hw : Withheld s) (hrst : s.env.rst = ⟨[], false⟩) :
    ∃ t, exec (.emit h l w) s = .next t ∧ Stuck (accept (.emit h l w) (openStep s)) t := by
  obtain ⟨line, lines, hp, ha, -⟩ := at_accept (.emit h l w) s (decode_encode hwf)
  obtain ⟨rfl, rfl⟩ := List.cons.inj hp
  have hb := accept_unlimited (.emit h l w) hg
  have hguard : doAction .emitGuard (accept (.emit h l w) (openStep s)) = .go (accept (.emit h l w) (openStep s)) := by
    simp [doAction, accept_seq, hr]
  have hcalm := afterAction_calm _ hb
  have hrun := run_stuck (hasBudget_none _ (hcalm.budget hb))
    (afterAction_withheld hb ⟨by simpa using hw.flight, by simpa using hw.never, by simpa using hw.flag⟩)
    ((congrArg (·.rst) hcalm.held).trans (by simpa [Env.held] using hrst)) (ha.go hguard).remaining
  have hstart : Stuck (accept (.emit h l w) (openStep s)) _ :=
    ⟨hrun.awaiting, hrun.seqEvents.trans (afterAction_seqEvents _), by rw [hrun.seqOp, afterAction_seq]⟩
  refine ⟨closeStep (runProgram (emitProgram h l w) (accept (.emit h l w) (openStep s))), rfl, closeStep_stuck ?_⟩
  rw [emitProgram, emitLine, List.cons_append, runProgram_go (hasBudget_none _ hb) hguard]
  exact hstart

/-- Settles O50: EMIT stops at its wait, and each step from there on leaves it there. -/
theorem withheldNotificationBlocksTheNextPulse : Obligations.WithheldNotificationBlocksTheNextPulse := by
  unfold Obligations.WithheldNotificationBlocksTheNextPulse
  intro h l w s t n hwf hg hr hc hflight hnever hrst ht
  have hflag : s.pge.pgDone = false := by rw [consistent_done hc]; simpa using hflight
  obtain ⟨u, hu, hsu⟩ := emit_stuck hwf hg hr ⟨hflight, hnever, hflag⟩ hrst
  cases ht.symm.trans hu
  obtain ⟨v, hv, htv⟩ := stepsFrom_stuck n hsu.awaiting
  obtain ⟨hawait, hev, hop⟩ := hsu.trans htv
  refine ⟨v, hv, hev.trans ?_, hop.trans ?_, hawait.withheld.flag⟩
  · simp [State.seqEvents, State.events]
  · simp [accept_seq]; rfl

/-! ### Polled -/

/-- `d` ticks are enough for the pulse in flight. -/
def QuietIn (d : Nat) (s : State) : Prop := (elapse d s).pge.quiet

theorem QuietIn.elapse {d : Nat} {s : State} (m : Nat) (h : QuietIn d s) : QuietIn (d - m) (elapse m s) := by
  rw [QuietIn, ← elapse_add]
  exact quiet_mono h (by omega)

theorem QuietIn.mono {d e : Nat} {s : State} (h : QuietIn d s) (hde : d ≤ e) : QuietIn e s := quiet_mono h hde

/-- What time depends on decides it. -/
theorem QuietIn.abreast {d : Nat} {s t : State} (h : QuietIn d s) (ha : Abreast s t s t) : QuietIn d t := by
  rw [QuietIn, (ha.elapse d).pge]
  exact h

theorem quietIn_ticksToDone {s : State} (hc : s.pge.consistent = true) (hn : s.env.notifies = true) :
    QuietIn (max 1 (ticksToDone s)) s := by
  by_cases hi : s.pge.pgPh = .idle
  · exact elapse_quiet _ s ⟨hi, (consistent_idle hc).mp hi⟩
  · exact elapse_ticksToDone s hn hi

/-- From `s` on HOST has polled and is to present `words`; `n` accepting turns are enough for the pulse in flight, since
past the listed latencies each of them takes a tick (log 26). -/
structure Polling (s : State) (n : Nat) (words : List (Option CmdWord)) (t : State) : Prop where
  idle : t.seq.seqOp = 0
  rst : t.env.rst = ⟨[], false⟩
  cmds : t.env.cmds = words
  params : t.params = s.params
  consistent : t.pge.consistent = true
  tale : t.pgeTale = s.pgeTale
  due : ∃ d, QuietIn d t ∧ t.env.tAccept.next.length + d ≤ n

section
variable {s t : State} {n : Nat} {words : List (Option CmdWord)}

theorem Polling.elapse (h : Polling s n words t) (m : Nat) : Polling s n words (elapse m t) where
  idle := (congrArg _ (elapse_drift m t).seq).trans h.idle
  rst := (congrArg (·.rst) (elapse_drift m t).held).trans h.rst
  cmds := (congrArg (·.cmds) (elapse_drift m t).held).trans h.cmds
  params := (elapse_drift m t).params.trans h.params
  consistent := elapse_consistent m t h.consistent
  tale := (elapse_tale m t).trans h.tale
  due := by
    obtain ⟨d, hq, hle⟩ := h.due
    have hA : (Machine.elapse m t).env.tAccept = t.env.tAccept := congrArg (·.tAccept) (elapse_drift m t).held
    exact ⟨d, (hq.elapse m).mono (by omega), by rw [hA]; exact hle⟩

theorem Polling.illegalWord (h : Polling s n words t) : Polling s n words (illegalWord t) := by
  obtain ⟨d, hq, hle⟩ := h.due
  exact ⟨h.idle, h.rst, h.cmds, h.params, h.consistent, (pgeTale_emit _ _ rfl).trans h.tale, d,
    hq.abreast (.of_eq rfl rfl rfl rfl rfl rfl), hle⟩

theorem Polling.pgbusyAnswered (h : Polling s n words t) : Polling s n words (pgbusyAnswered t) := by
  obtain ⟨d, hq, hle⟩ := h.due
  exact ⟨rfl, h.rst, h.cmds, h.params, h.consistent, (pgeTale_emit _ _ rfl).trans h.tale, d,
    hq.abreast (.of_eq rfl rfl rfl rfl rfl rfl), hle⟩

theorem Polling.closeStep (h : Polling s n words t) : Polling s n words (closeStep t) := by
  obtain ⟨d, hq, hle⟩ := h.due
  exact ⟨h.idle, h.rst, h.cmds, h.params, h.consistent, h.tale, d, hq.abreast (.of_eq rfl rfl rfl rfl rfl rfl), hle⟩

/-- An accepting turn takes a tick or uses up a listed latency. -/
theorem acceptTicks_counts {e : Env} {d : Nat} (h : e.tAccept.next.length + d ≤ n + 1) :
    e.tAccept.pop.next.length + (d - e.acceptTicks) ≤ n := by
  cases he : e.tAccept.next with
  | nil => simp [Feed.pop, Env.acceptTicks, he] at h ⊢; omega
  | cons x xs => simp [Feed.pop, Env.acceptTicks, he] at h ⊢; omega

theorem Polling.passAccept {c : Option CmdWord} (h : Polling s (n + 1) (c :: words) t) :
    Polling s n words (passAccept t.takeRst.dropCmd) := by
  obtain ⟨d, hq, hle⟩ := h.due
  have hnext : t.env.nextTurn = { t.env with cmds := words } := by simp [Env.nextTurn, h.cmds]
  have hbegun : Polling s (t.env.tAccept.pop.next.length + d) words { t with
      env := { t.env with cmds := words, rst := t.env.rst.pop, tAccept := t.env.tAccept.pop } } :=
    ⟨h.idle, by rw [h.rst]; rfl, rfl, h.params, h.consistent, h.tale, d, hq.abreast (.of_eq rfl rfl rfl rfl rfl rfl),
      Nat.le_refl _⟩
  rw [passAccept_turn, hnext]
  refine { hbegun.elapse t.env.acceptTicks with due := ⟨d - t.env.acceptTicks, ?_, ?_⟩ }
  · exact QuietIn.elapse _ (hq.abreast (.of_eq rfl rfl rfl rfl rfl rfl))
  · rw [show (Machine.elapse t.env.acceptTicks _).env.tAccept = t.env.tAccept.pop from
      congrArg (·.tAccept) (elapse_drift _ _).held]
    exact acceptTicks_counts hle

end

/-- A word with which HOST polls: a PGBUSY or an illegal word. -/
def Polls (maxTicks : Half) (w : Option CmdWord) : Prop :=
  ∃ c, w = some c ∧ (decode maxTicks c = .ok .pgbusy ∨ ∃ e, decode maxTicks c = .error e)

/-- Such a word is answered in the step that accepts it (log 29). -/
theorem step_polling {s t : State} {n : Nat} {w : Option CmdWord} {words : List (Option CmdWord)}
    (h : Polling s (n + 1) (w :: words) t) (hw : Polls s.params.maxTicks w) :
    ∃ u, step t = .next u ∧ Polling s n words u := by
  obtain ⟨c, rfl, hc⟩ := hw
  rw [← h.params] at hc
  have hr : t.env.rst.head = false := by rw [h.rst]; rfl
  have hturn : t.env.turn = some c := by simp [Env.turn, h.cmds]
  rcases hc with hd | ⟨e, hd⟩
  · refine ⟨_, ?_, (h.passAccept.pgbusyAnswered.elapse (Machine.passAccept t.takeRst.dropCmd).env.tStep.head).closeStep⟩
    rw [stepRunsTheDecodedCommand t c .pgbusy hr h.idle hturn hd, ← passAccept_turn, exec_pgbusy, finish_pgbusy]
  · exact ⟨_, step_illegal hr h.idle hturn hd, h.passAccept.illegalWord⟩

theorem stepsFrom_polling {s : State} (n : Nat) : ∀ {words : List (Option CmdWord)} {t : State}, Polling s n words t →
    n ≤ words.length → (∀ w ∈ words, Polls s.params.maxTicks w) →
    ∃ u rest, stepsFrom n t = some u ∧ Polling s 0 rest u := by
  induction n with
  | zero => exact fun h _ _ => ⟨_, _, rfl, h⟩
  | succ n ih =>
    intro words t h hlen hw
    cases words with
    | nil => simp at hlen
    | cons w words =>
      obtain ⟨u, hu, hp⟩ := step_polling h (hw w List.mem_cons_self)
      obtain ⟨v, rest, hv, hq⟩ := ih hp (Nat.le_of_succ_le_succ hlen) fun x hx => hw x (List.mem_cons_of_mem w hx)
      exact ⟨v, rest, by simpa [stepsFrom, hu] using hv, hq⟩

/-- No turn left: no pulse is in flight. -/
theorem Polling.quiet {s t : State} {words : List (Option CmdWord)} (h : Polling s 0 words t) : t.pge.quiet := by
  obtain ⟨d, hq, hle⟩ := h.due
  obtain rfl : d = 0 := by omega
  exact hq

/-- Settles O52: the listed latencies of accepting turns are used up at last, and then each turn is a tick of the pulse. -/
theorem pollingSeesTheNotification : Obligations.PollingSeesTheNotification := by
  unfold Obligations.PollingSeesTheNotification
  intro s hop hc hn hrst
  refine ⟨s.env.tAccept.next.length + max 1 (ticksToDone s), fun words hlen hw => ?_⟩
  have hstart : Polling s (s.env.tAccept.next.length + max 1 (ticksToDone s)) words
      { s with env := { s.env with cmds := words } } :=
    ⟨hop, hrst, rfl, rfl, hc, rfl, _, (quietIn_ticksToDone hc hn).abreast (.of_eq rfl rfl rfl rfl rfl rfl), Nat.le_refl _⟩
  obtain ⟨u, rest, hu, hp⟩ := stepsFrom_polling _ hstart hlen hw
  exact ⟨u, hu, hp.quiet.2, (pgeTale_idle hp.quiet.1).symm.trans hp.tale, hp.idle⟩

end Sys2Proof.Machine
end

section
/-! PUSH, and what observers outside the block see of SEQ's events (41_shift_register.md R150 to R156). The wire log and the
reference receiver heed only the pin writes on the three wires. The receiver, whatever it held, holds after each `Push` the
word pushed, and the levels it sees are SEQ's output latches. -/

namespace Sys2Proof.Machine

/-! ### PUSH -/

/-- The operand latch of PUSH holds its word in A[7:0] (30_encoding.md R91). -/
@[simp] theorem fieldA_push (w : Byte) : (Instr.push w).fieldA.extractLsb' 0 8 = w :=
  BitVec.extractLsb'_append_eq_right

/-- Settles O29: the one sub-sequence of PUSH is `Push` of its operand. -/
theorem pushShiftsItsOperandOut : Obligations.PushShiftsItsOperandOut := by
  unfold Obligations.PushShiftsItsOperandOut
  intro w s hg
  have hword : pushWord .operand (accept (.push w) (openStep s)).view.regs = w := by
    rw [accept_view]
    exact fieldA_push w
  obtain ⟨u, hrun, hview, hcalm⟩ := passes_plain (pushLine .operand) (accept (.push w) (openStep s)) _
    (accept_unlimited _ hg) (plainViews_push .operand _)
  rw [hword, accept_view] at hview
  obtain ⟨t, ht, hseq, hev, hcomp, -⟩ := command_of_line (.push w) .plain rfl hg hrun.line hview hcalm rfl
  exact ⟨t, ht, hseq, hev, hcomp⟩

/-! ### The observers of the wires -/

/-- Whether an event is a pin write on one of the three wires of the shift register. -/
def Event.onWires : Event → Bool
  | .pin .cfgData _ => true
  | .pin .cfgClk _ => true
  | .pin .cfgStr _ => true
  | _ => false

theorem WireLog.see_offWires (l : WireLog) {e : Event} (h : e.onWires = false) : l.see e = l := by
  cases e
  case pin p v =>
    cases p
    case cfgData | cfgClk | cfgStr => cases h
    case spl | ckv => rfl
  all_goals rfl

theorem Receiver.see_offWires (r : Receiver) {e : Event} (h : e.onWires = false) : r.see e = r := by
  cases e
  case pin p v =>
    cases p
    case cfgData | cfgClk | cfgStr => cases h
    case spl | ckv => rfl
  all_goals rfl

/-- An observer of the wires misses nothing when the other events are left out. -/
theorem foldl_filter_onWires {α : Type} {see : α → Event → α} (h : ∀ x e, e.onWires = false → see x e = x)
    (es : List Event) (x : α) : (es.filter Event.onWires).foldl see x = es.foldl see x := by
  rw [List.foldl_filter]
  congr 1
  funext y e
  split
  · rfl
  · next he => exact (h y e (by simpa using he)).symm

theorem pushedBits_filter (es : List Event) : pushedBits (es.filter Event.onWires) = pushedBits es :=
  congrArg WireLog.words (foldl_filter_onWires (fun l _ => WireLog.see_offWires l) es ⟨[], []⟩)

theorem Receiver.after_filter (r : Receiver) (es : List Event) : r.after (es.filter Event.onWires) = r.after es :=
  foldl_filter_onWires (fun r _ => Receiver.see_offWires r) es r

/-- One `Push` is one strobe frame with the eight bits of its word, bit 7 first (R150, R152). -/
theorem WireLog.see_pushEvents (l : WireLog) (w : Byte) :
    (pushEvents w).foldl WireLog.see l = ⟨[], l.words ++ [wireBits w]⟩ := rfl

theorem pushedBits_pushEvents (ws : List Byte) : pushedBits (ws.flatMap pushEvents) = ws.map wireBits := by
  suffices h : ∀ l : WireLog, ((ws.flatMap pushEvents).foldl WireLog.see l).words = l.words ++ ws.map wireBits from h _
  induction ws with
  | nil => simp
  | cons w ws ih =>
    intro l
    rw [List.flatMap_cons, List.foldl_append, WireLog.see_pushEvents, ih]
    simp

/-- The receiver's shift register after a rising clock (R155). -/
def shiftIn (x : Byte) (b : Bool) : Byte := x.extractLsb' 0 7 ++ BitVec.ofBool b

theorem shiftIn_getLsbD (x : Byte) (b : Bool) (k : Nat) :
    (shiftIn x b).getLsbD k = (decide (k < 8) && if k = 0 then b else x.getLsbD (k - 1)) := by
  rw [shiftIn, BitVec.getLsbD_append]
  cases k with
  | zero => simp
  | succ k => simp [show k + 1 < 8 ↔ k < 7 by omega]

/-- Eight clocks replace the whole register, the first bit ending as bit 7 (R152). -/
theorem foldl_shiftIn_wireBits (w x : Byte) : (wireBits w).foldl shiftIn x = w := by
  refine BitVec.eq_of_getLsbD_eq fun k hk => ?_
  interval_cases k <;> simp [wireBits, shiftIn_getLsbD, -BitVec.getLsbD_eq_getElem]

/-- The receiver that holds word `w` and sees the wires at rest after it. -/
def Receiver.holding (w : Byte) : Receiver := ⟨w, w, w.getLsbD 0, true, true⟩

/-- Whatever the receiver held and saw before, one `Push` makes it hold the word (R155, R156). -/
theorem Receiver.after_pushEvents (r : Receiver) (w : Byte) : r.after (pushEvents w) = .holding w := by
  have hshift : r.after (pushEvents w) =
      ⟨(wireBits w).foldl shiftIn r.sr, (wireBits w).foldl shiftIn r.sr, w.getLsbD 0, true, true⟩ := rfl
  rw [hshift, foldl_shiftIn_wireBits]
  rfl

theorem Receiver.after_append (r : Receiver) (es fs : List Event) : r.after (es ++ fs) = (r.after es).after fs :=
  List.foldl_append

/-- Of several words pushed, the last one counts. -/
theorem Receiver.after_pushes (r : Receiver) (ws : List Byte) :
    r.after (ws.flatMap pushEvents) = (ws.getLast?.map Receiver.holding).getD r := by
  induction ws using List.reverseRecOn with
  | nil => rfl
  | append_singleton ws w _ =>
    rw [List.flatMap_append, Receiver.after_append]
    simp [Receiver.after_pushEvents]

/-! ### The output latches -/

/-- The levels the receiver sees are those of SEQ's output latches. -/
structure Receiver.Sees (r : Receiver) (q : SeqRegs) : Prop where
  data : r.data = q.cfgData
  clk : r.clk = q.cfgClk
  str : r.str = q.cfgStr

/-- SEQ writes an output latch and the wire at once (10_state.md R30, R31). -/
theorem Receiver.Sees.action {r : Receiver} {q : SeqRegs} (h : r.Sees q) (x : Action) (b : Bool) :
    (r.after (x.eventsAfter b q)).Sees (x.regsAfter b q) := by
  obtain ⟨hd, hc, hs⟩ := h
  have pin : ∀ p v, (r.see (.pin p v)).Sees (setLatch p v q) := by
    intro p v
    cases p
    case cfgData => exact ⟨rfl, hc, hs⟩
    case cfgClk => simp only [Receiver.see]; split <;> exact ⟨hd, rfl, hs⟩
    case cfgStr => simp only [Receiver.see]; split <;> exact ⟨hd, hc, rfl⟩
    case spl | ckv => exact ⟨hd, hc, hs⟩
  cases x
  case pinOut p v => exact pin p v
  case dataBit src k => exact pin .cfgData _
  case dirOut p => cases p <;> exact ⟨hd, hc, hs⟩
  case busInitAns | pgAllocAns => cases b <;> exact ⟨hd, hc, hs⟩
  all_goals exact ⟨hd, hc, hs⟩

/-- In the course of a command the receiver sees what the latches say. -/
theorem Performs.sees {i : Instr} {q p : SeqRegs} {es : List Event} (h : Performs i q p es) {r : Receiver}
    (hr : r.Sees q) : (r.after es).Sees p := by
  induction h with
  | start => exact hr
  | action x b _ _ ih => rw [Receiver.after_append]; exact ih.action x b
  | misuse _ ih => exact ⟨ih.data, ih.clk, ih.str⟩
  | position k n _ ih => exact ⟨ih.data, ih.clk, ih.str⟩

theorem Course.sees {i : Instr} {q p : SeqRegs} {es : List Event} (h : Course i q p es) {r : Receiver}
    (hr : r.Sees q) : (r.after es).Sees p := by
  cases h with
  | going hp => exact hp.sees hr
  | ended st d hp =>
    rw [Receiver.after_append]
    exact ⟨(hp.sees hr).data, (hp.sees hr).clk, (hp.sees hr).str⟩

end Sys2Proof.Machine
end

section
/-! What every command puts on the three wires (41_shift_register.md R152, R155, R156). Which pin writes a list of actions
makes there is told by the list, CFG and the operand latch alone (`wiresAhead`); no answer, wait or generator status changes
it. A run only moves them from those ahead to those made, and a command's program has the `pushEvents` of its words ahead. -/

namespace Sys2Proof.Machine

/-! ### The wires as a program has them -/

/-- The wire events of one action, from CFG `c` and with the operand latch `a`. -/
def Action.onWires (x : Action) (a : Half) (c : Byte) : List Event :=
  (x.eventsAfter false { SeqRegs.reset with cfg := c, a := a }).filter Event.onWires

/-- They depend on nothing else of SEQ's registers, and on no sample. -/
theorem eventsAfter_onWires (x : Action) (b : Bool) (r : SeqRegs) :
    (x.eventsAfter b r).filter Event.onWires = x.onWires r.a r.cfg := by
  cases x
  case pgAllocAns => cases b <;> rfl
  case dataBit src k => cases src <;> rfl
  all_goals rfl

/-- The wire events of a list of actions. -/
def wiresAhead (a : Half) : List Action → Byte → List Event
  | [], _ => []
  | x :: xs, c => x.onWires a c ++ wiresAhead a xs (x.cfgAfter c)

/-- The value CFG has after a list of actions. -/
def cfgAhead (xs : List Action) (c : Byte) : Byte := xs.foldl (fun c x => x.cfgAfter c) c

@[simp] theorem wiresAhead_nil (a : Half) (c : Byte) : wiresAhead a [] c = [] := rfl

@[simp] theorem wiresAhead_cons (a : Half) (x : Action) (xs : List Action) (c : Byte) :
    wiresAhead a (x :: xs) c = x.onWires a c ++ wiresAhead a xs (x.cfgAfter c) := rfl

@[simp] theorem cfgAhead_nil (c : Byte) : cfgAhead [] c = c := rfl

@[simp] theorem cfgAhead_cons (x : Action) (xs : List Action) (c : Byte) :
    cfgAhead (x :: xs) c = cfgAhead xs (x.cfgAfter c) := rfl

@[simp] theorem cfgAhead_append (xs ys : List Action) (c : Byte) :
    cfgAhead (xs ++ ys) c = cfgAhead ys (cfgAhead xs c) := List.foldl_append

@[simp] theorem wiresAhead_append (a : Half) (xs ys : List Action) (c : Byte) :
    wiresAhead a (xs ++ ys) c = wiresAhead a xs c ++ wiresAhead a ys (cfgAhead xs c) := by
  induction xs generalizing c with
  | nil => rfl
  | cons x xs ih => simp [ih]

/-- Whether an action writes neither the wires nor CFG. -/
def Action.offWires : Action → Bool
  | .pinOut p _ => p == .spl || p == .ckv
  | .dataBit _ _ => false
  | .cfgPut _ => false
  | .cfgSet _ => false
  | .cfgClear _ => false
  | _ => true

theorem onWires_of_offWires {x : Action} (h : x.offWires = true) (a : Half) (c : Byte) : x.onWires a c = [] := by
  cases x
  case pinOut p v =>
    cases p
    case cfgData | cfgClk | cfgStr => cases h
    case spl | ckv => rfl
  case dataBit => cases h
  all_goals rfl

theorem cfgAfter_of_offWires {x : Action} (h : x.offWires = true) (c : Byte) : x.cfgAfter c = c := by
  cases x
  case cfgPut | cfgSet | cfgClear => cases h
  all_goals rfl

/-- Whether a list of actions writes neither the wires nor CFG. -/
def offWires (xs : List Action) : Bool := xs.all Action.offWires

theorem ahead_of_offWires {xs : List Action} (h : offWires xs = true) (a : Half) (c : Byte) :
    wiresAhead a xs c = [] ∧ cfgAhead xs c = c := by
  induction xs with
  | nil => exact ⟨rfl, rfl⟩
  | cons x xs ih =>
    obtain ⟨hx, hxs⟩ := Bool.and_eq_true_iff.mp h
    rw [wiresAhead_cons, cfgAhead_cons, onWires_of_offWires hx, cfgAfter_of_offWires hx]
    exact ih hxs

theorem wiresAhead_of_offWires {xs : List Action} (h : offWires xs = true) (a : Half) (c : Byte) :
    wiresAhead a xs c = [] := (ahead_of_offWires h a c).1

theorem cfgAhead_of_offWires {xs : List Action} (h : offWires xs = true) (c : Byte) : cfgAhead xs c = c :=
  (ahead_of_offWires h 0 c).2

theorem offWires_emitLine (h l : Half) (w : Bool) : offWires (emitLine h l w) = true := by
  cases w <;> rfl

@[simp] theorem wiresAhead_emitLine (h l : Half) (w : Bool) (a : Half) (c : Byte) :
    wiresAhead a (emitLine h l w) c = [] := wiresAhead_of_offWires (offWires_emitLine h l w) a c

@[simp] theorem cfgAhead_emitLine (h l : Half) (w : Bool) (c : Byte) : cfgAhead (emitLine h l w) c = c :=
  cfgAhead_of_offWires (offWires_emitLine h l w) c

@[simp] theorem wiresAhead_pgInitLine (pin : Byte) (a : Half) (c : Byte) : wiresAhead a (pgInitLine pin) c = [] := rfl

@[simp] theorem cfgAhead_pgInitLine (pin : Byte) (c : Byte) : cfgAhead (pgInitLine pin) c = c := rfl

@[simp] theorem wiresAhead_busInitLine (w : BitVec 17) (a : Half) (c : Byte) : wiresAhead a (busInitLine w) c = [] := rfl

@[simp] theorem cfgAhead_busInitLine (w : BitVec 17) (c : Byte) : cfgAhead (busInitLine w) c = c := rfl

@[simp] theorem wiresAhead_pushLine_cfg (a : Half) (c : Byte) : wiresAhead a (pushLine .cfg) c = pushEvents c := rfl

@[simp] theorem wiresAhead_pushLine_operand (a : Half) (c : Byte) :
    wiresAhead a (pushLine .operand) c = pushEvents (a.extractLsb' 0 8) := rfl

@[simp] theorem cfgAhead_pushLine (src : WordSource) (c : Byte) : cfgAhead (pushLine src) c = c := rfl

@[simp] theorem onWires_cfgPut (w : Byte) (a : Half) (c : Byte) : (Action.cfgPut w).onWires a c = [] := rfl
@[simp] theorem onWires_cfgSet (m : Byte) (a : Half) (c : Byte) : (Action.cfgSet m).onWires a c = [] := rfl
@[simp] theorem onWires_cfgClear (m : Byte) (a : Half) (c : Byte) : (Action.cfgClear m).onWires a c = [] := rfl
@[simp] theorem cfgAfter_cfgPut (w c : Byte) : (Action.cfgPut w).cfgAfter c = w := rfl
@[simp] theorem cfgAfter_cfgSet (m c : Byte) : (Action.cfgSet m).cfgAfter c = flagSet m c := rfl
@[simp] theorem cfgAfter_cfgClear (m c : Byte) : (Action.cfgClear m).cfgAfter c = flagClear m c := rfl

/-! ### The words of each command -/

/-- The flags as numbers (30_encoding.md R97). -/
theorem masks_eq : maskLe = 0x01 ∧ maskPwrdis = 0x02 ∧ maskPos = 0x04 ∧ maskNeg = 0x08 ∧ maskSof = 0x10 ∧
    maskDir = 0x20 ∧ maskMode = 0x40 ∧ maskOe = 0x80 ∧ cfgInit = 0x32 := by decide

/-- Setting flags after clearing them. -/
theorem and_or_of_or {c m n : Byte} (h : m ||| n = BitVec.allOnes 8) : c &&& m ||| n = c ||| n := by
  ext k hk
  have hb : (m[k] || n[k]) = true := by rw [← BitVec.getElem_or, h, BitVec.getElem_allOnes]
  rw [BitVec.getElem_or, BitVec.getElem_and, BitVec.getElem_or]
  cases hm : m[k] <;> simp [hm] at hb ⊢
  simp [hb]

/-- Clearing flags after setting them. -/
theorem or_and_of_and {c m n : Byte} (h : m &&& n = 0) : (c ||| m) &&& n = c &&& n := by
  rw [BitVec.and_or_distrib_right, h]
  exact BitVec.or_zero

/-- On the wires, the program of command `i` pushes the command's words; the last one pushed by a command of the panel
protocol is CFG as the program leaves it (42_panel_protocol.md R170 to R177, 41_shift_register.md R151). -/
def PushesItsWords (i : Instr) (s : State) : Prop :=
  wiresAhead i.fieldA (programOf i s).flatten s.seq.cfg = (wordsPushed i s.seq).flatMap pushEvents ∧
  (isPanel i.opcode = true → ∀ w, (wordsPushed i s.seq).getLast? = some w →
    cfgAhead (programOf i s).flatten s.seq.cfg = w)

theorem pushesItsWords_of_offWires {i : Instr} {s : State} (h : offWires (programOf i s).flatten = true)
    (hw : wordsPushed i s.seq = []) : PushesItsWords i s := by
  simp [PushesItsWords, hw, wiresAhead_of_offWires h]

theorem pushesItsWords (i : Instr) (s : State) (hi : ∀ n, i = .init n → s.seq.psm = .uninit) : PushesItsWords i s := by
  cases i
  case pginit | pgbusy | skip | swbuf | curbuf => exact pushesItsWords_of_offWires rfl rfl
  case emit h l w | emitus h l w => exact pushesItsWords_of_offWires (by cases w <;> rfl) rfl
  case push w =>
    simp (disch := decide) [PushesItsWords, programOf, pushProgram, wordsPushed, onWires_of_offWires, isPanel, Instr.opcode]
  case init n =>
    simp (disch := decide) [PushesItsWords, programOf, initProgram, wordsPushed, hi n rfl, onWires_of_offWires,
      cfgAfter_of_offWires, masks_eq]
  case pon | poff | poffa | sfrm | orow | efrm =>
    simp (disch := decide) [PushesItsWords, programOf, ponProgram, poffProgram, poffaProgram, sfrmProgram, orowProgram,
      efrmProgram, wordsPushed, onWires_of_offWires, cfgAfter_of_offWires, wiresAhead_of_offWires, cfgAhead_of_offWires,
      flagSet, flagClear, masks_eq, BitVec.or_assoc, BitVec.and_assoc, and_or_of_or, or_and_of_and]

/-! ### A run -/

/-- Whether an action can skip the rest of its line (40_pulse_generator.md R120, R122). -/
def Action.isGuard : Action → Bool
  | .emitGuard => true
  | .pgInitGuard => true
  | _ => false

def Action.isDone : Action → Bool
  | .done _ _ => true
  | _ => false

/-- A micro-step that can be cut short is one off the wires. -/
theorem programOf_guarded (i : Instr) (s : State) :
    (programOf i s).all (fun l => l.all (!·.isGuard) || offWires l) = true := by
  cases i with
  | emit h l w => cases w <;> rfl
  | emitus h l w => cases w <;> rfl
  | orow t => simp only [programOf, orowProgram]; cases s.params.orWait <;> rfl
  | _ => rfl

/-- No micro-step but the last answers. -/
theorem programOf_undone (i : Instr) (s : State) : (programOf i s).dropLast.all (·.all (!·.isDone)) = true := by
  cases i with
  | emit h l w => cases w <;> rfl
  | emitus h l w => cases w <;> rfl
  | orow t => simp only [programOf, orowProgram]; cases s.params.orWait <;> rfl
  | _ => rfl

/-- SEQ stands in a micro-step of its command's program. -/
theorem At.line {i : Instr} {l : Line} {ls : Program} {s : State} (h : At i (l :: ls) s) :
    ∃ k line, (programOf i s).drop k = line :: ls ∧ ∀ x ∈ l, x ∈ line := by
  obtain ⟨k, line, lines, -, hd, hp⟩ := h.place
  obtain ⟨rfl, rfl⟩ := List.cons.inj hp
  exact ⟨k, line, hd, fun _ => List.mem_of_mem_drop⟩

/-- What a guard skips is off the wires. -/
theorem At.offWires_of_guard {i : Instr} {x : Action} {xs : Line} {ls : Program} {s : State}
    (h : At i ((x :: xs) :: ls) s) (hx : x.isGuard = true) : offWires (x :: xs) = true := by
  obtain ⟨k, line, hd, hsub⟩ := h.line
  have hline : line ∈ programOf i s := List.mem_of_mem_drop (i := k) (by rw [hd]; exact List.mem_cons_self)
  rcases Bool.or_eq_true_iff.mp (List.all_eq_true.mp (programOf_guarded i s) line hline) with hg | ho
  · simpa [hx] using List.all_eq_true.mp hg x (hsub x List.mem_cons_self)
  · exact List.all_eq_true.mpr fun y hy => List.all_eq_true.mp ho y (hsub y hy)

/-- Nothing comes after `done`. -/
theorem At.done_last {i : Instr} {o : Opcode} {r : Response} {xs : Line} {ls : Program} {s : State}
    (h : At i ((.done o r :: xs) :: ls) s) (he : Ends ((.done o r :: xs) :: ls)) : xs = [] ∧ ls = [] := by
  cases ls with
  | nil =>
    obtain ⟨pre, o', r', hpre⟩ := he
    cases pre with
    | nil =>
      simp at hpre
      exact ⟨hpre.2, rfl⟩
    | cons _ _ => simp at hpre
  | cons m ms =>
    obtain ⟨k, line, hd, hsub⟩ := h.line
    have hline : line ∈ (programOf i s).dropLast := by
      refine List.mem_of_mem_drop (i := k) ?_
      rw [← List.dropLast_drop_eq_drop_dropLast, hd]
      exact List.mem_cons_self
    have hundone := List.all_eq_true.mp (List.all_eq_true.mp (programOf_undone i s) line hline) _ (hsub _ List.mem_cons_self)
    cases hundone

/-- With the actions `xs` ahead, `u` comes to the wire events `es` in all, and to `c` as CFG. -/
structure ComesTo (es : List Event) (c : Byte) (xs : List Action) (u : State) : Prop where
  wires : u.seqEvents.filter Event.onWires ++ wiresAhead u.seq.a xs u.seq.cfg = es
  cfg : cfgAhead xs u.seq.cfg = c

/-- It depends on the events of SEQ, the operand latch and CFG alone. -/
theorem ComesTo.of_eq {es : List Event} {c : Byte} {xs : List Action} {u v : State} (h : ComesTo es c xs u)
    (hev : v.seqEvents = u.seqEvents) (ha : v.seq.a = u.seq.a) (hc : v.seq.cfg = u.seq.cfg) : ComesTo es c xs v :=
  ⟨by rw [hev, ha, hc]; exact h.wires, by rw [hc]; exact h.cfg⟩

theorem ComesTo.afterAction {es : List Event} {c : Byte} {xs : List Action} {u : State} (h : ComesTo es c xs u) :
    ComesTo es c xs (afterAction u) :=
  h.of_eq (afterAction_seqEvents u) (by rw [afterAction_seq]) (by rw [afterAction_seq])

/-- An action that goes on makes the wire events it has ahead. -/
theorem ComesTo.go {es : List Event} {c : Byte} {x : Action} {xs : List Action} {u v : State}
    (h : ComesTo es c (x :: xs) u) (hd : doAction x u = .go v) : ComesTo es c xs (Machine.afterAction v) := by
  obtain ⟨b, hr, hev⟩ := doAction_go_acts hd
  have ha : v.seq.a = u.seq.a := (doAction_go_steady x u v hd).a
  have hc : v.seq.cfg = x.cfgAfter u.seq.cfg := by rw [hr, regsAfter_cfg]
  refine ComesTo.afterAction ⟨?_, by rw [hc]; exact h.cfg⟩
  rw [hev, List.filter_append, eventsAfter_onWires, ha, hc, List.append_assoc]
  exact h.wires

/-- What is off the wires can be left out. -/
theorem ComesTo.drop {es : List Event} {c : Byte} {xs ys : List Action} {u : State} (h : ComesTo es c (xs ++ ys) u)
    (hx : offWires xs = true) : ComesTo es c ys u := by
  obtain ⟨hw, hc⟩ := h
  rw [wiresAhead_append, wiresAhead_of_offWires hx, cfgAhead_of_offWires hx] at hw
  rw [cfgAhead_append, cfgAhead_of_offWires hx] at hc
  exact ⟨hw, hc⟩

theorem ComesTo.skip {es : List Event} {c : Byte} {x : Action} {xs ys : List Action} {u v : State}
    (h : ComesTo es c (x :: xs ++ ys) u) (hx : x.isGuard = true → offWires (x :: xs) = true)
    (hd : doAction x u = .skip v) : ComesTo es c ys (Machine.afterAction v) := by
  obtain ⟨rfl, -, rfl⟩ | ⟨rfl, -, rfl⟩ | ⟨rfl, -, rfl⟩ := doAction_skip x u v hd
  · exact (h.drop (hx rfl)).afterAction
  all_goals exact ((h.drop (hx rfl)).of_eq (v := flagMisuse u) rfl rfl rfl).afterAction

/-- The response is not on the wires. -/
theorem ComesTo.finish {es : List Event} {c : Byte} {u : State} (h : ComesTo es c [] u) (o : Opcode) (r : Response) :
    ComesTo es c [] (finish o r u) := by
  obtain ⟨hw, hc⟩ := h
  refine ⟨?_, by rw [finish_seq]; exact hc⟩
  rw [finish_seqEvents, List.filter_append, List.append_assoc]
  exact hw

/-- Whatever the budget, a run that ends its command has come to the wire events its program has ahead. -/
theorem run_comesTo {i : Instr} {l : Line} {ls : Program} {s : State} (ha : At i (l :: ls) s) (he : Ends (l :: ls))
    (hne : l ≠ [] ∨ ls ≠ []) {es : List Event} {c : Byte} (h : ComesTo es c (l :: ls).flatten s) :
    (runProgram (l :: ls) s).seq.seqOp = 0 → ComesTo es c [] (runProgram (l :: ls) s) :=
  have busy : ∀ {p : Program} {u v : State}, At i p u → v.seq.seqOp = u.seq.seqOp → v.seq.seqOp = 0 → ComesTo es c [] v :=
    fun hat hv h0 => absurd ((latchedInstr_code hat.instr).symm.trans (hv.symm.trans h0)) (code_ne_zero _)
  run_induct i (fun p u => ComesTo es c p.flatten u) (fun u => u.seq.seqOp = 0 → ComesTo es c [] u)
    (go := fun _ _ _ _ _ _ _ hI hd _ => hI.go hd)
    (skip := fun _ _ _ _ _ hat _ hI hd => hI.skip hat.offWires_of_guard hd)
    (next := fun _ _ _ _ hI _ => hI.of_eq rfl rfl rfl)
    (stop := fun x xs ls u v hat hend hI hd => by
      obtain hs | ⟨o, r, rfl, rfl⟩ := doAction_stop x u v hd
      · exact busy hat (by rw [hs.seq])
      · obtain ⟨rfl, rfl⟩ := hat.done_last hend
        exact fun _ => (hI.drop (xs := [.done o r]) rfl).finish o r)
    (pause := fun _ _ _ _ hat _ _ _ => busy hat rfl)
    ls l s ha he hne h

/-! ### A command -/

/-- From `s` to `t` command `i` has been performed with the wire events of its words; a receiver that saw SEQ's latches
sees them after it. -/
structure OnTheWires (i : Instr) (s t : State) (es : List Event) : Prop where
  events : t.seqEvents = s.seqEvents ++ es
  wires : es.filter Event.onWires = (wordsPushed i s.seq).flatMap pushEvents
  sees : ∀ r : Receiver, r.Sees s.seq → (r.after es).Sees t.seq
  cfg : isPanel i.opcode = true → ∀ w, (wordsPushed i s.seq).getLast? = some w → t.seq.cfg = w

/-- A second INIT pushes nothing (42_panel_protocol.md R162). -/
theorem ignoreSecondInit_onTheWires (n : Half) {s : State} (hp : s.seq.psm ≠ .uninit) :
    ∃ es, OnTheWires (.init n) s (closeStep (ignoreSecondInit (.init n) s)) es := by
  have hw : wordsPushed (.init n) s.seq = [] := if_neg hp
  refine ⟨_, ⟨ignoreSecondInit_seqEvents (.init n) s, by rw [hw]; rfl, fun r hr => ?_, by simp [hw]⟩⟩
  rw [closeStep_seq, ignoreSecondInit_seq]
  exact ⟨hr.data, hr.clk, hr.str⟩

theorem accept_seqEvents (i : Instr) (s : State) : (accept i (openStep s)).seqEvents = s.seqEvents := by
  simp [State.seqEvents, State.events]

/-- A command accepted in a fair run, a second INIT apart, has run its program to the end. -/
theorem startCommand_onTheWires {i : Instr} {s : State} (hwf : i.wf s.params.maxTicks = true) (hfair : s.fairRun = true)
    (hi : ∀ n, i = .init n → s.seq.psm = .uninit) :
    ∃ t es, startCommand i (programOf i s) s = .next t ∧ OnTheWires i s t es := by
  obtain ⟨l, ls, hp, ha, he, hne⟩ := at_accept i s (decode_encode hwf)
  obtain ⟨hahead, hlast⟩ := pushesItsWords i s hi
  have hg := going_accept i hfair
  obtain ⟨hidle, -⟩ := run_answered ha he hne (c := .free) ⟨hg.consistent, hg.inFlight⟩
    (fits_of_mem (s := s) (by rw [hp]; exact List.mem_cons_self)) hg.unhindered
  obtain ⟨es, hev, hcourse⟩ := run_follows ha he hne
  obtain ⟨hwires, hcfg⟩ := run_comesTo ha he hne ⟨rfl, rfl⟩ hidle
  have hlatch : (accept i (openStep s)).seq.a = i.fieldA ∧ (accept i (openStep s)).seq.cfg = s.seq.cfg := by
    simp [accept_seq]
  rw [accept_seqEvents] at hev
  rw [hp] at hahead hlast
  rw [hev, accept_seqEvents, hlatch.1, hlatch.2, hahead, List.filter_append, wiresAhead_nil, List.append_nil] at hwires
  rw [hlatch.2] at hcfg
  refine ⟨closeStep _, es, by rw [startCommand, hp], hev, List.append_cancel_left hwires, fun r hr => hcourse.sees ?_,
    fun hpanel w hw => hcfg.trans (hlast hpanel w hw)⟩
  rw [accept_seq]
  exact ⟨hr.data, hr.clk, hr.str⟩

/-- Every command of a fair run completes with its words on the wires. -/
theorem exec_onTheWires {i : Instr} {s : State} (hwf : i.wf s.params.maxTicks = true) (hfair : s.fairRun = true) :
    ∃ t es, exec i s = .next t ∧ OnTheWires i s t es := by
  rw [exec_eq]
  split
  · next h =>
    obtain ⟨⟨n, rfl⟩, hp⟩ := h
    obtain ⟨es, hes⟩ := ignoreSecondInit_onTheWires n hp
    exact ⟨_, es, rfl, hes⟩
  · next h => exact startCommand_onTheWires hwf hfair fun n hn => of_not_not fun hp => h ⟨⟨n, hn⟩, hp⟩

/-- Settles O30: the frames seen on the wires are those of the pushes, one a word. -/
theorem bitOrderOnTheWires : Obligations.BitOrderOnTheWires := by
  unfold Obligations.BitOrderOnTheWires
  intro i s hwf hfair
  obtain ⟨t, es, ht, h⟩ := exec_onTheWires hwf hfair
  refine ⟨t, es, ht, h.events, ?_⟩
  rw [← pushedBits_filter, h.wires, pushedBits_pushEvents]
  rfl

/-- A receiver is told by the words alone. -/
theorem OnTheWires.receiver {i : Instr} {s t : State} {es : List Event} (h : OnTheWires i s t es) (r : Receiver) :
    r.after es = ((wordsPushed i s.seq).getLast?.map Receiver.holding).getD r := by
  rw [← Receiver.after_filter, h.wires, Receiver.after_pushes]

/-- Settles O31: the receiver forgets everything but the last push, and a panel command pushes CFG after its last change. -/
theorem receiverLatchHoldsTheWord : Obligations.ReceiverLatchHoldsTheWord := by
  unfold Obligations.ReceiverLatchHoldsTheWord
  intro i s r hwf hfair
  obtain ⟨t, es, ht, h⟩ := exec_onTheWires hwf hfair
  have hlatch : (r.after es).latch = (wordsPushed i s.seq).getLast?.getD r.latch := by
    rw [h.receiver]
    cases (wordsPushed i s.seq).getLast? <;> rfl
  refine ⟨t, es, ht, h.events, hlatch, fun hpanel hne => ?_⟩
  have hlast := List.getLast?_eq_some_getLast hne
  rw [hlatch, hlast, h.cfg hpanel _ hlast]
  rfl

/-- Settles O32: the latches are what a receiver sees that saw them before, and after a push it sees the wires at rest. -/
theorem restingLevelsOfTheWires : Obligations.RestingLevelsOfTheWires := by
  unfold Obligations.RestingLevelsOfTheWires
  intro i s hwf hfair
  obtain ⟨t, es, ht, h⟩ := exec_onTheWires hwf hfair
  let r : Receiver := ⟨0, 0, s.seq.cfgData, s.seq.cfgClk, s.seq.cfgStr⟩
  obtain ⟨hdata, hclk, hstr⟩ := h.sees r ⟨rfl, rfl, rfl⟩
  rw [h.receiver] at hdata hclk hstr
  refine ⟨t, ht, ?_⟩
  cases hl : (wordsPushed i s.seq).getLast? <;> rw [hl] at hdata hclk hstr <;> exact ⟨hstr.symm, hclk.symm, hdata.symm⟩

end Sys2Proof.Machine
end

section
/-! Rail safety (42_panel_protocol.md R180): along every command's program CFG stays rail-safe, whatever rail-safe word it
begins with. Only the actions that write CFG count, and a run leaves of the values ahead those that are still to come. -/

namespace Sys2Proof.Machine

/-! ### The values CFG takes -/

/-- Whether an action writes CFG. -/
def Action.writesCfg : Action → Bool
  | .cfgPut _ => true
  | .cfgSet _ => true
  | .cfgClear _ => true
  | _ => false

theorem cfgAfter_of_not_writesCfg {x : Action} (h : x.writesCfg = false) (c : Byte) : x.cfgAfter c = c := by
  cases x
  case cfgPut | cfgSet | cfgClear => cases h
  all_goals rfl

/-- From a rail-safe word only the writing actions count. -/
theorem railsAhead_filter {c : Byte} (hc : railSafe c = true) (xs : List Action) :
    railsAhead (xs.filter Action.writesCfg) c = railsAhead xs c := by
  induction xs generalizing c with
  | nil => rfl
  | cons x xs ih =>
    cases hx : x.writesCfg with
    | true =>
      rw [List.filter_cons_of_pos hx, railsAhead, railsAhead]
      cases hs : railSafe (x.cfgAfter c) with
      | true => rw [ih hs]
      | false => rfl
    | false =>
      rw [List.filter_cons_of_neg (by simp [hx]), railsAhead, cfgAfter_of_not_writesCfg hx, hc, Bool.true_and, ih hc]

theorem railsAhead_append (xs ys : List Action) (c : Byte) :
    railsAhead (xs ++ ys) c = (railsAhead xs c && railsAhead ys (cfgAhead xs c)) := by
  induction xs generalizing c with
  | nil => rfl
  | cons x xs ih => rw [List.cons_append, railsAhead, ih, railsAhead, cfgAhead_cons, Bool.and_assoc]

/-- What the commands do to CFG, in order (42_panel_protocol.md R170 to R177). -/
def cfgWrites : Opcode → List Action
  | .init => [.cfgPut cfgInit]
  | .pon => [.cfgSet maskDir, .cfgClear maskPwrdis, .cfgSet maskNeg, .cfgSet maskPos, .cfgSet maskSof]
  | .poff => [.cfgClear maskPos, .cfgClear maskNeg, .cfgSet maskPwrdis, .cfgClear maskSof]
  | .poffa => [.cfgPut 0]
  | .sfrm => [.cfgSet maskMode, .cfgClear maskSof, .cfgSet maskSof, .cfgSet maskOe]
  | .orow => [.cfgSet maskLe, .cfgClear maskLe]
  | .efrm => [.cfgClear maskOe, .cfgClear maskMode]
  | .pginit | .emit | .emitus | .pgbusy | .push | .skip | .swbuf | .curbuf => []

theorem programOf_cfgWrites (i : Instr) (s : State) :
    (programOf i s).flatten.filter Action.writesCfg = cfgWrites i.opcode := by
  cases i with
  | emit h l w => cases w <;> rfl
  | emitus h l w => cases w <;> rfl
  | orow t => simp only [programOf, orowProgram]; cases s.params.orWait <;> rfl
  | _ => rfl

/-- Rail safety speaks of the bits PWRDIS, POS and NEG alone. -/
theorem railSafe_iff (w : Byte) :
    railSafe w = true ↔ (w[2] = true → w[3] = true) ∧ (w[2] = true ∨ w[3] = true → w[1] = false) := by
  simp [railSafe]
  grind

/-- In the order in which each command sets and clears its flags the word stays rail-safe. -/
theorem railsAhead_cfgWrites (o : Opcode) {c : Byte} (hc : railSafe c = true) : railsAhead (cfgWrites o) c = true := by
  obtain ⟨hpos, hdis⟩ := (railSafe_iff c).mp hc
  cases o
  case pon | poff | sfrm | orow | efrm =>
    simp [cfgWrites, railsAhead, railSafe_iff, flagSet, flagClear, masks_eq]
    tauto
  case init | poffa => simp [cfgWrites, railsAhead, railSafe_iff, masks_eq]
  all_goals rfl

theorem railsAhead_programOf (i : Instr) (s : State) {c : Byte} (hc : railSafe c = true) :
    railsAhead (programOf i s).flatten c = true := by
  rw [← railsAhead_filter hc, programOf_cfgWrites]
  exact railsAhead_cfgWrites i.opcode hc

/-! ### A run -/

/-- CFG is rail-safe, and is so after each of the actions `xs`. -/
structure OnRails (xs : List Action) (s : State) : Prop where
  now : railSafe s.seq.cfg = true
  ahead : railsAhead xs s.seq.cfg = true

theorem railOk_iff (s : State) : s.railOk = true ↔ OnRails (remaining s).flatten s := by
  rw [State.railOk, Bool.and_eq_true]
  exact ⟨fun ⟨h, k⟩ => ⟨h, k⟩, fun ⟨h, k⟩ => ⟨h, k⟩⟩

/-- An idle SEQ has nothing ahead (10_state.md R25). -/
theorem remaining_idle {s : State} (h : s.seq.seqOp = 0) : remaining s = [] := by
  cases hr : remaining s with
  | nil => rfl
  | cons l ls =>
    obtain ⟨i, x, xs, -, ha, -⟩ := at_of_remaining hr
    exact absurd ((latchedInstr_code ha.instr).symm.trans h) (code_ne_zero _)

theorem railOk_idle {s : State} (h : s.seq.seqOp = 0) : s.railOk = true ↔ railSafe s.seq.cfg = true := by
  rw [railOk_iff, remaining_idle h]
  exact ⟨fun k => k.now, fun k => ⟨k, rfl⟩⟩

theorem OnRails.of_cfg {xs : List Action} {s t : State} (h : OnRails xs s) (hc : t.seq.cfg = s.seq.cfg) : OnRails xs t :=
  ⟨by rw [hc]; exact h.now, by rw [hc]; exact h.ahead⟩

/-- An action that goes on takes CFG to the next value ahead. -/
theorem OnRails.go {x : Action} {xs : List Action} {s t : State} (h : OnRails (x :: xs) s) (hd : doAction x s = .go t) :
    OnRails xs (afterAction t) := by
  obtain ⟨b, hr, -⟩ := doAction_go_acts hd
  have hc : (afterAction t).seq.cfg = x.cfgAfter s.seq.cfg := by rw [afterAction_seq, hr, regsAfter_cfg]
  obtain ⟨hx, hxs⟩ := Bool.and_eq_true_iff.mp h.ahead
  exact ⟨by rw [hc]; exact hx, by rw [hc]; exact hxs⟩

/-- What leaves CFG alone can be left out. -/
theorem OnRails.drop {xs ys : List Action} {s : State} (h : OnRails (xs ++ ys) s) (hx : offWires xs = true) :
    OnRails ys s := by
  have ha := h.ahead
  rw [railsAhead_append, cfgAhead_of_offWires hx, Bool.and_eq_true] at ha
  exact ⟨h.now, ha.2⟩

theorem doAction_skip_cfg {x : Action} {s t : State} (h : doAction x s = .skip t) :
    x.isGuard = true ∧ (afterAction t).seq.cfg = s.seq.cfg := by
  rw [afterAction_seq]
  obtain ⟨rfl, -, rfl⟩ | ⟨rfl, -, rfl⟩ | ⟨rfl, -, rfl⟩ := doAction_skip x s t h <;> exact ⟨rfl, rfl⟩

/-- Wherever a run stops, the values still ahead are rail-safe. -/
theorem doAction_stop_railOk {i : Instr} {x : Action} {xs : Line} {ls : Program} {s t : State}
    (ha : At i ((x :: xs) :: ls) s) (h : OnRails ((x :: xs) :: ls).flatten s) (hd : doAction x s = .stop t) :
    t.railOk = true := by
  obtain hs | ⟨o, r, -, rfl⟩ := doAction_stop x s t hd
  · rw [railOk_iff, hs.remaining, ha.remaining]
    exact h.of_cfg (congrArg _ hs.seq)
  · have hseq := finish_seq o r s
    rw [railOk_idle (by rw [hseq]; rfl), hseq]
    exact h.now

/-- Whatever the budget, a run that begins with rail-safe values ahead ends so. -/
theorem run_railOk {i : Instr} {l : Line} {ls : Program} {s : State} (ha : At i (l :: ls) s) (he : Ends (l :: ls))
    (hne : l ≠ [] ∨ ls ≠ []) (h : OnRails (l :: ls).flatten s) : (runProgram (l :: ls) s).railOk = true :=
  run_induct i (fun p u => OnRails p.flatten u) (fun u => u.railOk = true)
    (go := fun _ _ _ _ _ _ _ hI hd _ => hI.go hd)
    (skip := fun _ _ _ _ _ hat _ hI hd => by
      obtain ⟨hguard, hcfg⟩ := doAction_skip_cfg hd
      exact (hI.drop (hat.offWires_of_guard hguard)).of_cfg hcfg)
    (next := fun _ _ _ _ hI _ => hI.of_cfg rfl)
    (stop := fun _ _ _ _ _ hat _ hI hd => doAction_stop_railOk hat hI hd)
    (pause := fun _ _ _ _ hat _ hI _ => by rw [railOk_iff, hat.remaining]; exact hI)
    ls l s ha he hne h

/-! ### A step -/

theorem closeStep_railOk {s : State} (h : s.railOk = true) : (closeStep s).railOk = true := h

/-- A step with `rst` low keeps the values ahead rail-safe. -/
theorem step_railOk {s t : State} (h : s.railOk = true) (hr : s.env.rst.head = false) (hs : step s = .next t) :
    t.railOk = true := by
  have hsafe := ((railOk_iff s).mp h).now
  cases stepped hr hs with
  | idle hop _ =>
    have hseq := (elapse_still 1 s.takeRst.dropCmd).seq
    rw [railOk_idle (by rw [hseq]; exact hop), hseq]
    exact hsafe
  | illegal c e hop _ _ =>
    rw [railOk_idle (by simpa using hop)]
    simpa using hsafe
  | second c n hop _ _ _ =>
    refine closeStep_railOk ((railOk_idle ?_).mpr ?_)
    · simpa [ignoreSecondInit_seq] using hop
    · simpa [ignoreSecondInit_seq] using hsafe
  | command c i l ls _ _ _ _ hp ha he hne =>
    have hcfg := congrArg SeqRegs.cfg (begun_state i s).1
    refine closeStep_railOk (run_railOk ha he hne ⟨?_, ?_⟩)
    · rw [hcfg]
      exact hsafe
    · rw [hcfg, ← hp]
      exact railsAhead_programOf i s hsafe
  | busy i x xs ls _ hrem ha he =>
    have hahead := (railOk_iff s).mp h
    rw [hrem] at hahead
    exact closeStep_railOk (run_railOk ha he (.inl (List.cons_ne_nil x xs)) (hahead.of_cfg rfl))

/-- Settles O16: a run takes CFG through the values ahead only, a command begins with rail-safe ones, and a reset turns
both rails off. -/
theorem railsStaySafe : Obligations.RailsStaySafe := by
  unfold Obligations.RailsStaySafe
  intro s t h hs
  cases hr : s.env.rst.head with
  | false => exact step_railOk h hr hs
  | true =>
    rw [step_rst hr hs]
    exact (railOk_idle rfl).mpr (by rw [applyReset_seq]; decide)

/-! ### The words pushed -/

/-- From a rail-safe word a command but PUSH pushes rail-safe words only. -/
theorem wordsPushed_railSafe {i : Instr} {r : SeqRegs} (hi : i.opcode ≠ .push) (hc : railSafe r.cfg = true) :
    ∀ w ∈ wordsPushed i r, railSafe w = true := by
  obtain ⟨hpos, hdis⟩ := (railSafe_iff r.cfg).mp hc
  cases i
  case push => exact absurd rfl hi
  case init n =>
    simp only [wordsPushed]
    split <;> simp [railSafe_iff]
  case poffa => simp [wordsPushed, railSafe_iff]
  case pon | poff | sfrm | orow | efrm =>
    simp [wordsPushed, railSafe_iff]
    tauto
  all_goals exact fun _ hw => absurd hw List.not_mem_nil

/-- At every grain a command accepted with a rail-safe CFG leaves one. -/
theorem exec_railSafe {i : Instr} {s t : State} (hwf : i.wf s.params.maxTicks = true) (hc : railSafe s.seq.cfg = true)
    (ht : exec i s = .next t) : railSafe t.seq.cfg = true := by
  rw [exec_eq] at ht
  split at ht
  · cases ht
    rw [closeStep_seq, ignoreSecondInit_seq]
    exact hc
  · obtain ⟨l, ls, hp, ha, he, hne⟩ := at_accept i s (decode_encode hwf)
    have hcfg : (accept i (openStep s)).seq.cfg = s.seq.cfg := by simp [accept_seq]
    have hahead := railsAhead_programOf i s hc
    rw [hp] at ht hahead
    cases ht
    exact ((railOk_iff _).mp (run_railOk ha he hne ⟨by rw [hcfg]; exact hc, by rw [hcfg]; exact hahead⟩)).now

/-- Settles O46: on the wires are the command's words, and these and the CFG it leaves are rail-safe. -/
theorem pushedWordsAreRailSafe : Obligations.PushedWordsAreRailSafe := by
  unfold Obligations.PushedWordsAreRailSafe
  intro i s hwf hi hfair hc
  obtain ⟨t, es, ht, h⟩ := exec_onTheWires hwf hfair
  refine ⟨t, es, ht, h.events, exec_railSafe hwf hc ht, fun bits hb => ?_⟩
  rw [← pushedBits_filter, h.wires, pushedBits_pushEvents] at hb
  obtain ⟨w, hw, rfl⟩ := List.mem_map.mp hb
  exact ⟨w, rfl, wordsPushed_railSafe hi hc w hw⟩

end Sys2Proof.Machine
end

section
/-! The commands of the panel protocol as lists of phases (42_panel_protocol.md R171 to R178): a plain action, a `Push` of
CFG, a delay, `WaitIdle`, an `Emit`. What each phase does to SEQ's registers and events is said once, and one induction over
the phases gives the end of the command. -/

namespace Sys2Proof.Machine

/-! ### Phases -/

/-- A micro-step of a panel command. -/
inductive Phase
  /-- One plain action. -/
  | act (x : Action)
  /-- `Push(CFG)` (41_shift_register.md R150). -/
  | push
  /-- `Delay(n)` (42_panel_protocol.md R166). -/
  | delay (n : Half)
  /-- `WaitIdle` (42_panel_protocol.md R160). -/
  | waitIdle
  /-- `Emit(h, l, w)` (40_pulse_generator.md R122). -/
  | emit (h l : Half) (w : Bool)

/-- The actions of a phase. -/
def Phase.line : Phase → Line
  | .act x => [x]
  | .push => pushLine .cfg
  | .delay n => delayLine n
  | .waitIdle => [.waitIdle]
  | .emit h l w => emitLine h l w

/-- SEQ's registers after a phase. -/
def Phase.regs : Phase → SeqRegs → SeqRegs
  | .act x, r => x.regsAfter false r
  | .push, r => afterPush r.cfg r
  | .delay _, r => r
  | .waitIdle, r => r
  | .emit h l _, r => afterEmit h l r

/-- The events SEQ adds in a phase. -/
def Phase.events : Phase → SeqRegs → List Event
  | .act x, r => x.eventsAfter false r
  | .push, r => pushEvents r.cfg
  | .delay n, _ => [.delay n]
  | .waitIdle, _ => []
  | .emit h l _, r => pulseEvents r.pgSt h l

/-- The events of the pulse a phase starts on a generator of status `st`. -/
def Phase.pulses (st : PgSt) : Phase → List Event
  | .emit _ _ _ => pulseTale st
  | _ => []

/-- Whether no pulse is in flight after a phase, given whether one was before. -/
def Phase.settled (st : PgSt) (q : Bool) : Phase → Bool
  | .waitIdle => true
  | .emit _ _ w => if st = .ready then w else q
  | _ => q

/-- The ticks a phase takes at least. -/
def Phase.ticks : Phase → Nat
  | .delay n => n.toNat
  | _ => 0

/-- Whether a phase leaves DLY_CNT expired. -/
def Phase.isDelay : Phase → Bool
  | .delay _ => true
  | _ => false

/-- The plain actions of the panel protocol after INIT: they read no input, and leave PSM and the generator alone. -/
def Action.simple : Action → Bool
  | .pick => true
  | .cfgPut _ => true
  | .cfgSet _ => true
  | .cfgClear _ => true
  | .pinOut _ _ => true
  | .busStart => true
  | .busSwitch => true
  | _ => false

/-- What a phase needs to end, with no pulse in flight before it when `q` is true. -/
def Phase.Ready (s : State) (q : Bool) : Phase → Prop
  | .act x => x.simple = true
  | .waitIdle => s.pge.consistent = true ∧ s.env.busSettles = true ∧ (s.env.notifies = true ∨ q = true)
  | .emit _ _ w => s.pge.consistent = true ∧ (s.env.notifies = true ∨ (q = true ∧ w = false))
  | _ => True

/-- Each phase of the list finds what it needs. -/
def Prepared (s : State) : Bool → List Phase → Prop
  | _, [] => True
  | q, p :: ps => p.Ready s q ∧ Prepared s (p.settled s.seq.pgSt q) ps

/-- SEQ's registers after all the phases. -/
def phasesRegs (ps : List Phase) (r : SeqRegs) : SeqRegs := ps.foldl (fun r p => p.regs r) r

/-- The events SEQ adds in all the phases. -/
def phasesEvents : List Phase → SeqRegs → List Event
  | [], _ => []
  | p :: ps, r => p.events r ++ phasesEvents ps (p.regs r)

/-! ### One phase -/

theorem plainView_simple {x : Action} (h : x.simple = true) (v : View) :
    plainView x v = some { v with regs := x.regsAfter false v.regs, events := v.events ++ x.eventsAfter false v.regs } := by
  cases x
  case pick | cfgPut | cfgSet | cfgClear =>
    exact congrArg some (congrArg (View.mk _ · _ _) (List.append_nil v.events).symm)
  case pinOut | busStart | busSwitch => rfl
  all_goals cases h

/-- A later state is prepared for what the earlier one was prepared for. -/
theorem Phase.Ready.goes {es : List Event} {s t : State} {q : Bool} {p : Phase} (h : p.Ready s q) (g : Goes es s t) :
    p.Ready t q := by
  cases p
  case waitIdle =>
    obtain ⟨hc, hs, hn⟩ := h
    exact ⟨g.consistent hc, by rw [g.settles]; exact hs, hn.imp_left g.notifies⟩
  case emit =>
    obtain ⟨hc, hn⟩ := h
    exact ⟨g.consistent hc, hn.imp_left g.notifies⟩
  all_goals exact h

theorem Prepared.goes {es : List Event} {s t : State} {ps : List Phase} (g : Goes es s t)
    (hst : t.seq.pgSt = s.seq.pgSt) : ∀ {q : Bool}, Prepared s q ps → Prepared t q ps := by
  induction ps with
  | nil => exact fun _ => trivial
  | cons p ps ih => exact fun h => ⟨h.1.goes g, by rw [hst]; exact ih h.2⟩

/-- From `s` the phases `ps` lead to `t`. -/
structure Passed (ps : List Phase) (q : Bool) (s t : State) : Prop where
  stage : Stage (ps.map Phase.line) (ps.flatMap (Phase.pulses s.seq.pgSt)) s t { s.view with
    regs := phasesRegs ps s.view.regs, events := s.view.events ++ phasesEvents ps s.view.regs }
  quiet : ps.foldl (Phase.settled s.seq.pgSt) q = true → t.pge.quiet
  ticks : s.now + (ps.map Phase.ticks).sum ≤ t.now
  dly : ps.any Phase.isDelay = true → t.dlyCnt = 0

theorem simple_pgSt {x : Action} (h : x.simple = true) (b : Bool) (r : SeqRegs) : (x.regsAfter b r).pgSt = r.pgSt := by
  cases x
  case pinOut p _ => cases p <;> rfl
  case pick | cfgPut | cfgSet | cfgClear | busStart | busSwitch => rfl
  all_goals cases h

theorem Phase.Ready.pgSt {s : State} {q : Bool} {p : Phase} (h : p.Ready s q) (r : SeqRegs) :
    (p.regs r).pgSt = r.pgSt := by
  cases p
  case act x => exact simple_pgSt h false r
  case emit => exact afterEmit_pgSt _ _ r
  all_goals rfl

/-- A calm stage of one micro-step is a phase that leaves the engine as it was. -/
theorem Passed.calm {p : Phase} {q : Bool} {s t : State} (hp : p.pulses s.seq.pgSt = [])
    (h : Stage [p.line] [] s t { s.view with
      regs := p.regs s.view.regs, events := s.view.events ++ p.events s.view.regs })
    (hq : p.settled s.seq.pgSt q = true → t.pge.quiet) (ht : s.now + p.ticks ≤ t.now)
    (hd : p.isDelay = true → t.dlyCnt = 0) : Passed [p] q s t where
  stage := by simpa [hp, phasesRegs, phasesEvents] using h
  quiet := hq
  ticks := by simpa using ht
  dly := by simpa using hd

theorem quiet_of_calm {s t : State} (h : Calm s t) (hq : s.pge.quiet) : t.pge.quiet := by
  rw [(h.idle hq.1 rfl).1]
  exact hq

theorem view_pgSt (s : State) : s.view.regs.pgSt = s.seq.pgSt := rfl

/-- A phase that finds what it needs ends. -/
theorem passed_one {p : Phase} {q : Bool} {s : State} (hb : s.budget = none) (hq : q = true → s.pge.quiet)
    (h : p.Ready s q) : ∃ t, Passed [p] q s t := by
  cases p
  case act x =>
    obtain ⟨t, ht⟩ := stage_plain [x] s _ hb (by rw [plainViews, plainView_simple h]; rfl)
    exact ⟨t, .calm rfl ht (fun hs => quiet_of_calm ht.goes (hq hs)) ht.goes.now nofun⟩
  case push =>
    obtain ⟨t, ht⟩ := stage_push .cfg s hb
    exact ⟨t, .calm rfl ht (fun hs => quiet_of_calm ht.goes (hq hs)) ht.goes.now nofun⟩
  case delay n =>
    obtain ⟨t, ht, hd, hn⟩ := stage_delay n s hb
    exact ⟨t, .calm rfl ht (fun hs => quiet_of_calm ht.goes (hq hs)) hn fun _ => hd⟩
  case waitIdle =>
    obtain ⟨hc, hs, hn⟩ := h
    obtain ⟨t, ht, hquiet⟩ := stage_waitIdle s hb hc (hn.imp_right fun h => (hq h).2) hs
    exact ⟨t, .calm rfl (by simpa [Phase.line, Phase.regs, Phase.events] using ht) (fun _ => hquiet) ht.goes.now nofun⟩
  case emit d l w =>
    obtain ⟨hc, hn⟩ := h
    obtain ⟨t, ht, hquiet⟩ := stage_emit d l w s hb hc (hn.imp_right fun h => ⟨(hq h.1).2, h.2⟩)
    refine ⟨t, ⟨?_, fun hs => ?_, ht.goes.now, nofun⟩⟩
    · simpa [Phase.line, Phase.regs, Phase.events, Phase.pulses, phasesRegs, phasesEvents, view_pgSt] using ht
    · simp only [List.foldl, Phase.settled] at hs
      split at hs
      · next hr => exact hquiet hs hr
      · next hr =>
        have hcalm := ht.goes
        rw [view_pgSt, pulseTale, if_neg hr] at hcalm
        exact quiet_of_calm hcalm (hq hs)

/-! ### A list of phases -/

theorem Passed.nil {q : Bool} {s : State} (hq : q = true → s.pge.quiet) : Passed [] q s s where
  stage := by simpa [phasesRegs, phasesEvents] using Stage.nil s
  quiet := hq
  ticks := Nat.le_refl _
  dly := nofun

theorem Passed.cons {p : Phase} {ps : List Phase} {q : Bool} {s t u : State} (hst : t.seq.pgSt = s.seq.pgSt)
    (h : Passed [p] q s t) (k : Passed ps (p.settled s.seq.pgSt q) t u) : Passed (p :: ps) q s u where
  stage := by
    have hk := k.stage
    rw [h.stage.view, hst] at hk
    simpa [phasesRegs, phasesEvents] using h.stage.trans hk
  quiet := by
    have hk := k.quiet
    rw [hst] at hk
    exact hk
  ticks := by
    have h1 := h.ticks
    have h2 := k.ticks
    simp only [List.map_cons, List.map_nil, List.sum_cons, List.sum_nil] at h1 ⊢
    omega
  dly := fun hd => by
    rcases Bool.or_eq_true_iff.mp hd with hp | hps
    · exact k.stage.goes.dly (h.dly (by simpa using hp))
    · exact k.dly hps

/-- Phases that find what they need all end. -/
theorem passed_phases (ps : List Phase) : ∀ {q : Bool} {s : State}, s.budget = none → (q = true → s.pge.quiet) →
    Prepared s q ps → ∃ t, Passed ps q s t := by
  induction ps with
  | nil => exact fun _ hq _ => ⟨_, .nil hq⟩
  | cons p ps ih =>
    intro q s hb hq h
    obtain ⟨hp, hps⟩ := h
    obtain ⟨t, ht⟩ := passed_one hb hq hp
    have hst : t.seq.pgSt = s.seq.pgSt := (pgSt_of_view ht.stage.view).trans (hp.pgSt s.view.regs)
    obtain ⟨u, hu⟩ := ih (ht.stage.goes.budget hb) ht.quiet (hps.goes ht.stage.goes hst)
    exact ⟨u, ht.cons hst hu⟩

/-! ### A command -/

/-- SEQ's registers with command `o` in execution and PSM at `m`; the position is told by the run. -/
def inExecution (o : Opcode) (m : Psm) (r : SeqRegs) : SeqRegs :=
  { r with psm := m, seqOp := o.code, seqStep := 0, seqSub := 0 }

/-- No phase looks at PSM or at SEQ_OP, or changes them. -/
theorem Phase.Ready.inExecution {s : State} {q : Bool} {p : Phase} (h : p.Ready s q) (o : Opcode) (m : Psm)
    (r : SeqRegs) :
    p.regs (inExecution o m r) = Machine.inExecution o m (p.regs r) ∧ p.events (Machine.inExecution o m r) = p.events r := by
  cases p
  case act x =>
    cases x
    case pinOut p _ => cases p <;> exact ⟨rfl, rfl⟩
    case pick | cfgPut | cfgSet | cfgClear | busStart | busSwitch => exact ⟨rfl, rfl⟩
    all_goals cases h
  case emit d l w => exact ⟨by simp [Phase.regs, Machine.inExecution, afterEmit_eq], rfl⟩
  all_goals exact ⟨rfl, rfl⟩

theorem phases_inExecution {s : State} (o : Opcode) (m : Psm) (ps : List Phase) : ∀ {q : Bool} (r : SeqRegs),
    Prepared s q ps → phasesRegs ps (inExecution o m r) = inExecution o m (phasesRegs ps r) ∧
      phasesEvents ps (inExecution o m r) = phasesEvents ps r := by
  induction ps with
  | nil => exact fun _ _ => ⟨rfl, rfl⟩
  | cons p ps ih =>
    intro q r h
    obtain ⟨hr, he⟩ := h.1.inExecution o m r
    obtain ⟨ihr, ihe⟩ := ih (p.regs r) h.2
    exact ⟨by rw [phasesRegs, List.foldl_cons, hr]; exact ihr, by rw [phasesEvents, he, hr, ihe]; rfl⟩

/-- Acceptance in a whole-command step is calm. -/
theorem accept_calm (i : Instr) {s : State} (hg : s.grain = none) : Calm s (accept i (openStep s)) where
  params := by simp
  grain := by simp
  budget := fun _ => accept_unlimited i hg
  held := by simp
  tale := fun _ => by simp [State.pgeTale, State.pgeEvents, State.events]
  consistent := by simp
  notifies := by simp
  idle := fun _ _ => by simp [State.pgeEvents, State.events]
  dly := by simp
  now := by simp

/-- From `s` to `t` command `i` has been performed in the phases `ps`, with no pulse in flight at first when `q` is true,
and answered (0, 0). -/
structure Performed (i : Instr) (ps : List Phase) (q : Bool) (s t : State) : Prop where
  seq : t.seq = idleAfter (psmAfter i.opcode (psmDuring i.opcode s.seq.psm)) (phasesRegs ps (acceptedRegs i s.seq))
  seqEvents : t.seqEvents = s.seqEvents ++ phasesEvents ps (acceptedRegs i s.seq) ++ [.rsp 0 0]
  completed : Completed (ps.flatMap (Phase.pulses s.seq.pgSt)) s t
  quiet : ps.foldl (Phase.settled s.seq.pgSt) q = true → t.pge.quiet
  ticks : s.now + (ps.map Phase.ticks).sum ≤ t.now
  dly : ps.any Phase.isDelay = true → t.dlyCnt = 0

/-- A command made of phases that find what they need. -/
theorem command_of_phases (i : Instr) (ps : List Phase) {q : Bool} {s : State} (hg : s.grain = none)
    (hq : q = true → s.pge.quiet) (h : Prepared s q ps) :
    ∃ t, startCommand i (ps.map Phase.line ++ [[.done i.opcode .plain]]) s = .next t ∧ Performed i ps q s t := by
  have hst : (accept i (openStep s)).seq.pgSt = s.seq.pgSt := by simp [accept_seq]
  obtain ⟨u, hstage, hquiet, hticks, hdly⟩ := passed_phases ps (accept_unlimited i hg) (fun h => by simpa using hq h)
    (h.goes (accept_calm i hg) hst)
  obtain ⟨hregs, hevents⟩ := phases_inExecution i.opcode (psmDuring i.opcode s.seq.psm) ps (acceptedRegs i s.seq) h
  rw [accept_view, hst] at hstage
  obtain ⟨t, ht, hseq, hev, hcomp, hcalm⟩ := command_done i i.opcode .plain _ _ s u _ hg hstage
  refine ⟨t, ht, ⟨?_, ?_, hcomp, fun hs => quiet_of_calm hcalm (hquiet (by rw [hst]; exact hs)), ?_, fun hd =>
    hcalm.dly (hdly hd)⟩⟩
  · rw [hseq]
    exact (congrArg (fun r => idleAfter (psmAfter i.opcode r.psm) r) hregs)
  · rw [hev]
    exact congrArg (s.seqEvents ++ · ++ [.rsp 0 0]) hevents
  · have hn := hcalm.now
    simp only [accept_now, openStep_now] at hticks
    omega

end Sys2Proof.Machine
end

section
/-! The panel commands after INIT (42_panel_protocol.md R171 to R179). All but CURBUF, whose response samples the pointer, are
lists of phases and a plain response; what the phases of each come to is computed by the lemmas on phases. -/

namespace Sys2Proof.Machine

/-! ### What phases come to -/

/-- SEQ's registers after CFG has been set to `c` and pushed. -/
def pushed (c : Byte) (r : SeqRegs) : SeqRegs := afterPush c { r with cfg := c }

@[simp] theorem pushed_cfg (c : Byte) (r : SeqRegs) : (pushed c r).cfg = c := rfl
@[simp] theorem pushed_pgSt (c : Byte) (r : SeqRegs) : (pushed c r).pgSt = r.pgSt := rfl
@[simp] theorem pushed_pushed (c d : Byte) (r : SeqRegs) : pushed c (pushed d r) = pushed c r := rfl

/-- `Emit` and `Push` write different registers. -/
@[simp] theorem pushed_afterEmit (h l : Half) (c : Byte) (r : SeqRegs) :
    pushed c (afterEmit h l r) = afterEmit h l (pushed c r) := by
  simp [afterEmit_eq, pushed, afterPush]

/-- Of several symbols programmed the last one stays (30_encoding.md R96). -/
@[simp] theorem afterEmit_afterEmit (h l h' l' : Half) (r : SeqRegs) :
    afterEmit h l (afterEmit h' l' r) = afterEmit h l r := by
  simp only [afterEmit_eq]
  by_cases hr : r.pgSt = .ready <;> simp [hr]

@[simp] theorem phases_nil (r : SeqRegs) : phasesRegs [] r = r ∧ phasesEvents [] r = [] := ⟨rfl, rfl⟩

/-- A change of CFG with its push. -/
theorem phases_pushed {x : Action} (hx : x.writesCfg = true) (ps : List Phase) (r : SeqRegs) :
    phasesRegs (.act x :: .push :: ps) r = phasesRegs ps (pushed (x.cfgAfter r.cfg) r) ∧
      phasesEvents (.act x :: .push :: ps) r =
        pushEvents (x.cfgAfter r.cfg) ++ phasesEvents ps (pushed (x.cfgAfter r.cfg) r) := by
  cases x
  case cfgPut | cfgSet | cfgClear => exact ⟨rfl, rfl⟩
  all_goals cases hx

@[simp] theorem phases_delay (n : Half) (ps : List Phase) (r : SeqRegs) :
    phasesRegs (.delay n :: ps) r = phasesRegs ps r ∧
      phasesEvents (.delay n :: ps) r = [.delay n] ++ phasesEvents ps r := ⟨rfl, rfl⟩

@[simp] theorem phases_waitIdle (ps : List Phase) (r : SeqRegs) :
    phasesRegs (.waitIdle :: ps) r = phasesRegs ps r ∧ phasesEvents (.waitIdle :: ps) r = phasesEvents ps r := ⟨rfl, rfl⟩

@[simp] theorem phases_emit (h l : Half) (w : Bool) (ps : List Phase) (r : SeqRegs) :
    phasesRegs (.emit h l w :: ps) r = phasesRegs ps (afterEmit h l r) ∧
      phasesEvents (.emit h l w :: ps) r = pulseEvents r.pgSt h l ++ phasesEvents ps (afterEmit h l r) := ⟨rfl, rfl⟩

@[simp] theorem phases_pick (ps : List Phase) (r : SeqRegs) :
    phasesRegs (.act .pick :: ps) r = phasesRegs ps r ∧ phasesEvents (.act .pick :: ps) r = phasesEvents ps r := ⟨rfl, rfl⟩

@[simp] theorem phases_busStart (ps : List Phase) (r : SeqRegs) :
    phasesRegs (.act .busStart :: ps) r = phasesRegs ps r ∧
      phasesEvents (.act .busStart :: ps) r = [.busStart] ++ phasesEvents ps r := ⟨rfl, rfl⟩

@[simp] theorem phases_busSwitch (ps : List Phase) (r : SeqRegs) :
    phasesRegs (.act .busSwitch :: ps) r = phasesRegs ps r ∧
      phasesEvents (.act .busSwitch :: ps) r = [.busSwitch] ++ phasesEvents ps r := ⟨rfl, rfl⟩

/-! ### PON, POFF, POFFA and SWBUF: no wait but for a delay -/

/-- R171. -/
def ponPhases : List Phase :=
  [.act (.cfgSet maskDir), .act (.cfgClear maskPwrdis), .push, .delay dlyPon1, .act (.cfgSet maskNeg), .push,
    .delay dlyPon2, .act (.cfgSet maskPos), .push, .delay dlyPon3, .act (.cfgSet maskSof), .push,
    .act (.pinOut .spl true)]

/-- R172. -/
def poffPhases : List Phase :=
  [.act (.cfgClear maskPos), .push, .delay dlyPoff1, .act (.cfgClear maskNeg), .push, .delay dlyPoff2,
    .act (.cfgSet maskPwrdis), .push, .act (.cfgClear maskSof), .push]

/-- Settles O34: PON's phases wait for nothing but their own delays, and come to the four words. -/
theorem ponRaisesTheRailsInOrder : Obligations.PonRaisesTheRailsInOrder := by
  unfold Obligations.PonRaisesTheRailsInOrder
  intro s hg
  obtain ⟨t, ht, h⟩ := command_of_phases .pon ponPhases (q := false) hg nofun
    (by simp [Prepared, ponPhases, Phase.Ready, Action.simple])
  refine ⟨t, ht, ?_, ?_, h.dly rfl, h.ticks, h.completed⟩
  · rw [h.seq]
    cases s.seq.psm <;> rfl
  · rw [h.seqEvents]
    simp only [List.append_assoc]
    rfl

/-- Settles O35: POFF's phases wait for nothing but their own delays, and come to the four words. -/
theorem poffDropsTheRailsInOrder : Obligations.PoffDropsTheRailsInOrder := by
  unfold Obligations.PoffDropsTheRailsInOrder
  intro s hg
  obtain ⟨t, ht, h⟩ := command_of_phases .poff poffPhases (q := false) hg nofun
    (by simp [Prepared, poffPhases, Phase.Ready, Action.simple])
  refine ⟨t, ht, ?_, ?_, h.dly rfl, h.ticks, h.completed⟩
  · rw [h.seq]
    cases s.seq.psm <;> rfl
  · rw [h.seqEvents]
    simp only [List.append_assoc]
    rfl

/-- Settles O36: POFFA puts the word to 0 and pushes it. -/
theorem poffaZeroesTheWord : Obligations.PoffaZeroesTheWord := by
  unfold Obligations.PoffaZeroesTheWord
  intro s hg
  obtain ⟨t, ht, h⟩ := command_of_phases .poffa [.act (.cfgPut 0), .push] (q := false) hg nofun
    ⟨rfl, trivial, trivial⟩
  refine ⟨t, ht, ?_, ?_, h.completed⟩
  · rw [h.seq]
    simp (disch := decide) only [phases_pushed, phases_nil, cfgAfter_cfgPut]
    cases s.seq.psm <;> rfl
  · rw [h.seqEvents]
    simp (disch := decide) only [phases_pushed, phases_nil, cfgAfter_cfgPut, List.append_nil]

/-- Settles O41: SWBUF is one plain action, and PSM stays. -/
theorem swbufSwitchesTheBuffer : Obligations.SwbufSwitchesTheBuffer := by
  unfold Obligations.SwbufSwitchesTheBuffer
  intro s hg
  obtain ⟨t, ht, h⟩ := command_of_phases .swbuf [.act .busSwitch] (q := false) hg nofun ⟨rfl, trivial⟩
  refine ⟨t, ht, ?_, ?_, h.completed⟩
  · rw [h.seq]
    cases s.seq.psm <;> rfl
  · rw [h.seqEvents, List.append_assoc]
    rfl

/-- Settles O47: both commands complete from any word, and POFF's word is told by PON's. -/
theorem ponPoffIsAnIdempotentTeardown : Obligations.PonPoffIsAnIdempotentTeardown := by
  unfold Obligations.PonPoffIsAnIdempotentTeardown
  intro s hg
  obtain ⟨t, ht, htseq, -, -, -, htcomp⟩ := ponRaisesTheRailsInOrder s hg
  obtain ⟨u, hu, huseq, -⟩ := poffDropsTheRailsInOrder t (htcomp.grain.trans hg)
  have hcfg : u.seq.cfg = (s.seq.cfg &&& 0xC1) ||| 0x22 := by
    rw [huseq, htseq]
    simp only [idleAfter]
    ext k hk
    interval_cases k <;> simp
  refine ⟨t, u, ht, hu, hcfg.trans ?_, hcfg⟩
  ext k hk
  interval_cases k <;> simp [masks_eq]

/-! ### SFRM, SKIP, OROW and EFRM: pulses of the generator -/

/-- R174. -/
def sfrmPhases (p : Config.Params) : List Phase :=
  [.waitIdle, .act (.cfgSet maskMode), .push, .emit p.sfA.high p.sfA.low true, .act (.cfgClear maskSof), .push,
    .delay dlySf, .emit p.sfB.high p.sfB.low false, .act (.cfgSet maskSof), .push, .emit p.sfC.high p.sfC.low true,
    .act (.cfgSet maskOe), .push, .emit p.sfD.high p.sfD.low true]

/-- R176. -/
def orowPhases (orWait : Bool) (outputTime : Half) : List Phase :=
  [.waitIdle, .act (.cfgSet maskLe), .push, .act (.cfgClear maskLe), .push, .emit outputTime orLow orWait,
    .act .busStart, .act .busSwitch]

/-- R177. -/
def efrmPhases (p : Config.Pair) : List Phase :=
  [.act (.cfgClear maskOe), .push, .act (.cfgClear maskMode), .push, .emit p.high p.low true, .emit p.high p.low true]

/-- Settles O37: SFRM waits for the bus engine and for the pulse before each `Emit`, and its last pulse is waited for. -/
theorem sfrmStartsAFrame : Obligations.SfrmStartsAFrame := by
  unfold Obligations.SfrmStartsAFrame
  intro s hg hc hn hb
  obtain ⟨t, ht, h⟩ := command_of_phases .sfrm (sfrmPhases s.params) (q := false) hg nofun
    (by simp [Prepared, sfrmPhases, Phase.Ready, Action.simple, hc, hn, hb])
  have hq : t.pge.quiet := h.quiet (by cases s.seq.pgSt <;> rfl)
  refine ⟨t, ht, ?_, ?_, h.dly rfl, h.ticks, hq.2, hq.1, by simpa [sfrmPhases, Phase.pulses] using h.completed⟩
  · rw [h.seq]
    simp (disch := decide) only [sfrmPhases, phases_waitIdle, phases_pushed, phases_emit, phases_delay, phases_nil,
      pushed_afterEmit, afterEmit_afterEmit, pushed_pushed, pushed_cfg, afterEmit_cfg]
    cases s.seq.psm <;> rfl
  · rw [h.seqEvents]
    simp (disch := decide) only [sfrmPhases, phases_waitIdle, phases_pushed, phases_emit, phases_delay, phases_nil,
      pushed_cfg, pushed_pgSt, afterEmit_cfg, afterEmit_pgSt, List.append_assoc, List.append_nil]
    rfl

/-- Settles O38: SKIP's one pulse is not waited for, so only a pulse in flight before it needs its notification. -/
theorem skipEmitsOneUnwaitedPulse : Obligations.SkipEmitsOneUnwaitedPulse := by
  unfold Obligations.SkipEmitsOneUnwaitedPulse
  intro s hg hc hn
  obtain ⟨t, ht, h⟩ := command_of_phases .skip [.act .pick, .emit _ _ false] hg (quiet_of_done hc)
    ⟨rfl, ⟨hc, hn.imp_right fun hd => ⟨hd, rfl⟩⟩, trivial⟩
  refine ⟨t, ht, ?_, ?_, by simpa [Phase.pulses] using h.completed⟩
  · rw [h.seq]
    cases s.seq.psm <;> rfl
  · rw [h.seqEvents]
    simp only [phases_pick, phases_emit, phases_nil, List.append_assoc, List.append_nil]
    rfl

/-- Settles O39: OROW waits for the bus engine, and for its own pulse with OR_WAIT only. -/
theorem orowLatchesAndPulsesTheRow : Obligations.OrowLatchesAndPulsesTheRow := by
  unfold Obligations.OrowLatchesAndPulsesTheRow
  intro a s hg hc hb hn
  obtain ⟨t, ht, h⟩ := command_of_phases (.orow a) (orowPhases s.params.orWait a) hg (quiet_of_done hc)
    (by simp [Prepared, orowPhases, Phase.Ready, Phase.settled, Action.simple, hc, hb]; tauto)
  refine ⟨t, ht, ?_, ?_, by simpa [orowPhases, Phase.pulses] using h.completed, fun hw hr => ?_⟩
  · rw [h.seq]
    simp (disch := decide) only [orowPhases, phases_waitIdle, phases_pushed, phases_emit, phases_busStart,
      phases_busSwitch, phases_nil, pushed_pushed, pushed_cfg]
    cases s.seq.psm <;> rfl
  · rw [h.seqEvents]
    simp (disch := decide) only [orowPhases, phases_waitIdle, phases_pushed, phases_emit, phases_busStart,
      phases_busSwitch, phases_nil, pushed_cfg, pushed_pgSt, List.append_assoc, List.append_nil]
    rfl
  · exact (h.quiet (by rw [hw, hr]; rfl)).2

/-- Settles O40: EFRM's pushes need nothing, and both its pulses are waited for. -/
theorem efrmEndsAFrame : Obligations.EfrmEndsAFrame := by
  unfold Obligations.EfrmEndsAFrame
  intro s hg hc hn
  obtain ⟨t, ht, h⟩ := command_of_phases .efrm (efrmPhases s.params.efP) (q := false) hg nofun
    (by simp [Prepared, efrmPhases, Phase.Ready, Action.simple, hc, hn])
  refine ⟨t, ht, ?_, ?_, by simpa [efrmPhases, Phase.pulses] using h.completed, fun hr => ?_⟩
  · rw [h.seq]
    simp (disch := decide) only [efrmPhases, phases_pushed, phases_emit, phases_nil, afterEmit_afterEmit,
      pushed_pushed, pushed_cfg]
    cases s.seq.psm <;> rfl
  · rw [h.seqEvents]
    simp (disch := decide) only [efrmPhases, phases_pushed, phases_emit, phases_nil, pushed_cfg, pushed_pgSt,
      afterEmit_pgSt, List.append_assoc, List.append_nil]
    rfl
  · have hq := h.quiet (by rw [hr]; rfl)
    exact ⟨hq.2, hq.1⟩

/-! ### CURBUF -/

/-- The low PTR_W bits, as many as a response carries (20_memory.md R70). -/
theorem pointer_eq (w n : Nat) : pointer w n = (BitVec.ofNat w n).setWidth 32 := by
  apply BitVec.eq_of_toNat_eq
  simp [pointer]

/-- Settles O42: CURBUF's pick changes nothing, and its response samples the pointer. -/
theorem curbufAnswersThePointer : Obligations.CurbufAnswersThePointer := by
  unfold Obligations.CurbufAnswersThePointer
  intro s hg
  obtain ⟨u, hu⟩ := stage_plain [.pick] (accept .curbuf (openStep s)) _ (accept_unlimited .curbuf hg) rfl
  rw [accept_view] at hu
  obtain ⟨t, ht, hseq, hev, hcomp, -⟩ := command_done .curbuf .curbuf .curBuf [[.pick]] [] s u _ hg hu
  have hparams : u.params = s.params := congrArg View.params hu.view
  have hptr : u.env.busCurbuf = s.env.busCurbuf := congrArg (·.inputs.busCurbuf) hu.view
  refine ⟨t, ht, ?_, ?_, hcomp⟩
  · rw [hseq]
    cases s.seq.psm <;> rfl
  · rw [hev, responseOf, hparams, hptr, pointer_eq]
    rfl

end Sys2Proof.Machine
end

section
/-! INIT (42_panel_protocol.md R170, R162 a). Its two calls are micro-steps with an answer from outside; BUS_FAIL and PG_ST
record the answers, and the response reads them there (log 9). -/

namespace Sys2Proof.Machine

/-! ### The two calls as micro-steps -/

theorem Stage.busInit {ls : Program} {p : List Event} {s t : State} {v : View} (h : Stage ls p s t v)
    (hb : s.budget = none) (w : BitVec 17) {ok : Bool}
    (ha : answerOf v.inputs.busInitOk.rest v.inputs.busInitOk.next = some ok) :
    ∃ u f, Stage (ls ++ [busInitLine w]) p s u { v with
      regs := { v.regs with busFail := v.regs.busFail || !ok }, events := v.events ++ [.busInit w]
      inputs := { v.inputs with busInitOk := f } } := by
  rw [← busInitOk_of_view h.view] at ha
  obtain ⟨u, f, hrun, hview, hcalm⟩ := run_busInit w ok t (h.goes.budget hb) ha
  rw [h.view] at hview
  exact ⟨_, f, by simpa using h.snoc (Stage.line hrun hview hcalm)⟩

/-- What `PgInit(pin)` leaves in SEQ's registers, the allocator answering `ok` if it is asked (40_pulse_generator.md
R120). -/
def afterPgInit (pin : Byte) (ok : Bool) (r : SeqRegs) : SeqRegs :=
  if r.pgSt = .uninit then
    { r with pgPin := pin, pgSt := if ok then .ready else .failed, dirCkv := r.dirCkv || ok }
  else { r with misuse := true }

/-- The events of `PgInit(pin)` on a generator of status `st`. -/
def pgInitEvents (pin : Byte) (ok : Bool) (st : PgSt) : List Event :=
  if st = .uninit then [.pgAlloc pin] ++ (if ok then [.dir .ckv] else []) else []

/-- On a generator never initialised no pulse is in flight, and the allocator answers. -/
theorem Stage.pgInit {ls : Program} {s t : State} {v : View} (h : Stage ls [] s t v) (hb : s.budget = none)
    (hc : s.pge.consistent = true) (pin : Byte) {ok : Bool} (hi : v.regs.pgSt = .uninit → s.pge.pgPh = .idle)
    (ha : v.regs.pgSt = .uninit → answerOf v.inputs.pgAllocOk.rest v.inputs.pgAllocOk.next = some ok) :
    ∃ u f, Stage (ls ++ [pgInitLine pin]) [] s u { v with
      regs := afterPgInit pin ok v.regs, events := v.events ++ pgInitEvents pin ok v.regs.pgSt
      inputs := { v.inputs with pgAllocOk := f } } := by
  have hbt := h.goes.budget hb
  have hst := pgSt_of_view h.view
  by_cases hu : v.regs.pgSt = .uninit
  · have hidle : t.pge.pgPh = .idle := by
      rw [(h.goes.idle (hi hu) rfl).1]
      exact hi hu
    obtain ⟨u, f, hrun, hview, hcalm⟩ := run_pgInit_first pin ok t hbt (hst.trans hu) hidle (h.goes.consistent hc)
      (by rw [pgAllocOk_of_view h.view]; exact ha hu)
    rw [h.view] at hview
    refine ⟨nextStep u, f, ?_⟩
    rw [afterPgInit, pgInitEvents, if_pos hu, if_pos hu, ← List.append_assoc]
    exact h.snoc (Stage.line hrun hview hcalm)
  · obtain ⟨u, hrun, hview, hcalm⟩ := run_pgInit_again pin t hbt (by rw [hst]; exact hu)
    rw [h.view] at hview
    refine ⟨nextStep u, v.inputs.pgAllocOk, ?_⟩
    rw [afterPgInit, pgInitEvents, if_neg hu, if_neg hu, List.append_nil]
    exact h.snoc (Stage.line hrun hview hcalm)

/-! ### The first INIT -/

/-- SEQ's registers when the micro-steps of INIT but `done` have run, from `r` at acceptance, with the variant and the two
answers sampled. -/
def initRegs (p : Config.Params) (variant okb okp : Bool) (r : SeqRegs) : SeqRegs :=
  let pushed := afterPush 0x32 { r with
    variantL := variant, cfg := 0x32, dirCfgData := true, dirCfgClk := true, dirCfgStr := true, dirSpl := true }
  { afterPgInit p.ckvPin okp { pushed with busFail := r.busFail || !okb } with psm := .powerOff }

/-- INIT's events but the response. -/
def initEvents (p : Config.Params) (n : Half) (okp : Bool) (st : PgSt) : List Event :=
  [.dir .cfgData, .dir .cfgClk, .dir .cfgStr, .dir .spl] ++ pushEvents 0x32 ++ [.busInit (paddedWidth n)] ++
    pgInitEvents p.ckvPin okp st

/-- The micro-steps of INIT but `done`, both calls answered. -/
theorem stage_init (n : Half) (okb okp : Bool) {s : State} (hb : s.budget = none) (hc : s.pge.consistent = true)
    (hi : s.seq.pgSt = .uninit → s.pge.pgPh = .idle)
    (hbus : answerOf s.env.busInitOk.rest s.env.busInitOk.next = some okb)
    (halloc : s.seq.pgSt = .uninit → answerOf s.env.pgAllocOk.rest s.env.pgAllocOk.next = some okp) :
    ∃ t v, Stage (initProgram s.params.ckvPin n).dropLast [] s t v ∧
      v.regs = initRegs s.params s.env.variant.head okb okp s.view.regs ∧
      v.events = s.seqEvents ++ initEvents s.params n okp s.seq.pgSt := by
  obtain ⟨t1, h1⟩ := stage_plain [.latchVariant, .cfgPut cfgInit] s _ hb rfl
  obtain ⟨t2, h2, -⟩ := h1.plain hb [.dirOut .cfgData, .dirOut .cfgClk, .dirOut .cfgStr, .dirOut .spl] _ rfl
  obtain ⟨t3, h3, -⟩ := h2.push hb .cfg
  obtain ⟨t4, f, h4⟩ := h3.busInit hb (paddedWidth n) (ok := okb) hbus
  obtain ⟨t5, g, h5⟩ := h4.pgInit hb hc s.params.ckvPin (ok := okp) hi halloc
  obtain ⟨t6, h6, -⟩ := h5.plain hb [.psmPut .powerOff] _ rfl
  refine ⟨t6, _, h6, rfl, ?_⟩
  simp only [initEvents, List.append_assoc]
  rfl

theorem initRegs_pgSt (p : Config.Params) (variant okb okp : Bool) (r : SeqRegs) :
    (initRegs p variant okb okp r).pgSt = if r.pgSt = .uninit then (if okp then .ready else .failed) else r.pgSt := by
  simp only [initRegs, afterPgInit]
  split
  · next h => exact (if_pos h).symm
  · next h => exact (if_neg h).symm

theorem initRegs_busFail (p : Config.Params) (variant okb okp : Bool) (r : SeqRegs) :
    (initRegs p variant okb okp r).busFail = (r.busFail || !okb) := by
  simp only [initRegs, afterPgInit]
  split <;> rfl

/-- What INIT answers from a status of the generator and a value of BUS_FAIL (30_encoding.md R100). -/
def initResponse (st : PgSt) (busFail : Bool) : Event :=
  .rsp (if st = .failed ∨ busFail = true then 1 else 0) ((if st = .failed then 2 else 0) + if busFail then 1 else 0)

/-- The two failure bits do not overlap. -/
theorem rsp_responseOf_init (s : State) :
    Event.rsp (responseOf .init s).1 (responseOf .init s).2 = initResponse s.seq.pgSt s.seq.busFail := by
  simp only [responseOf, initResponse]
  cases s.seq.pgSt <;> cases s.seq.busFail <;> rfl

/-- INIT does not look at PSM or at SEQ_OP. -/
theorem idleAfter_initRegs (q : Psm) (p : Config.Params) (variant okb okp : Bool) (o : Opcode) (m : Psm) (r : SeqRegs) :
    idleAfter q (initRegs p variant okb okp (inExecution o m r)) = idleAfter q (initRegs p variant okb okp r) := by
  by_cases h : r.pgSt = .uninit <;> simp [initRegs, afterPgInit, afterPush, inExecution, idleAfter, h]

/-- The first INIT, its two calls answered, from any status of the generator. -/
theorem init_first (n : Half) (okb okp : Bool) {s : State} (hg : s.grain = none) (hpsm : s.seq.psm = .uninit)
    (hc : s.pge.consistent = true) (hi : s.seq.pgSt = .uninit → s.pge.pgPh = .idle)
    (hbus : answerOf s.env.busInitOk.rest s.env.busInitOk.next = some okb)
    (halloc : s.seq.pgSt = .uninit → answerOf s.env.pgAllocOk.rest s.env.pgAllocOk.next = some okp) :
    ∃ t, exec (.init n) s = .next t ∧
      t.seq = idleAfter .powerOff (initRegs s.params s.env.variant.head okb okp (acceptedRegs (.init n) s.seq)) ∧
      t.seqEvents = s.seqEvents ++ initEvents s.params n okp s.seq.pgSt ++
        [initResponse (if s.seq.pgSt = .uninit then (if okp then .ready else .failed) else s.seq.pgSt)
          (s.seq.busFail || !okb)] ∧ Completed [] s t := by
  have hst : (accept (.init n) (openStep s)).seq.pgSt = s.seq.pgSt := by simp [accept_seq]
  obtain ⟨u, v, hu, hregs, hev⟩ := stage_init n okb okp (accept_unlimited (.init n) hg) (by simpa using hc)
    (by simpa [hst] using hi) (by simpa using hbus) (by simpa [hst] using halloc)
  rw [accept_view] at hregs
  simp only [accept_params, openStep_params, accept_env, openStep_env, hst, accept_seqEvents] at hu hregs hev
  obtain ⟨t, ht, hseq, htev, hcomp, -⟩ := command_done (.init n) .init .init _ [] s u v hg hu
  have hexec : exec (.init n) s = startCommand (.init n) (initProgram s.params.ckvPin n) s := if_pos hpsm
  refine ⟨t, hexec.trans ht, ?_, ?_, hcomp⟩
  · rw [hseq, hregs]
    exact idleAfter_initRegs .powerOff s.params _ okb okp .init (psmDuring .init s.seq.psm) (acceptedRegs (.init n) s.seq)
  · rw [htev, hev, rsp_responseOf_init, pgSt_of_view hu.view,
      show u.seq.busFail = v.regs.busFail from congrArg (·.regs.busFail) hu.view, hregs, initRegs_pgSt,
      initRegs_busFail]
    rfl

/-! ### A second INIT -/

theorem ignoreSecondInit_calm (i : Instr) (s : State) : Calm s (ignoreSecondInit i s) :=
  have hflag : Calm s (flagMisuse s) := Calm.of_seq rfl rfl rfl rfl rfl rfl rfl rfl rfl
  (hflag.trans (respond_calm .init (flagMisuse s))).trans (Calm.of_seq rfl rfl rfl rfl rfl rfl rfl rfl rfl)

/-- A second INIT answers what is recorded, and changes MISUSE and the operand latch only (R162 a, log 20). -/
theorem init_again (n : Half) {s : State} (hpsm : s.seq.psm ≠ .uninit) :
    ∃ t, exec (.init n) s = .next t ∧ t.seq = { s.seq with misuse := true, a := n, b := 0, w := false } ∧
      t.seqEvents = s.seqEvents ++ [initResponse s.seq.pgSt s.seq.busFail] ∧ t.pge = s.pge ∧
      t.pgeEvents = s.pgeEvents ∧ t.env = s.env ∧ Completed [] s t := by
  have hcalm := (ignoreSecondInit_calm (.init n) s).trans (closeStep_calm _)
  refine ⟨closeStep (ignoreSecondInit (.init n) s), if_neg hpsm, ignoreSecondInit_seq (.init n) s, ?_, rfl,
    pgeEvents_emit _ _ rfl, rfl, ?_⟩
  · rw [← rsp_responseOf_init]
    exact ignoreSecondInit_seqEvents (.init n) s
  · exact ⟨hcalm.params, hcalm.grain, rfl, hcalm.held, hcalm.tale, hcalm.consistent, fun _ _ => rfl, hcalm.dly, hcalm.now⟩

/-- Settles O33: the first INIT's micro-steps come to `initRegs` and `initEvents`; a second one only answers. -/
theorem initSetsTheSessionUpOnce : Obligations.InitSetsTheSessionUpOnce := by
  unfold Obligations.InitSetsTheSessionUpOnce
  refine ⟨fun n s okb okp hg hpsm hbf hc hi hbus halloc => ?_, fun n s hpsm => ?_⟩
  · obtain ⟨t, ht, hseq, hev, hcomp⟩ := init_first n okb okp hg hpsm hc hi hbus halloc
    refine ⟨t, ht, ?_, ?_, fun hfirst => hcomp.idle (hi hfirst) rfl, hcomp⟩
    · rw [hseq]
      by_cases hfirst : s.seq.pgSt = .uninit <;>
        simp [initRegs, afterPgInit, afterPush, idleAfter, acceptedRegs, legalStates, Instr.opcode, hfirst, hbf, hpsm]
    · rw [hev, hbf]
      by_cases hfirst : s.seq.pgSt = .uninit <;> cases okb <;>
        simp [initEvents, pgInitEvents, paddedWidth, initResponse, hfirst]
  · obtain ⟨t, ht, hseq, hev, hpge, hpgeEv, henv, hcomp⟩ := init_again n hpsm
    refine ⟨t, ht, hseq, ?_, hpge, hpgeEv, henv, hcomp⟩
    rw [hev, initResponse]
    cases s.seq.pgSt <;> cases s.seq.busFail <;> rfl

end Sys2Proof.Machine
end

section
/-! PSM's during value (42_panel_protocol.md R161, R162 c): of the micro-steps only INIT's put PSM, so while another command
is in execution PSM is what acceptance made it. -/

namespace Sys2Proof.Machine

/-- Whether an action writes PSM before `done`. -/
def Action.putsPsm : Action → Bool
  | .psmPut _ => true
  | _ => false

theorem programOf_putsNoPsm {i : Instr} (hi : i.opcode ≠ .init) (s : State) :
    (programOf i s).all (·.all (!·.putsPsm)) = true := by
  cases i with
  | init n => exact absurd rfl hi
  | emit h l w => cases w <;> rfl
  | emitus h l w => cases w <;> rfl
  | orow t => simp only [programOf, orowProgram]; cases s.params.orWait <;> rfl
  | _ => rfl

theorem At.putsNoPsm {i : Instr} {x : Action} {xs : Line} {ls : Program} {s : State} (h : At i ((x :: xs) :: ls) s)
    (hi : i.opcode ≠ .init) : x.putsPsm = false := by
  obtain ⟨k, line, hd, hsub⟩ := h.line
  have hline : line ∈ programOf i s := List.mem_of_mem_drop (i := k) (by rw [hd]; exact List.mem_cons_self)
  simpa using List.all_eq_true.mp (List.all_eq_true.mp (programOf_putsNoPsm hi s) line hline) x (hsub x List.mem_cons_self)

theorem regsAfter_psm {x : Action} (hx : x.putsPsm = false) (b : Bool) (r : SeqRegs) : (x.regsAfter b r).psm = r.psm := by
  cases x
  case psmPut => cases hx
  case dirOut p => cases p <;> rfl
  case pinOut p v => cases p <;> rfl
  case busInitAns | pgAllocAns => cases b <;> rfl
  all_goals rfl

theorem doAction_go_psm {x : Action} {s t : State} (hx : x.putsPsm = false) (h : doAction x s = .go t) :
    (afterAction t).seq.psm = s.seq.psm := by
  obtain ⟨b, hr, -⟩ := doAction_go_acts h
  rw [afterAction_seq, hr]
  exact regsAfter_psm hx b s.seq

theorem doAction_skip_psm {x : Action} {s t : State} (h : doAction x s = .skip t) :
    (afterAction t).seq.psm = s.seq.psm := by
  rw [afterAction_seq]
  obtain ⟨-, -, rfl⟩ | ⟨-, -, rfl⟩ | ⟨-, -, rfl⟩ := doAction_skip x s t h <;> rfl

/-- Whatever the budget, a run of a command but INIT that leaves it in execution leaves PSM. -/
theorem run_psm {i : Instr} (hi : i.opcode ≠ .init) {l : Line} {ls : Program} {s : State} (ha : At i (l :: ls) s)
    (he : Ends (l :: ls)) (hne : l ≠ [] ∨ ls ≠ []) :
    (runProgram (l :: ls) s).seq.seqOp ≠ 0 → (runProgram (l :: ls) s).seq.psm = s.seq.psm :=
  run_induct i (fun _ u => u.seq.psm = s.seq.psm) (fun u => u.seq.seqOp ≠ 0 → u.seq.psm = s.seq.psm)
    (go := fun _ _ _ _ _ hat _ hI hd _ => (doAction_go_psm (hat.putsNoPsm hi) hd).trans hI)
    (skip := fun _ _ _ _ _ _ _ hI hd => (doAction_skip_psm hd).trans hI)
    (next := fun _ _ _ _ hI _ => hI)
    (stop := fun x _ _ u v _ _ hI hd hop => by
      obtain hs | ⟨o, r, -, rfl⟩ := doAction_stop x u v hd
      · rw [hs.seq]
        exact hI
      · rw [finish_seq] at hop
        exact absurd rfl hop)
    (pause := fun _ _ _ _ _ _ hI _ _ => hI)
    ls l s ha he hne rfl

/-- A command but INIT that its acceptance leaves in execution has its during value. -/
theorem exec_psm {i : Instr} {s t : State} (hwf : i.wf s.params.maxTicks = true) (hi : i.opcode ≠ .init)
    (ht : exec i s = .next t) (hop : t.seq.seqOp ≠ 0) : t.seq.psm = psmDuring i.opcode s.seq.psm := by
  rw [exec_eq, if_neg (by rintro ⟨⟨n, rfl⟩, -⟩; exact hi rfl)] at ht
  obtain ⟨l, ls, hp, ha, he, hne⟩ := at_accept i s (decode_encode hwf)
  rw [hp] at ht
  cases ht
  exact (run_psm hi ha he hne hop).trans (by rw [accept_seq]; rfl)

/-- A later step that leaves it in execution leaves PSM. -/
theorem step_psm {s t : State} (hr : s.env.rst.head = false) (hop : s.seq.seqOp ≠ 0)
    (hinit : s.seq.seqOp ≠ Opcode.code .init) (hs : step s = .next t) (hop' : t.seq.seqOp ≠ 0) :
    t.seq.psm = s.seq.psm := by
  cases stepped hr hs with
  | idle h0 | illegal _ _ h0 | second _ _ h0 | command _ _ _ _ h0 => exact absurd h0 hop
  | busy i x xs ls _ _ ha he =>
    have hi : i.opcode ≠ .init := fun hi => hinit ((latchedInstr_code ha.instr).trans (by rw [hi]))
    exact run_psm hi ha he (.inl (List.cons_ne_nil x xs)) hop'

/-- The during values on the port (10_state.md R24, 42_panel_protocol.md R161). -/
theorem psmDuring_code (i : Instr) (p : Psm) :
    (psmDuring i.opcode p).code =
      if p = .uninit then 0 else if i = .pon then 2 else if i = .poff then 5 else p.code := by
  by_cases hp : p = .uninit
  · simp [psmDuring, hp, Psm.code]
  · cases i <;> simp [psmDuring, hp, Psm.code, Instr.opcode]

/-- Settles O22: acceptance gives the during value, and no micro-step but INIT's puts another. -/
theorem duringValueIsHeld : Obligations.DuringValueIsHeld := by
  unfold Obligations.DuringValueIsHeld
  have busy : ∀ t : State, t.seq.seqOp ≠ 0 → t.ports.stBusy = true := fun t h => by simpa [State.ports] using h
  refine ⟨fun i s t hwf hi ht hop => ⟨busy t hop, ?_⟩, fun s t hr hop hinit hs hop' => ⟨busy t hop', ?_, ?_⟩⟩
  · exact (congrArg Psm.code (exec_psm hwf hi ht hop)).trans (psmDuring_code i s.seq.psm)
  · exact step_psm hr hop hinit hs hop'
  · exact congrArg Psm.code (step_psm hr hop hinit hs hop')

end Sys2Proof.Machine
end

section
/-! `WaitIdle` at the head of OROW and SFRM (42_panel_protocol.md R160, R174, R176). While it does not end SEQ does nothing,
however many steps are taken; and with a pulse in flight it ends after that pulse's NOTIFY only. -/

namespace Sys2Proof.Machine

/-! ### The two commands -/

/-- OROW and SFRM. -/
def RowCommand (i : Instr) : Prop := i = .sfrm ∨ ∃ a, i = .orow a

theorem RowCommand.waits {i : Instr} (h : RowCommand i) (s : State) : ∃ ls, programOf i s = [.waitIdle] :: ls := by
  obtain rfl | ⟨a, rfl⟩ := h
  · exact ⟨_, rfl⟩
  · exact ⟨_, rfl⟩

theorem RowCommand.wf {i : Instr} (h : RowCommand i) (m : Half) : i.wf m = true := by
  obtain rfl | ⟨a, rfl⟩ := h <;> rfl

theorem RowCommand.exec {i : Instr} (h : RowCommand i) (s : State) :
    exec i s = .next (closeStep (runProgram (programOf i s) (accept i (openStep s)))) := by
  obtain rfl | ⟨a, rfl⟩ := h <;> rfl

/-- Their opcodes are 0x34 and 0x36 (30_encoding.md R92). -/
theorem rowCommand_of_code {i : Instr} (h : i.opcode.code = 0x34 ∨ i.opcode.code = 0x36) : RowCommand i := by
  rcases h with h | h
  · have ho : i.opcode = .sfrm := code_eq_iff.mp h
    cases i
    case sfrm => exact .inl rfl
    all_goals cases ho
  · have ho : i.opcode = .orow := code_eq_iff.mp h
    cases i
    case orow a => exact .inr ⟨a, rfl⟩
    all_goals cases ho

/-- Accepted, one of the two stands at its `WaitIdle`. -/
theorem RowCommand.remaining {i : Instr} (h : RowCommand i) (s : State) :
    ∃ ls, programOf i s = [.waitIdle] :: ls ∧ remaining (accept i (openStep s)) = [.waitIdle] :: ls := by
  obtain ⟨ls, hls⟩ := h.waits s
  obtain ⟨l, ls', hp, ha, -⟩ := at_accept i s (decode_encode (h.wf _))
  obtain ⟨rfl, rfl⟩ := List.cons.inj (hls.symm.trans hp)
  exact ⟨ls, hls, ha.remaining⟩

/-! ### A wait that does not end -/

/-- `B` keeps SEQ in `WaitIdle`, and speaks of nothing but the engine, its notifications and the bus engine's reports. -/
structure Blocks (B : State → Prop) : Prop where
  stop : ∀ s, B s → ∃ t, doAction .waitIdle s = .stop t ∧ B t
  of_eq : ∀ s t, t.pge = s.pge → t.env.tNotify = s.env.tNotify → t.env.busBusy = s.env.busBusy → B s → B t

/-- SEQ stands at a `WaitIdle` in which `B` keeps it, and `rst` stays low. -/
structure Waiting (B : State → Prop) (s : State) : Prop where
  holds : B s
  rst : s.env.rst = ⟨[], false⟩
  atWait : ∃ ls, remaining s = [.waitIdle] :: ls

/-- `t` is `s` after some waiting. -/
structure Stays (B : State → Prop) (s t : State) : Prop where
  waiting : Waiting B t
  seq : t.seq = s.seq
  seqEvents : t.seqEvents = s.seqEvents

/-- A run that begins at the wait stays there. -/
theorem Waiting.run {B : State → Prop} (hB : Blocks B) {s : State} (h : Waiting B s) (hb : hasBudget s = true) :
    Stays B s (closeStep (runProgram (Machine.remaining s) s)) := by
  obtain ⟨hs, hrst, ls, hrem⟩ := h
  obtain ⟨t, ht, hBt⟩ := hB.stop s hs
  have hstill := (waitIdleTurns_waits _ s).stop t ht
  have hrun : runProgram (remaining s) s = t := by
    rw [hrem]
    simp [runProgram, runLine, hb, ht]
  rw [hrun]
  exact ⟨⟨hB.of_eq t _ rfl rfl rfl hBt, hstill.steady.rst.trans hrst, ls, hstill.remaining.trans hrem⟩, hstill.seq,
    hstill.seqEvents⟩

theorem Waiting.step {B : State → Prop} (hB : Blocks B) {s : State} (h : Waiting B s) :
    ∃ t, step s = .next t ∧ Stays B s t := by
  obtain ⟨hs, hrst, ls, hrem⟩ := h
  have hopen : Waiting B (openStep s.takeRst) := ⟨hB.of_eq s _ rfl rfl rfl hs, by simp [hrst, Feed.pop], ls, hrem⟩
  obtain ⟨hw, hseq, hev⟩ := hopen.run hB (hasBudget_openStep _)
  refine ⟨_, step_of_remaining (by rw [hrst]; rfl) hrem, ?_⟩
  rw [← hrem]
  exact ⟨hw, hseq, hev⟩

theorem Waiting.stepsFrom {B : State → Prop} (hB : Blocks B) (n : Nat) : ∀ {s : State}, Waiting B s →
    ∃ t, stepsFrom n s = some t ∧ Stays B s t := by
  induction n with
  | zero => exact fun h => ⟨_, rfl, h, rfl, rfl⟩
  | succ n ih =>
    intro s h
    obtain ⟨t, ht, hst⟩ := h.step hB
    obtain ⟨u, hu, htu⟩ := ih hst.waiting
    exact ⟨u, by simpa [Machine.stepsFrom, ht] using hu, htu.waiting, htu.seq.trans hst.seq,
      htu.seqEvents.trans hst.seqEvents⟩

/-- At every grain OROW and SFRM, accepted where `B` holds, stay at micro-step 1 with no event of SEQ. -/
theorem RowCommand.stays {B : State → Prop} (hB : Blocks B) {i : Instr} (hi : RowCommand i) {s t : State} (hs : B s)
    (hrst : s.env.rst = ⟨[], false⟩) (ht : Machine.exec i s = .next t) (n : Nat) :
    ∃ u, stepsFrom n t = some u ∧ B u ∧ u.seqEvents = s.seqEvents ∧ u.seq.seqOp = i.opcode.code ∧ u.seq.seqStep = 1 ∧
      u.seq.cfg = s.seq.cfg := by
  obtain ⟨ls, hp, hrem⟩ := hi.remaining s
  have hbegun : Waiting B (accept i (openStep s)) :=
    ⟨hB.of_eq s _ (by simp) (by simp) (by simp) hs, by simpa using hrst, ls, hrem⟩
  have hrun := hbegun.run hB (hasBudget_accept i s)
  rw [hrem, ← hp] at hrun
  rw [hi.exec] at ht
  cases ht
  obtain ⟨u, hu, hw, hseq, hev⟩ := hrun.waiting.stepsFrom hB n
  refine ⟨u, hu, hw.holds, (hev.trans hrun.seqEvents).trans (accept_seqEvents i s), ?_⟩
  rw [hseq, hrun.seq, accept_seq]
  exact ⟨rfl, rfl, rfl⟩

/-- The bus engine reports busy for ever. -/
def BusBusy (s : State) : Prop := s.env.busBusy = ⟨[], true⟩

theorem waitTicks_busBusy (n : Nat) (s : State) : (waitTicks n s).env.busBusy = s.env.busBusy := by
  have drift : ∀ k, (elapse k s).env.busBusy = s.env.busBusy := fun k => congrArg (·.busBusy) (elapse_drift k s).env
  unfold waitTicks
  split
  · exact drift n
  · exact drift _

/-- A busy bus engine keeps SEQ in `WaitIdle` (42_panel_protocol.md R160, 60_exceptions.md R203). -/
theorem busBusy_blocks : Blocks BusBusy where
  stop := fun s h => by
    have hbusy : s.env.busBusy = ⟨[], true⟩ := h
    exact ⟨waitTicks 1 s, by simp [doAction, waitIdleTurns, hbusy], (waitTicks_busBusy 1 s).trans h⟩
  of_eq := fun _ _ _ _ hbusy h => hbusy.trans h

/-- A withheld notification does too, whatever the bus engine reports. -/
theorem withheld_blocks : Blocks Withheld where
  stop := fun s h => waitIdleTurns_withheld _ s h
  of_eq := fun _ _ hpge hnotify _ h => ⟨by rw [hpge]; exact h.flight, hnotify.trans h.never, by rw [hpge]; exact h.flag⟩

/-- Settles O49: a bus engine that stays busy blocks `WaitIdle`. -/
theorem busyBusBlocksTheRow : Obligations.BusyBusBlocksTheRow := by
  unfold Obligations.BusyBusBlocksTheRow
  intro i s t n hi _ hrst hbusy ht
  obtain ⟨u, hu, -, h⟩ := RowCommand.stays busBusy_blocks hi hbusy hrst ht n
  exact ⟨u, hu, h⟩

/-! ### A wait for the pulse in flight -/

/-- From `s` to `t` SEQ adds no event before a NOTIFY. -/
def AfterNotify (s t : State) : Prop :=
  ∃ pre post, t.events = s.events ++ pre ++ post ∧ (∀ e ∈ pre, e.byPge = true) ∧ (post = [] ∨ Event.notify ∈ pre)

/-- Waiting until the pulse in flight is done shows its NOTIFY. -/
theorem Still.notify_mem {s t : State} (h : Still s t) (hc : s.pge.consistent = true) (hf : s.pge.pgPh ≠ .idle)
    (hd : t.pge.pgDone = true) {es : List Stamped} (hes : t.trace = s.trace ++ es) : Event.notify ∈ es.map (·.ev) := by
  have htale : t.pgeEvents = s.pgeEvents ++ s.pge.pgPh.ahead := by
    rw [← pgeTale_idle (quiet_of_done (h.calm.consistent hc) hd).1, h.calm.tale hc, List.append_nil]
    rfl
  have hev : t.pgeEvents = s.pgeEvents ++ (es.map (·.ev)).filter (·.byPge) := by
    simp [State.pgeEvents, State.events, hes]
  have hmem : Event.notify ∈ s.pge.pgPh.ahead := by
    cases hp : s.pge.pgPh
    case idle => exact absurd hp hf
    all_goals simp [PgPh.ahead]
  rw [← List.append_cancel_left (hev.symm.trans htale)] at hmem
  exact List.mem_of_mem_filter hmem

theorem byPge_of_all {es : List Stamped} (h : es.all (·.ev.byPge) = true) : ∀ e ∈ es.map (·.ev), e.byPge = true := by
  intro e he
  obtain ⟨x, hx, rfl⟩ := List.mem_map.mp he
  exact List.all_eq_true.mp h x hx

/-- Whatever the budget and the bus engine, a run from `WaitIdle` with a pulse in flight waits for it. -/
theorem run_afterNotify {s : State} (ls : Program) (hb : hasBudget s = true) (hc : s.pge.consistent = true)
    (hf : s.pge.pgPh ≠ .idle) : AfterNotify s (runProgram ([.waitIdle] :: ls) s) := by
  have hwaits : Waits s (doAction .waitIdle s) := waitIdleTurns_waits _ s
  cases hd : doAction .waitIdle s with
  | skip t => exact absurd hd (hwaits.skip t)
  | stop t =>
    have hrun : runProgram ([.waitIdle] :: ls) s = t := by simp [runProgram, runLine, hb, hd]
    obtain ⟨es, hes, hpge⟩ := (hwaits.stop t hd).trace
    rw [hrun]
    exact ⟨es.map (·.ev), [], by simp [State.events, hes], byPge_of_all hpge, .inl rfl⟩
  | go t =>
    obtain ⟨hstill, hdone⟩ := hwaits.go t hd
    obtain ⟨es, hes, hpge⟩ := hstill.trace
    obtain ⟨fs, hfs⟩ := (afterAction_grows t).trans (runProgram_grows ([] :: ls) (afterAction t))
    rw [runProgram_go hb hd]
    exact ⟨es.map (·.ev), fs.map (·.ev), by simp [State.events, hfs, hes], byPge_of_all hpge,
      .inr (hstill.notify_mem hc hf hdone hes)⟩

/-- In the step that accepts OROW or SFRM. -/
theorem RowCommand.afterNotify {i : Instr} (hi : RowCommand i) {s t : State} (hc : s.pge.consistent = true)
    (hf : s.pge.pgPh ≠ .idle) (ht : Machine.exec i s = .next t) : AfterNotify s t := by
  obtain ⟨ls, hp⟩ := hi.waits s
  rw [hi.exec, hp] at ht
  cases ht
  have hrun := run_afterNotify ls (hasBudget_accept i s) (by simpa using hc) (by simpa using hf)
  rwa [AfterNotify, State.events, State.events, accept_trace, openStep_trace] at hrun

/-- In a later step that finds the command at micro-step 1. -/
theorem step_afterNotify {s t : State} (hr : s.env.rst.head = false) (hop : s.seq.seqOp = 0x34 ∨ s.seq.seqOp = 0x36)
    (hstep : s.seq.seqStep = 1) (hc : s.pge.consistent = true) (hf : s.pge.pgPh ≠ .idle) (hs : step s = .next t) :
    AfterNotify s t := by
  have hbusy : s.seq.seqOp ≠ 0 := by rcases hop with h | h <;> rw [h] <;> decide
  cases stepped hr hs with
  | idle h0 | illegal _ _ h0 | second _ _ h0 | command _ _ _ _ h0 => exact absurd h0 hbusy
  | busy i x xs ls _ _ ha _ =>
    have hi : RowCommand i := rowCommand_of_code (by rw [← latchedInstr_code ha.instr]; exact hop)
    obtain ⟨k, line, lines, hk, hd, hp⟩ := ha.place
    obtain ⟨_, hrest⟩ := hi.waits (openStep s.takeRst)
    obtain rfl : k = 0 := Nat.succ.inj (hk.symm.trans hstep)
    rw [hrest] at hd
    obtain ⟨rfl, rfl⟩ := List.cons.inj hd
    have hx : x :: xs = [Action.waitIdle].drop s.seq.seqSub := (List.cons.inj hp).1
    obtain ⟨rfl, rfl⟩ : x = .waitIdle ∧ xs = [] := by
      cases hn : s.seq.seqSub with
      | zero => simpa [hn] using hx
      | succ n => simp [hn] at hx
    exact run_afterNotify (s := openStep s.takeRst) ls (hasBudget_openStep _) hc hf

/-- Settles O51: `WaitIdle` samples PG_DONE, which the NOTIFY of the pulse in flight sets; withheld, it blocks for ever. -/
theorem pulseInFlightBlocksTheRow : Obligations.PulseInFlightBlocksTheRow := by
  unfold Obligations.PulseInFlightBlocksTheRow
  refine ⟨fun i s t hi hc hf ht => ⟨RowCommand.afterNotify hi hc hf ht, fun n hrst hnever => ?_⟩,
    fun s t hr hop hstep hc hf hs => step_afterNotify hr hop hstep hc hf hs⟩
  have hflag : s.pge.pgDone = false := by rw [consistent_done hc]; simpa using hf
  obtain ⟨u, hu, hw, hev, hop, hstep, hcfg⟩ := RowCommand.stays withheld_blocks hi ⟨hf, hnever, hflag⟩ hrst ht n
  exact ⟨u, hu, hev, hop, hstep, hcfg, hw.flag⟩

end Sys2Proof.Machine
end

section
/-! What sets MISUSE (60_exceptions.md R202). Apart from acceptance only two actions flag it, the guards of `Emit` and of
`PgInit`, and they go by the generator's status (40_pulse_generator.md R120, R122). That status changes by the allocator's
answer alone, and no guard comes after it; so the status at acceptance tells what a whole program flags. -/

namespace Sys2Proof.Machine

/-! ### One action -/

/-- Whether an action flags MISUSE on a generator of status `st` (R202, items 3 and 4). -/
def Action.flags (st : PgSt) : Action → Bool
  | .emitGuard => st == .uninit
  | .pgInitGuard => st != .uninit
  | _ => false

theorem flags_eq_false_of_not_guard {x : Action} (h : x.isGuard = false) (st : PgSt) : x.flags st = false := by
  cases x
  case emitGuard | pgInitGuard => cases h
  all_goals rfl

/-- An action that goes on leaves the two sticky flags alone. -/
theorem regsAfter_sticky (x : Action) (b : Bool) (r : SeqRegs) :
    (x.regsAfter b r).misuse = r.misuse ∧ (x.regsAfter b r).illegal = r.illegal := by
  cases x
  case dirOut p => cases p <;> exact ⟨rfl, rfl⟩
  case pinOut p v => cases p <;> exact ⟨rfl, rfl⟩
  case busInitAns | pgAllocAns => cases b <;> exact ⟨rfl, rfl⟩
  all_goals exact ⟨rfl, rfl⟩

/-- Only the allocator's answer changes the generator's status (R120). -/
theorem regsAfter_pgSt {x : Action} (hx : x ≠ .pgAllocAns) (b : Bool) (r : SeqRegs) :
    (x.regsAfter b r).pgSt = r.pgSt := by
  cases x
  case pgAllocAns => exact absurd rfl hx
  case dirOut p => cases p <;> rfl
  case pinOut p v => cases p <;> rfl
  case busInitAns => cases b <;> rfl
  all_goals rfl

/-- A guard that flags MISUSE does not go on. -/
theorem flags_eq_false_of_go {x : Action} {s t : State} (h : doAction x s = .go t) : x.flags s.seq.pgSt = false := by
  cases x
  case emitGuard | pgInitGuard => cases hst : s.seq.pgSt <;> simp [doAction, hst] at h; rfl
  all_goals rfl

/-! ### The programs -/

/-- Whether an action reads or writes the generator's status before the response. -/
def Action.onStatus : Action → Bool
  | .emitGuard => true
  | .pgInitGuard => true
  | .pgAllocAns => true
  | _ => false

/-- What the commands do with the generator's status, in order. -/
def statusActions : Opcode → List Action
  | .init | .pginit => [.pgInitGuard, .pgAllocAns]
  | .emit | .emitus | .skip | .orow => [.emitGuard]
  | .sfrm => [.emitGuard, .emitGuard, .emitGuard, .emitGuard]
  | .efrm => [.emitGuard, .emitGuard]
  | .pgbusy | .push | .pon | .poff | .poffa | .swbuf | .curbuf => []

theorem programOf_statusActions (i : Instr) (s : State) :
    (programOf i s).flatten.filter Action.onStatus = statusActions i.opcode := by
  cases i with
  | emit h l w => cases w <;> rfl
  | emitus h l w => cases w <;> rfl
  | orow t => simp only [programOf, orowProgram]; cases s.params.orWait <;> rfl
  | _ => rfl

/-- Whether `y` may come after `x`: past an `Emit` that a failed generator skips nothing flags MISUSE, and past the
allocator's answer nothing asks for the status. -/
def Action.allows : Action → Action → Bool
  | .emitGuard, y => !y.flags .failed
  | .pgAllocAns, y => !y.isGuard
  | _, _ => true

theorem allows_of_not_onStatus {x y : Action} (h : x.onStatus = true → y.onStatus = true → x.allows y = true) :
    x.allows y = true := by
  cases x
  case emitGuard | pgAllocAns =>
    cases y
    case emitGuard | pgInitGuard => exact h rfl rfl
    all_goals rfl
  all_goals rfl

/-- The actions of a program come in an order its guards allow. -/
theorem programOf_allows (i : Instr) (s : State) :
    (programOf i s).flatten.Pairwise (fun x y => x.allows y = true) := by
  have h : ((programOf i s).flatten.filter Action.onStatus).Pairwise (fun x y => x.allows y = true) := by
    rw [programOf_statusActions]
    cases i.opcode <;> decide
  exact (List.pairwise_filter.mp h).imp allows_of_not_onStatus

/-- What a program flags on the status at acceptance. -/
theorem programOf_flags (i : Instr) (s : State) (st : PgSt) :
    (programOf i s).flatten.any (Action.flags st) = (statusActions i.opcode).any (Action.flags st) := by
  rw [← programOf_statusActions i s, List.any_filter]
  congr 1
  funext x
  cases x <;> rfl

/-- The list of R202 is the legal set and the guards, a second INIT apart. -/
theorem misuseOf_eq (i : Instr) (r : SeqRegs) (hi : ∀ n, i = .init n → r.psm = .uninit) :
    misuseOf i r = (!legalSet i.opcode r.psm || (statusActions i.opcode).any (Action.flags r.pgSt)) := by
  have guards : ((i.opcode == .init && (r.psm != .uninit || r.pgSt != .uninit)) ||
      ((i.opcode == .pginit && r.pgSt != .uninit) || (usesEmit i.opcode && r.pgSt == .uninit))) =
      (statusActions i.opcode).any (Action.flags r.pgSt) := by
    cases i
    case init n => rw [hi n rfl]; cases r.pgSt <;> rfl
    all_goals cases r.pgSt <;> rfl
  rw [misuseOf, legalStates_contains, Bool.or_assoc, Bool.or_assoc, guards]

/-! ### A run -/

/-- With the actions `xs` ahead, MISUSE comes to `m` by the status that `u` has. -/
structure MisuseComesTo (m : Bool) (xs : List Action) (u : State) : Prop where
  flag : (u.seq.misuse || xs.any (Action.flags u.seq.pgSt)) = m
  order : xs.Pairwise (fun x y => x.allows y = true)

theorem MisuseComesTo.of_eq {m : Bool} {xs : List Action} {u v : State} (h : MisuseComesTo m xs u)
    (hm : v.seq.misuse = u.seq.misuse) (hst : v.seq.pgSt = u.seq.pgSt) : MisuseComesTo m xs v :=
  ⟨by rw [hm, hst]; exact h.flag, h.order⟩

theorem MisuseComesTo.afterAction {m : Bool} {xs : List Action} {u : State} (h : MisuseComesTo m xs u) :
    MisuseComesTo m xs (afterAction u) :=
  h.of_eq (by rw [afterAction_seq]) (by rw [afterAction_seq])

/-- Nothing flags MISUSE past the allocator's answer, so its new status does not matter. -/
theorem any_flags_after_answer {xs : List Action} (h : ∀ y ∈ xs, Action.pgAllocAns.allows y = true) (st : PgSt) :
    xs.any (Action.flags st) = false :=
  List.any_eq_false.mpr fun y hy => by
    simp [flags_eq_false_of_not_guard (show y.isGuard = false by simpa [Action.allows] using h y hy)]

theorem MisuseComesTo.go {m : Bool} {x : Action} {xs : List Action} {u v : State} (h : MisuseComesTo m (x :: xs) u)
    (hd : doAction x u = .go v) : MisuseComesTo m xs (Machine.afterAction v) := by
  obtain ⟨hflag, horder⟩ := h
  obtain ⟨hx, hxs⟩ := List.pairwise_cons.mp horder
  obtain ⟨b, hr, -⟩ := doAction_go_acts hd
  rw [List.any_cons, flags_eq_false_of_go hd, Bool.false_or] at hflag
  refine MisuseComesTo.afterAction ⟨?_, hxs⟩
  rw [hr, (regsAfter_sticky x b u.seq).1, ← hflag]
  by_cases ha : x = .pgAllocAns
  · subst ha
    rw [any_flags_after_answer hx, any_flags_after_answer hx]
  · rw [regsAfter_pgSt ha]

/-- A guard that skips has flagged MISUSE, or nothing ahead does on the failed generator. -/
theorem MisuseComesTo.skip {m : Bool} {x : Action} {xs ys : List Action} {u v : State}
    (h : MisuseComesTo m (x :: xs ++ ys) u) (hd : doAction x u = .skip v) :
    MisuseComesTo m ys (Machine.afterAction v) := by
  obtain ⟨hflag, horder⟩ := h
  refine MisuseComesTo.afterAction ⟨?_, (List.pairwise_append.mp horder).2.1⟩
  obtain ⟨rfl, hst, rfl⟩ | ⟨rfl, hst, rfl⟩ | ⟨rfl, hst, rfl⟩ := doAction_skip x u v hd
  · have hquiet : (xs ++ ys).any (Action.flags .failed) = false :=
      List.any_eq_false.mpr fun y hy => by simpa [Action.allows] using (List.pairwise_cons.mp horder).1 y hy
    obtain ⟨hxs, hys⟩ := Bool.or_eq_false_iff.mp (List.any_append.symm.trans hquiet)
    simpa [Action.flags, hst, hxs, hys, show (PgSt.failed == PgSt.uninit) = false from rfl] using hflag
  · simpa [Action.flags, hst] using hflag
  · simpa [Action.flags, bne_iff_ne.mpr hst] using hflag

/-- Whatever the budget, a run that ends its command has flagged what its program has ahead. -/
theorem run_misuse {i : Instr} {l : Line} {ls : Program} {s : State} (ha : At i (l :: ls) s) (he : Ends (l :: ls))
    (hne : l ≠ [] ∨ ls ≠ []) {m : Bool} (h : MisuseComesTo m (l :: ls).flatten s) :
    (runProgram (l :: ls) s).seq.seqOp = 0 → (runProgram (l :: ls) s).seq.misuse = m :=
  have busy : ∀ {p : Program} {u v : State}, At i p u → v.seq.seqOp = u.seq.seqOp → v.seq.seqOp = 0 →
      v.seq.misuse = m :=
    fun hat hv h0 => absurd ((latchedInstr_code hat.instr).symm.trans (hv.symm.trans h0)) (code_ne_zero _)
  run_induct i (fun p u => MisuseComesTo m p.flatten u) (fun u => u.seq.seqOp = 0 → u.seq.misuse = m)
    (go := fun _ _ _ _ _ _ _ hI hd _ => hI.go hd)
    (skip := fun _ _ _ _ _ _ _ hI hd => hI.skip hd)
    (next := fun _ _ _ _ hI _ => hI.of_eq rfl rfl)
    (stop := fun x xs ls u v hat hend hI hd => by
      obtain hs | ⟨o, r, rfl, rfl⟩ := doAction_stop x u v hd
      · exact busy hat (by rw [hs.seq])
      · obtain ⟨rfl, rfl⟩ := hat.done_last hend
        rw [finish_seq]
        exact fun _ => (Bool.or_false _).symm.trans hI.flag)
    (pause := fun _ _ _ _ hat _ _ _ => busy hat rfl)
    ls l s ha he hne h

/-! ### ILLEGAL -/

theorem Performs.illegal {i : Instr} {r q : SeqRegs} {es : List Event} (h : Performs i r q es) :
    q.illegal = r.illegal := by
  induction h with
  | start => rfl
  | action x b _ _ ih => rw [(regsAfter_sticky x b _).2, ih]
  | misuse _ ih => exact ih
  | position k n _ ih => exact ih

theorem Course.illegal {i : Instr} {r q : SeqRegs} {es : List Event} (h : Course i r q es) : q.illegal = r.illegal := by
  cases h with
  | going hp => exact hp.illegal
  | ended st d hp => exact hp.illegal

/-! ### A command -/

/-- A command accepted in a fair run, a second INIT apart, has run its program to the end. -/
theorem startCommand_misuse {i : Instr} {s : State} (hwf : i.wf s.params.maxTicks = true) (hfair : s.fairRun = true)
    (hi : ∀ n, i = .init n → s.seq.psm = .uninit) :
    ∃ t, startCommand i (programOf i s) s = .next t ∧ t.seq.misuse = (s.seq.misuse || misuseOf i s.seq) ∧
      t.seq.illegal = s.seq.illegal := by
  obtain ⟨l, ls, hp, ha, he, hne⟩ := at_accept i s (decode_encode hwf)
  have hg := going_accept i hfair
  obtain ⟨hidle, -⟩ := run_answered ha he hne (c := .free) ⟨hg.consistent, hg.inFlight⟩
    (fits_of_mem (s := s) (by rw [hp]; exact List.mem_cons_self)) hg.unhindered
  obtain ⟨es, -, hcourse⟩ := run_follows ha he hne
  have hahead : MisuseComesTo (s.seq.misuse || misuseOf i s.seq) (l :: ls).flatten (accept i (openStep s)) := by
    refine ⟨?_, hp ▸ programOf_allows i s⟩
    rw [← hp, programOf_flags, accept_seq, misuseOf_eq i s.seq hi, ← Bool.or_assoc]
    rfl
  refine ⟨closeStep _, by rw [startCommand, hp], run_misuse ha he hne hahead hidle, ?_⟩
  exact hcourse.illegal.trans (by rw [accept_seq]; rfl)

/-- A second INIT is accepted outside its legal set (R202, items 1 and 2). -/
theorem misuseOf_secondInit (n : Half) {r : SeqRegs} (h : r.psm ≠ .uninit) : misuseOf (.init n) r = true := by
  simp [misuseOf, Instr.opcode, h]

/-- Settles O44: a second INIT flags MISUSE at once; any other command flags it at acceptance or in a guard. -/
theorem misuseIsExactlyTheList : Obligations.MisuseIsExactlyTheList := by
  unfold Obligations.MisuseIsExactlyTheList
  intro i s hwf hfair
  rw [exec_eq]
  split
  · next h =>
    obtain ⟨⟨n, rfl⟩, hpsm⟩ := h
    refine ⟨_, rfl, ?_⟩
    rw [closeStep_seq, ignoreSecondInit_seq, misuseOf_secondInit n hpsm, Bool.or_true]
    exact ⟨rfl, rfl⟩
  · next h => exact startCommand_misuse hwf hfair fun n hn => of_not_not fun hp => h ⟨⟨n, hn⟩, hp⟩

end Sys2Proof.Machine
end

section
/-! An asserted `rst` (70_reset_and_hazards.md R230, R231, 10_state.md R41). -/

namespace Sys2Proof.Machine

theorem step_of_rst {s : State} (hr : s.env.rst.head = true) : step s = .next (applyReset s.takeRst) := by
  rw [step, if_pos hr]

/-- The command port is closed while `rst` is 1 (20_memory.md R60). -/
theorem cmdReady_of_rst {s : State} (hr : s.env.rst.head = true) : s.cmdReady = false := by simp [State.cmdReady, hr]

/-- With every direction bit 0 no pad is driven (10_state.md R33). -/
theorem applyReset_pad (s : State) (p : Pin) : (applyReset s).pad p = none := by cases p <;> rfl

theorem applyReset_seqEvents (s : State) : (applyReset s).seqEvents = s.seqEvents := by
  cases hk : s.pge.ckv <;> simp [State.seqEvents, State.events, hk, Event.byPge]

/-- CKV falls with the reset, and no NOTIFY comes of the pulse that is cut (log 10). -/
theorem applyReset_pgeEvents (s : State) :
    (applyReset s).pgeEvents = s.pgeEvents ++ (if s.pge.ckv then [.ckv false] else []) := by
  cases hk : s.pge.ckv <;> simp [State.pgeEvents, State.events, hk, Event.byPge]

theorem applyReset_cmds (s : State) :
    (applyReset s).env.cmds = s.env.cmds ∧ (applyReset s).env.cmdsLater = s.env.cmdsLater := by
  rw [applyReset_env]
  split <;> exact ⟨rfl, rfl⟩

/-- Settles O12: R41's table, register by register; a reset adds at most CKV(0) to the trace and reads no word. -/
theorem resetDominates : Obligations.ResetDominates := by
  unfold Obligations.ResetDominates
  intro s hr
  obtain ⟨hcmds, hlater⟩ := applyReset_cmds s.takeRst
  exact ⟨cmdReady_of_rst hr, _, step_of_rst hr, rfl, rfl, rfl, rfl, rfl, rfl, rfl, rfl, rfl, rfl, rfl, rfl,
    applyReset_pad _, rfl, rfl, rfl, rfl, applyReset_seqEvents s.takeRst, applyReset_pgeEvents s.takeRst, hcmds, hlater,
    applyReset_params _⟩

end Sys2Proof.Machine
end

section
/-! How long the waited pulses keep a command (70_reset_and_hazards.md R260). The deadline of a state is the tick before which
the waveform in flight cannot be over: time does not bring it nearer, a start step puts it off by the symbol that is
programmed, and with no pulse in flight it is now. So along a command the deadline counts the pulses and, where nothing is in
flight, the delays. -/

namespace Sys2Proof.Machine

/-! ### The deadline -/

/-- The ticks of the symbol of (h, l) (30_encoding.md R96). -/
def symbolTicks (h l : Half) : Nat := if h = 0 then l.toNat else h.toNat + l.toNat

/-- The ticks of phase 1, where the programmed symbol has one (R127). -/
def SeqRegs.phase1Ticks (r : SeqRegs) : Nat := if r.pgP1p then r.pgD1.toNat else 0

/-- The ticks of the programmed symbol (R126 to R128). -/
def SeqRegs.programmedTicks (r : SeqRegs) : Nat := r.pgD0.toNat + r.phase1Ticks

/-- The ticks the waveform in flight lasts at least. -/
def State.waveLeft (s : State) : Nat :=
  match s.pge.pgPh with
  | .ph0 => s.pge.pgCnt.toNat + s.seq.phase1Ticks
  | .ph1 => s.pge.pgCnt.toNat
  | .idle | .notify => 0

/-- The tick before which the waveform in flight is not over. -/
def State.deadline (s : State) : Nat := s.now + s.waveLeft

theorem now_le_deadline (s : State) : s.now ≤ s.deadline := Nat.le_add_right _ _

theorem waveLeft_idle {s : State} (h : s.pge.pgPh = .idle) : s.waveLeft = 0 := by rw [State.waveLeft, h]

theorem waveLeft_ph0 {s : State} (h : s.pge.pgPh = .ph0) : s.waveLeft = s.pge.pgCnt.toNat + s.seq.phase1Ticks := by
  rw [State.waveLeft, h]

theorem waveLeft_ph1 {s : State} (h : s.pge.pgPh = .ph1) : s.waveLeft = s.pge.pgCnt.toNat := by rw [State.waveLeft, h]

theorem waveLeft_notify {s : State} (h : s.pge.pgPh = .notify) : s.waveLeft = 0 := by rw [State.waveLeft, h]

theorem deadline_idle {s : State} (h : s.pge.pgPh = .idle) : s.deadline = s.now := by
  rw [State.deadline, waveLeft_idle h, Nat.add_zero]

/-- A start step with no pulse in flight puts the deadline off by the programmed symbol (R126). -/
theorem deadline_startPulse {s : State} (h : s.pge.pgPh = .idle) :
    (startPulse s).deadline = s.deadline + s.seq.programmedTicks := by
  rw [deadline_idle h]
  rfl

/-- Phase 1 begins with its full count (R127). -/
theorem endPhase0_waveLeft (s : State) : s.seq.phase1Ticks ≤ (endPhase0 s).waveLeft := by
  by_cases h : s.seq.pgP1p = true ∧ s.seq.pgD1 ≠ 0
  · rw [endPhase0, if_pos h, SeqRegs.phase1Ticks, if_pos h.1]
    exact Nat.le_refl _
  · have hz : s.seq.phase1Ticks = 0 := by
      rw [SeqRegs.phase1Ticks]
      split
      · next hp =>
        have hd1 : s.seq.pgD1 = 0 := by simpa [hp] using h
        rw [hd1]
        rfl
      · rfl
    rw [hz]
    exact Nat.zero_le _

/-- One tick takes at most one tick off the waveform (R127, R128). -/
theorem pgeTick_waveLeft (s : State) : s.waveLeft ≤ (pgeTick s).waveLeft + 1 := by
  unfold pgeTick
  split
  · exact Nat.le_succ _
  · next h =>
    rw [waveLeft_ph0 h]
    split
    · have hend := endPhase0_waveLeft s
      omega
    · next hcnt =>
      rw [waveLeft_ph0 (s := { s with pge := { s.pge with pgCnt := s.pge.pgCnt - 1 } }) h]
      simp only [sub_one_toNat s.pge.pgCnt (by omega)]
      omega
  · next h =>
    rw [waveLeft_ph1 h]
    split
    · omega
    · next hcnt =>
      rw [waveLeft_ph1 (s := { s with pge := { s.pge with pgCnt := s.pge.pgCnt - 1 } }) h]
      simp only [sub_one_toNat s.pge.pgCnt (by omega)]
      omega
  · next h =>
    rw [waveLeft_notify h]
    exact Nat.zero_le _

theorem tick_deadline (s : State) : s.deadline ≤ (tick s).deadline := by
  have hleft : s.waveLeft ≤ (tick s).waveLeft + 1 :=
    pgeTick_waveLeft { s with now := s.now + 1, dlyCnt := if s.dlyCnt = 0 then 0 else s.dlyCnt - 1 }
  rw [State.deadline, State.deadline, tick_now]
  omega

theorem elapse_deadline (n : Nat) : ∀ s, s.deadline ≤ (elapse n s).deadline := by
  induction n with
  | zero => exact fun s => Nat.le_refl _
  | succ n ih =>
    intro s
    rw [elapse_succ]
    exact (tick_deadline s).trans (ih (tick s))

theorem waitTicks_deadline (n : Nat) (s : State) : s.deadline ≤ (waitTicks n s).deadline := by
  unfold waitTicks
  split
  · exact elapse_deadline n s
  · next b _ => exact elapse_deadline (min n b) s

theorem spend_deadline (s : State) : (spend s).deadline = s.deadline := by unfold spend; split <;> rfl

theorem spinTurn_deadline (s : State) : s.deadline ≤ (spinTurn s).deadline := by
  rw [spinTurn, spend_deadline]
  exact elapse_deadline _ { s with env := { s.env with tStep := s.env.tStep.pop } }

theorem afterAction_deadline (s : State) : s.deadline ≤ (afterAction s).deadline := by
  rw [afterAction, spend_deadline]
  exact elapse_deadline _ (stepOver s)

/-! ### One action -/

theorem awaitDone_deadline {s t : State} (h : awaitDone s = .go t) : s.deadline ≤ t.deadline := by
  unfold awaitDone at h
  split at h
  · cases h; exact Nat.le_refl _
  · simp only at h
    split at h <;> cases h
    exact waitTicks_deadline _ s

theorem waitIdleTurns_deadline (later : List Bool) : ∀ {s t : State}, waitIdleTurns later s = .go t →
    s.deadline ≤ t.deadline := by
  induction later with
  | nil =>
    intro s t h
    unfold waitIdleTurns at h
    split at h
    · cases h
    · exact awaitDone_deadline h
  | cons busy later ih =>
    intro s t h
    unfold waitIdleTurns at h
    simp only at h
    split at h
    · split at h
      · cases h; exact Nat.le_refl _
      · exact (spinTurn_deadline { s with env := { s.env with busBusy := s.env.busBusy.pop } }).trans (ih h)
    · cases h

/-- The actions of the initialisation calls (20_memory.md R67, 40_pulse_generator.md R120). -/
def Action.initialises : Action → Bool
  | .busInitAns => true
  | .pgInitGuard => true
  | .pgAllocAns => true
  | _ => false

/-- The ticks of the programmed symbol after an action, from those before. -/
def Action.programs : Action → Nat → Nat
  | .program h l, _ => symbolTicks h l
  | _, d => d

/-- The ticks of the pulse an action starts, from those of the programmed symbol. -/
def Action.starts : Action → Nat → Nat
  | .start, d => d
  | _, _ => 0

theorem programmedTicks_program (h l : Half) (r : SeqRegs) :
    SeqRegs.programmedTicks { r with pgD0 := symbolD0 h l, pgD1 := symbolD1 h l, pgP1p := symbolP1p h } =
      symbolTicks h l := by
  simp only [SeqRegs.programmedTicks, SeqRegs.phase1Ticks, symbolTicks, symbolD0, symbolD1, symbolP1p]
  by_cases hh : h = 0
  · simp [hh]
  · simp only [if_neg hh, beq_eq_false_iff_ne.mpr hh, Bool.not_false, if_true]

theorem regsAfter_programmedTicks (x : Action) (b : Bool) (r : SeqRegs) :
    (x.regsAfter b r).programmedTicks = x.programs r.programmedTicks := by
  cases x
  case program h l => exact programmedTicks_program h l r
  case dirOut p => cases p <;> rfl
  case pinOut p v => cases p <;> rfl
  case busInitAns | pgAllocAns => cases b <;> rfl
  all_goals rfl

/-- An action puts the deadline off by the pulse it starts, at least; the engine is as the action needs it. -/
theorem doAction_go_deadline {x : Action} {s t : State} (hx : x.initialises = false) (hn : x.needs.metBy s)
    (h : doAction x s = .go t) : s.deadline + x.starts s.seq.programmedTicks ≤ t.deadline := by
  cases x
  case waitIdle => exact waitIdleTurns_deadline _ h
  case awaitDone => exact awaitDone_deadline h
  case delayWait =>
    simp only [doAction] at h
    split at h <;> cases h
    exact waitTicks_deadline _ s
  case emitGuard => simp only [doAction] at h; split at h <;> cases h; exact Nat.le_refl _
  case program d l =>
    cases h
    have hi : s.pge.pgPh = .idle := (quiet_of_done hn.1 hn.2.1).1
    rw [deadline_idle hi]
    exact Nat.le_add_right s.now _
  case start =>
    cases h
    exact (deadline_startPulse (s := emitEvent (.pulse s.seq.pgD0 s.seq.pgD1 s.seq.pgP1p) s) hn.1).ge
  case dirOut p => cases h; cases p <;> exact Nat.le_refl _
  case pinOut p v => cases h; cases p <;> exact Nat.le_refl _
  case busInitAns | pgInitGuard | pgAllocAns => cases hx
  case done o r => cases h
  case pick | latchVariant | cfgPut | cfgSet | cfgClear | dataBit | delayLoad | clearDone | busInitReq | pgSetPin |
      pgAllocReq | busStart | busSwitch | psmPut =>
    cases h; exact Nat.le_refl _

/-! ### A micro-step -/

/-- The ticks of the pulses a list of actions starts, with a symbol of `d` ticks programmed before. -/
def lineTicks : Line → Nat → Nat
  | [], _ => 0
  | x :: xs, d => x.starts d + lineTicks xs (x.programs d)

/-- On a ready generator no guard of `Emit` skips its line. -/
theorem skip_initialises {x : Action} {s t : State} (hr : s.seq.pgSt = .ready) (h : doAction x s = .skip t) :
    x.initialises = true := by
  obtain ⟨-, hst, -⟩ | ⟨-, hst, -⟩ | ⟨rfl, -, -⟩ := doAction_skip x s t h
  · rw [hr] at hst; cases hst
  · rw [hr] at hst; cases hst
  · rfl

theorem regsAfter_pgSt_of_not_initialises {x : Action} (hx : x.initialises = false) (b : Bool) (r : SeqRegs) :
    (x.regsAfter b r).pgSt = r.pgSt :=
  regsAfter_pgSt (fun ha => by rw [ha] at hx; cases hx) b r

/-- A micro-step that goes on puts the deadline off by the pulses it starts, at least. -/
theorem runLine_go_deadline (l : Line) : ∀ {c : Cond} {s t : State}, c.metBy s → c.fits l = true →
    l.all (fun x => !x.initialises) = true → s.seq.pgSt = .ready → runLine l s = .go t →
    s.deadline + lineTicks l s.seq.programmedTicks ≤ t.deadline := by
  induction l with
  | nil => intro c s t _ _ _ _ h; cases h; exact Nat.le_refl _
  | cons x xs ih =>
    intro c s t hc hf hl hr h
    obtain ⟨hcov, hfits⟩ := Bool.and_eq_true_iff.mp hf
    have hx : x.initialises = false := by simpa using List.all_eq_true.mp hl x List.mem_cons_self
    have hn : x.needs.metBy s := Cond.holds_of_covers hcov hc
    unfold runLine at h
    split at h
    · split at h
      · next v hd =>
        obtain ⟨b, hseq, -⟩ := doAction_go_acts hd
        have hxs := ih (Cond.metBy_afterAction (doAction_go_leaves hn hd)) hfits
          (List.all_eq_true.mpr fun y hy => List.all_eq_true.mp hl y (List.mem_cons_of_mem x hy))
          (by rw [afterAction_seq, hseq]; exact (regsAfter_pgSt_of_not_initialises hx b _).trans hr) h
        have hprog : (afterAction v).seq.programmedTicks = x.programs s.seq.programmedTicks := by
          rw [afterAction_seq, ← regsAfter_programmedTicks x b, ← hseq]
          rfl
        rw [hprog] at hxs
        have hgo := doAction_go_deadline hx hn hd
        have hafter := afterAction_deadline v
        rw [lineTicks]
        omega
      · next v hd => rw [skip_initialises hr hd] at hx; cases hx
      · cases h
    · cases h

/-! ### A phase -/

/-- The ticks a phase keeps SEQ on a ready generator. -/
def Phase.counted : Phase → Nat
  | .delay n => n.toNat
  | .emit h l _ => symbolTicks h l
  | _ => 0

/-- Delays are met with no pulse in flight, so that their ticks are none of a pulse's. -/
def delaysApart : Bool → List Phase → Bool
  | _, [] => true
  | q, p :: ps => (!p.isDelay || q) && delaysApart (p.settled .ready q) ps

/-- What the line of a phase starts is the phase's pulse. -/
theorem lineTicks_phase {s : State} {q : Bool} {p : Phase} (h : p.Ready s q) (hp : p.isDelay = false) (d : Nat) :
    lineTicks p.line d = p.counted := by
  cases p
  case act x =>
    cases x
    case pick | cfgPut | cfgSet | cfgClear | pinOut | busStart | busSwitch => rfl
    all_goals cases h
  case delay => cases hp
  case emit h l w => cases w <;> simp [Phase.line, emitLine, lineTicks, Action.starts, Action.programs, Phase.counted]
  case push => simp [Phase.line, pushLine, lineTicks, Action.starts, Phase.counted]
  case waitIdle => rfl

theorem phase_fits {s : State} {q : Bool} {p : Phase} (h : p.Ready s q) :
    Cond.free.fits p.line = true ∧ p.line.all (fun x => !x.initialises) = true := by
  cases p
  case act x =>
    cases x
    case pick | cfgPut | cfgSet | cfgClear | pinOut | busStart | busSwitch => exact ⟨rfl, rfl⟩
    all_goals cases h
  case emit _ _ w => cases w <;> exact ⟨rfl, rfl⟩
  case push | delay | waitIdle => exact ⟨rfl, rfl⟩

/-- A stage of one micro-step is that micro-step, run to its end: else no later micro-step would be run. -/
theorem Stage.runLine_go {l : Line} {p : List Event} {s t : State} {v : View} (h : Stage [l] p s t v) :
    ∃ u, runLine l s = .go u ∧ t = nextStep u := by
  have hend := h.run []
  have hmore := h.run [[]]
  have hpos : nextStep t ≠ t := fun he => by
    have := congrArg (·.seq.seqStep) he
    simp at this
  simp only [List.append_nil, List.cons_append, List.nil_append, runProgram] at hend hmore
  cases hl : runLine l s with
  | go u => exact ⟨u, rfl, by simpa [hl] using hend.symm⟩
  | skip u | stop u =>
    simp only [hl] at hend hmore
    rw [hend] at hmore
    exact absurd hmore.symm hpos

/-- A phase on a ready generator puts the deadline off by its counted ticks, at least. -/
theorem Passed.deadline_one {p : Phase} {q : Bool} {s t : State} (h : Passed [p] q s t) (hready : p.Ready s q)
    (hq : q = true → s.pge.quiet) (hd : (!p.isDelay || q) = true) (hc : s.pge.consistent = true)
    (hr : s.seq.pgSt = .ready) : s.deadline + p.counted ≤ t.deadline := by
  cases hp : p.isDelay with
  | true =>
    have hquiet : s.pge.pgPh = .idle := (hq (by simpa [hp] using hd)).1
    have hticks : p.counted = ([p].map Phase.ticks).sum := by
      cases p
      case delay => rfl
      all_goals cases hp
    rw [deadline_idle hquiet, hticks]
    exact h.ticks.trans (now_le_deadline t)
  | false =>
    obtain ⟨u, hrun, rfl⟩ := h.stage.runLine_go
    obtain ⟨hfits, hno⟩ := phase_fits hready
    rw [← lineTicks_phase hready hp]
    exact runLine_go_deadline p.line (c := .free) (t := u) ⟨hc, .inr hr⟩ hfits hno hr hrun

/-! ### A command -/

/-- Phases on a ready generator put the deadline off by their counted ticks, at least. -/
theorem passed_phases_deadline (ps : List Phase) : ∀ {q : Bool} {s : State}, s.budget = none →
    (q = true → s.pge.quiet) → Prepared s q ps → delaysApart q ps = true → s.pge.consistent = true →
    s.seq.pgSt = .ready → ∃ t, Passed ps q s t ∧ s.deadline + (ps.map Phase.counted).sum ≤ t.deadline := by
  induction ps with
  | nil => exact fun _ hq _ _ _ _ => ⟨_, .nil hq, Nat.le_refl _⟩
  | cons p ps ih =>
    intro q s hb hq h hdelays hc hr
    obtain ⟨hp, hps⟩ := h
    obtain ⟨hd, hds⟩ := Bool.and_eq_true_iff.mp hdelays
    obtain ⟨t, ht⟩ := passed_one hb hq hp
    have hst : t.seq.pgSt = s.seq.pgSt := (pgSt_of_view ht.stage.view).trans (hp.pgSt s.view.regs)
    have hone := ht.deadline_one hp hq hd hc hr
    obtain ⟨u, hu, hrest⟩ := ih (ht.stage.goes.budget hb) ht.quiet (hps.goes ht.stage.goes hst) (by rw [hr]; exact hds)
      (ht.stage.goes.consistent hc) (hst.trans hr)
    refine ⟨u, ht.cons hst hu, ?_⟩
    rw [List.map_cons, List.sum_cons]
    omega

/-- A command made of phases on a ready generator, the last pulse waited for, takes their counted ticks at least. -/
theorem counted_le_of_phases (i : Instr) (ps : List Phase) {s t : State} (hg : s.grain = none)
    (hc : s.pge.consistent = true) (hr : s.seq.pgSt = .ready) (h : Prepared s false ps)
    (hdelays : delaysApart false ps = true) (hlast : ps.foldl (Phase.settled .ready) false = true)
    (hrun : startCommand i (ps.map Phase.line ++ [[.done i.opcode .plain]]) s = .next t) :
    s.now + (ps.map Phase.counted).sum ≤ t.now := by
  have hst : (accept i (openStep s)).seq.pgSt = s.seq.pgSt := by simp [accept_seq]
  obtain ⟨u, hpassed, hdeadline⟩ := passed_phases_deadline ps (q := false) (accept_unlimited i hg) nofun
    (h.goes (accept_calm i hg) hst) hdelays (by simpa using hc) (hst.trans hr)
  have hquiet : u.pge.quiet := hpassed.quiet (by rw [hst, hr]; exact hlast)
  obtain ⟨v, hv, -, -, -, hcalm⟩ := command_done i i.opcode .plain _ _ s u _ hg hpassed.stage
  cases hv.symm.trans hrun
  calc s.now + (ps.map Phase.counted).sum
      ≤ (accept i (openStep s)).deadline + (ps.map Phase.counted).sum := by
        gcongr
        simpa using now_le_deadline (accept i (openStep s))
    _ ≤ u.deadline := hdeadline
    _ = u.now := deadline_idle hquiet.1
    _ ≤ t.now := hcalm.now

/-- Settles O48: each pulse ends before `Emit` goes on past its wait, and SFRM's delay falls between two pulses. -/
theorem waitedPulsesTakeTheirTicks : Obligations.WaitedPulsesTakeTheirTicks := by
  unfold Obligations.WaitedPulsesTakeTheirTicks
  intro s hfair hr
  have hgoing := going_accept .efrm hfair
  have hg : s.grain = none := by simpa using hgoing.budget
  have hc : s.pge.consistent = true := by simpa using hgoing.consistent
  have hn : s.env.notifies = true := by simpa using hgoing.notifies
  have hs : s.env.busSettles = true := by simpa using hgoing.settles
  refine ⟨fun h l t ht => ?_, fun t ht => ?_, fun t ht => ?_⟩
  · exact counted_le_of_phases (.emit h l true) [.emit h l true] hg hc hr ⟨⟨hc, .inl hn⟩, trivial⟩ rfl rfl ht
  · have hsum : ((efrmPhases s.params.efP).map Phase.counted).sum =
        2 * symbolTicks s.params.efP.high s.params.efP.low := by
      simp [efrmPhases, Phase.counted, Nat.two_mul]
    exact hsum ▸ counted_le_of_phases .efrm (efrmPhases s.params.efP) hg hc hr
      (by simp [Prepared, efrmPhases, Phase.Ready, Action.simple, hc, hn]) rfl rfl ht
  · have hsum : s.now + ((sfrmPhases s.params).map Phase.counted).sum =
        s.now + symbolTicks s.params.sfA.high s.params.sfA.low + 10 + symbolTicks s.params.sfB.high s.params.sfB.low +
          symbolTicks s.params.sfC.high s.params.sfC.low + symbolTicks s.params.sfD.high s.params.sfD.low := by
      simp [sfrmPhases, Phase.counted, dlySf]
      omega
    exact hsum ▸ counted_le_of_phases .sfrm (sfrmPhases s.params) hg hc hr
      (by simp [Prepared, sfrmPhases, Phase.Ready, Action.simple, hc, hn, hs]) rfl rfl ht

end Sys2Proof.Machine
end

section
/-! Words written out (95_test_vectors.md V26): each is the word of a command, whose operand values decide, or fails at
its opcode or at a must-be-zero field before the operands are looked at (30_encoding.md R104). -/

namespace Sys2Proof

/-- R104 step 3. -/
theorem decode_nonZeroField (m : Half) {c : CmdWord} {o : Opcode} (ho : Opcode.ofCode (fieldsOf c).opc = some o)
    (hz : mustBeZeroOk o.format (fieldsOf c) = false) : decode m c = .error .nonZeroField := by
  simp [decode, ho, hz]

theorem decode_eq_ok {m : Half} {c : CmdWord} {i : Instr} (hc : encode i = c) (h : i.wf m = true) :
    decode m c = .ok i :=
  hc ▸ Machine.decode_encode h

theorem decode_eq_operandValue {m : Half} {c : CmdWord} {i : Instr} (hc : encode i = c) (h : i.wf m = false) :
    decode m c = .error .operandValue := by
  rw [← hc, decode_encode_eq]
  simp [h]

/-- Settles O6: the six legal words are those of their commands; of the illegal ones 0x310000000002 is PON with a bit of Z
set, 0x12199A000000 is the word of EMITUS 6554, 0, 0 and 0x3A is no opcode. -/
theorem writtenOutWordsDecode : Obligations.WrittenOutWordsDecode := by
  unfold Obligations.WrittenOutWordsDecode
  refine ⟨?pginit, ?emit, ?emitus, ?push, ?init, ?orow, ?nonZeroField, ?operandValue, ?undefinedOpcode⟩
  case pginit | emit | emitus | push | init | orow => exact decode_eq_ok (by decide) (by decide)
  case nonZeroField => exact decode_nonZeroField _ (o := .pon) (by decide) (by decide)
  case operandValue => exact decode_eq_operandValue (i := .emitus 6554 0 false) (by decide) (by decide)
  case undefinedOpcode => exact decode_reserved _ (by decide)

end Sys2Proof
end
